-- ==== Sys2Proof/Word.lean ====
section
/-! DEFINITION. The word types of the Pentium (P5): general registers, EIP, EFLAGS, CR0 and CR4 are 32 bits wide
(00_scope.md R6 and R7), selectors and the floating-point control words 16, memory is addressed by bytes (R63). -/

namespace Sys2Proof

/-- A 32-bit register value or linear address (R6 `REG_BITS`, R7 `GPR_BITS`, `EIP_BITS`, `LINEAR_ADDR_BITS`). -/
abbrev Word := BitVec 32

/-- A 16-bit value: an operand of PUSHF and POPF, a selector, a floating-point control word. -/
abbrev Half := BitVec 16

/-- The unit of addressing (R63). -/
abbrev Byte := BitVec 8

end Sys2Proof
end

