-- ==== Sys2Proof/Machine/Bits.lean ====
section
/-! DEFINITION. The bit-field, sign-extension and byte-order helpers that the decoder, memory and the flag rules share. -/

namespace Sys2Proof

/-- `v` with bit `i` equal to `b`. -/
def setBit {w : Nat} (v : BitVec w) (i : Nat) (b : Bool) : BitVec w :=
  if b then v ||| (1#w <<< i) else v &&& ~~~(1#w <<< i)

/-- `(old & ~mask) | (new & mask)`: the masked register write of R145 to R147. -/
def maskWrite {w : Nat} (old new mask : BitVec w) : BitVec w :=
  (old &&& ~~~mask) ||| (new &&& mask)

/-- Byte `k` of a 32-bit value, byte 0 the least significant (R62). -/
def byteOf (v : Word) (k : Nat) : Byte := v.extractLsb' (8 * k) 8

/-- Two bytes in increasing address order, little-endian (R62). -/
def le16 (b0 b1 : Byte) : Half := b1 ++ b0

/-- Four bytes in increasing address order, little-endian (R62, R116). -/
def le32 (b0 b1 b2 b3 : Byte) : Word := b3 ++ b2 ++ b1 ++ b0

/-- `sext_32(rel8)` (R116). -/
def sext8 (rel : BitVec 8) : Word := rel.signExtend 32

/-- `Parity8(r)` of R180: true when `r[7:0]` has an even number of 1 bits. -/
def parity8 (r : Word) : Bool :=
  !(r.getLsbD 0 ^^ r.getLsbD 1 ^^ r.getLsbD 2 ^^ r.getLsbD 3 ^^
    r.getLsbD 4 ^^ r.getLsbD 5 ^^ r.getLsbD 6 ^^ r.getLsbD 7)

end Sys2Proof
end

