-- ==== Sys2Proof/Syntax.lean ====
section
/-! DEFINITION. The syntax of the Pentium subset of spec/opcode_table.json: one constructor of `Instr` for each of its 64
rows, in the table's order, the destination operand first. -/

namespace Sys2Proof

/-- The eight 32-bit general registers, in the order of their numbers 0 to 7 (R10, R115). -/
inductive Reg
  | eax | ecx | edx | ebx | esp | ebp | esi | edi
deriving DecidableEq, Repr

/-- The sixteen conditions of Jcc in the order of their codes 0 to F (R197). -/
inductive Cond
  | o | no | b | ae | z | nz | be | a | s | ns | p | np | l | ge | le | g
deriving DecidableEq, Repr

/-- An instruction: one constructor per row of spec/opcode_table.json. A `Mem` form takes the base register of its 32-bit
memory operand; only the bases of R114 are well formed. -/
inductive Instr
  /-- `01 /r`, mod 11: ADD x[rm], x[reg]. -/
  | addRmReg (rm reg : Reg)
  /-- `01 /r`, mod 00: ADD [x[rm]], x[reg]. -/
  | addMemReg (rm reg : Reg)
  /-- `03 /r`, mod 11: ADD x[reg], x[rm]. -/
  | addRegRm (reg rm : Reg)
  /-- `03 /r`, mod 00: ADD x[reg], [x[rm]]. -/
  | addRegMem (reg rm : Reg)
  /-- `05 id`: ADD EAX, imm32. -/
  | addEaxImm (imm : Word)
  /-- `09 /r`, mod 11: OR x[rm], x[reg]. -/
  | orRmReg (rm reg : Reg)
  /-- `09 /r`, mod 00: OR [x[rm]], x[reg]. -/
  | orMemReg (rm reg : Reg)
  /-- `0B /r`, mod 11: OR x[reg], x[rm]. -/
  | orRegRm (reg rm : Reg)
  /-- `0B /r`, mod 00: OR x[reg], [x[rm]]. -/
  | orRegMem (reg rm : Reg)
  /-- `0D id`: OR EAX, imm32. -/
  | orEaxImm (imm : Word)
  /-- `21 /r`, mod 11: AND x[rm], x[reg]. -/
  | andRmReg (rm reg : Reg)
  /-- `21 /r`, mod 00: AND [x[rm]], x[reg]. -/
  | andMemReg (rm reg : Reg)
  /-- `23 /r`, mod 11: AND x[reg], x[rm]. -/
  | andRegRm (reg rm : Reg)
  /-- `23 /r`, mod 00: AND x[reg], [x[rm]]. -/
  | andRegMem (reg rm : Reg)
  /-- `25 id`: AND EAX, imm32. -/
  | andEaxImm (imm : Word)
  /-- `29 /r`, mod 11: SUB x[rm], x[reg]. -/
  | subRmReg (rm reg : Reg)
  /-- `29 /r`, mod 00: SUB [x[rm]], x[reg]. -/
  | subMemReg (rm reg : Reg)
  /-- `2B /r`, mod 11: SUB x[reg], x[rm]. -/
  | subRegRm (reg rm : Reg)
  /-- `2B /r`, mod 00: SUB x[reg], [x[rm]]. -/
  | subRegMem (reg rm : Reg)
  /-- `2D id`: SUB EAX, imm32. -/
  | subEaxImm (imm : Word)
  /-- `31 /r`, mod 11: XOR x[rm], x[reg]. -/
  | xorRmReg (rm reg : Reg)
  /-- `31 /r`, mod 00: XOR [x[rm]], x[reg]. -/
  | xorMemReg (rm reg : Reg)
  /-- `33 /r`, mod 11: XOR x[reg], x[rm]. -/
  | xorRegRm (reg rm : Reg)
  /-- `33 /r`, mod 00: XOR x[reg], [x[rm]]. -/
  | xorRegMem (reg rm : Reg)
  /-- `35 id`: XOR EAX, imm32. -/
  | xorEaxImm (imm : Word)
  /-- `39 /r`, mod 11: CMP x[rm], x[reg]. -/
  | cmpRmReg (rm reg : Reg)
  /-- `39 /r`, mod 00: CMP [x[rm]], x[reg]. -/
  | cmpMemReg (rm reg : Reg)
  /-- `3B /r`, mod 11: CMP x[reg], x[rm]. -/
  | cmpRegRm (reg rm : Reg)
  /-- `3B /r`, mod 00: CMP x[reg], [x[rm]]. -/
  | cmpRegMem (reg rm : Reg)
  /-- `3D id`: CMP EAX, imm32. -/
  | cmpEaxImm (imm : Word)
  /-- `0F 20 /0`: MOV r32, CR0 (R160). -/
  | movRegCr0 (rm : Reg)
  /-- `0F 20 /4`: MOV r32, CR4 (R161). -/
  | movRegCr4 (rm : Reg)
  /-- `0F 22 /4`: MOV CR4, r32 (R162). -/
  | movCr4Reg (rm : Reg)
  /-- `0F 22 /0`: MOV CR0, r32, recognised and refused (R163). -/
  | movCr0Reg (rm : Reg)
  /-- `0F 30` (R171). -/
  | wrmsr
  /-- `0F 31` (R165). -/
  | rdtsc
  /-- `0F 32` (R170). -/
  | rdmsr
  /-- `0F A2` (R148). -/
  | cpuid
  /-- `40+r` (R195). -/
  | incReg (r : Reg)
  /-- `48+r` (R196). -/
  | decReg (r : Reg)
  /-- `50+r` (R186). -/
  | pushReg (r : Reg)
  /-- `58+r` (R187). -/
  | popReg (r : Reg)
  /-- `66 9C`: push the low 16 bits of EFLAGS (R143). -/
  | pushf
  /-- `66 9D`: pop 16 bits into EFLAGS (R145). -/
  | popf
  /-- `70+cc cb` (R197). -/
  | jccRel8 (cc : Cond) (rel : BitVec 8)
  /-- `85 /r`, mod 11: TEST x[rm], x[reg] (R194). -/
  | testRmReg (rm reg : Reg)
  /-- `85 /r`, mod 00: TEST [x[rm]], x[reg] (R194). -/
  | testMemReg (rm reg : Reg)
  /-- `89 /r`, mod 11: MOV x[rm], x[reg] (R184). -/
  | movRmReg (rm reg : Reg)
  /-- `89 /r`, mod 00: MOV [x[rm]], x[reg] (R184). -/
  | movMemReg (rm reg : Reg)
  /-- `8B /r`, mod 11: MOV x[reg], x[rm] (R185). -/
  | movRegRm (reg rm : Reg)
  /-- `8B /r`, mod 00: MOV x[reg], [x[rm]] (R185). -/
  | movRegMem (reg rm : Reg)
  /-- `90` (R181). -/
  | nop
  /-- `9C`: push EFLAGS (R144). -/
  | pushfd
  /-- `9D`: pop EFLAGS (R146). -/
  | popfd
  /-- `9E` (R141). -/
  | sahf
  /-- `9F` (R142). -/
  | lahf
  /-- `B8+r id`: MOV r32, imm32 (R183). -/
  | movRegImm (r : Reg) (imm : Word)
  /-- `C3` (R201). -/
  | ret
  /-- `CF` (R147). -/
  | iretd
  /-- `D9 C8+i`: FXCH ST(i) (R131). -/
  | fxch (i : Fin 8)
  /-- `E8 cd` (R200). -/
  | callRel32 (rel : Word)
  /-- `E9 cd` (R199). -/
  | jmpRel32 (rel : Word)
  /-- `EB cb` (R198). -/
  | jmpRel8 (rel : BitVec 8)
  /-- `F4` (R182). -/
  | hlt
deriving DecidableEq, Repr

/-- Why the decoder has no instruction for some bytes (R118); each is a refusal of the model, not a statement about the chip. -/
inductive DecodeError
  /-- The bytes end inside an instruction. Raised when the next byte cannot be fetched; safe. -/
  | truncated
  /-- A byte sequence outside R117 (R118, R119, R132, R164). Safe: the chip may run it. -/
  | opcodeNotAdmitted
  /-- The operand-size byte 66H before anything but 9C and 9D (R112, R118, D24). Safe. -/
  | prefixNotAdmitted
  /-- A ModRM form that R114 does not admit. Safe. -/
  | modRmNotAdmitted
  /-- `0F 20` or `0F 22` with a mod field other than 11 (R118). Safe. -/
  | controlRegisterModField
  /-- `0F 20` or `0F 22` naming a control register other than 0 and 4 (R118, R164). Safe. -/
  | controlRegisterNotAdmitted
deriving DecidableEq, Repr

/-- The decoder's verdict: an instruction with the bytes after it, or a rejection by name. -/
inductive Decoded
  | ok (i : Instr) (rest : List Byte)
  | bad (e : DecodeError)
deriving DecidableEq, Repr

end Sys2Proof
end

