-- ==== Sys2Proof/WellFormed.lean ====
section
/-! DEFINITION. Which terms of `Instr` stand for an encoding: a memory operand's base register is one of the six that R114
admits. Every other field holds no value outside its encoding, by its type. -/

namespace Sys2Proof

/-- R114: with mod 00 the base may be register 0, 1, 2, 3, 6 or 7; number 4 announces a SIB byte and 5 a displacement. -/
def baseAdmitted : Reg → Bool
  | .esp => false
  | .ebp => false
  | .eax => true
  | .ecx => true
  | .edx => true
  | .ebx => true
  | .esi => true
  | .edi => true

/-- The instruction has an encoding in the opcode table (R114, R117). -/
def Instr.wellFormed : Instr → Bool
  | .addMemReg rm _ => baseAdmitted rm
  | .addRegMem _ rm => baseAdmitted rm
  | .orMemReg rm _ => baseAdmitted rm
  | .orRegMem _ rm => baseAdmitted rm
  | .andMemReg rm _ => baseAdmitted rm
  | .andRegMem _ rm => baseAdmitted rm
  | .subMemReg rm _ => baseAdmitted rm
  | .subRegMem _ rm => baseAdmitted rm
  | .xorMemReg rm _ => baseAdmitted rm
  | .xorRegMem _ rm => baseAdmitted rm
  | .cmpMemReg rm _ => baseAdmitted rm
  | .cmpRegMem _ rm => baseAdmitted rm
  | .testMemReg rm _ => baseAdmitted rm
  | .movMemReg rm _ => baseAdmitted rm
  | .movRegMem _ rm => baseAdmitted rm
  | .addRmReg _ _ => true
  | .addRegRm _ _ => true
  | .addEaxImm _ => true
  | .orRmReg _ _ => true
  | .orRegRm _ _ => true
  | .orEaxImm _ => true
  | .andRmReg _ _ => true
  | .andRegRm _ _ => true
  | .andEaxImm _ => true
  | .subRmReg _ _ => true
  | .subRegRm _ _ => true
  | .subEaxImm _ => true
  | .xorRmReg _ _ => true
  | .xorRegRm _ _ => true
  | .xorEaxImm _ => true
  | .cmpRmReg _ _ => true
  | .cmpRegRm _ _ => true
  | .cmpEaxImm _ => true
  | .testRmReg _ _ => true
  | .movRmReg _ _ => true
  | .movRegRm _ _ => true
  | .movRegImm _ _ => true
  | .movRegCr0 _ => true
  | .movRegCr4 _ => true
  | .movCr4Reg _ => true
  | .movCr0Reg _ => true
  | .wrmsr => true
  | .rdtsc => true
  | .rdmsr => true
  | .cpuid => true
  | .incReg _ => true
  | .decReg _ => true
  | .pushReg _ => true
  | .popReg _ => true
  | .pushf => true
  | .popf => true
  | .jccRel8 _ _ => true
  | .nop => true
  | .pushfd => true
  | .popfd => true
  | .sahf => true
  | .lahf => true
  | .ret => true
  | .iretd => true
  | .fxch _ => true
  | .callRel32 _ => true
  | .jmpRel32 _ => true
  | .jmpRel8 _ => true
  | .hlt => true

end Sys2Proof
end

