-- ==== Sys2Proof/Decode.lean ====
section
/-! DEFINITION. The decoder of R118, total on any bytes and rejecting by name, and after it the encoder that writes the
words of R111 and R117. `decodeTableWord` reads a word numbered as spec/opcode_table.json numbers it. -/

namespace Sys2Proof

/-- The number of a general register (R10, R115). -/
def Reg.num : Reg → BitVec 3
  | .eax => 0#3
  | .ecx => 1#3
  | .edx => 2#3
  | .ebx => 3#3
  | .esp => 4#3
  | .ebp => 5#3
  | .esi => 6#3
  | .edi => 7#3

/-- The general register of a 3-bit field (R115). -/
def Reg.ofNum (n : BitVec 3) : Reg :=
  match n.toNat with
  | 0 => .eax
  | 1 => .ecx
  | 2 => .edx
  | 3 => .ebx
  | 4 => .esp
  | 5 => .ebp
  | 6 => .esi
  | _ => .edi

/-- The code of a condition (R197). -/
def Cond.num : Cond → BitVec 4
  | .o => 0x0#4
  | .no => 0x1#4
  | .b => 0x2#4
  | .ae => 0x3#4
  | .z => 0x4#4
  | .nz => 0x5#4
  | .be => 0x6#4
  | .a => 0x7#4
  | .s => 0x8#4
  | .ns => 0x9#4
  | .p => 0xA#4
  | .np => 0xB#4
  | .l => 0xC#4
  | .ge => 0xD#4
  | .le => 0xE#4
  | .g => 0xF#4

/-- The condition of a 4-bit field (R197). -/
def Cond.ofNum (n : BitVec 4) : Cond :=
  match n.toNat with
  | 0 => .o
  | 1 => .no
  | 2 => .b
  | 3 => .ae
  | 4 => .z
  | 5 => .nz
  | 6 => .be
  | 7 => .a
  | 8 => .s
  | 9 => .ns
  | 10 => .p
  | 11 => .np
  | 12 => .l
  | 13 => .ge
  | 14 => .le
  | _ => .g

/-- `mod`, bits 7:6 of a ModRM byte (R114). -/
def modField (m : Byte) : BitVec 2 := m.extractLsb' 6 2

/-- `reg`, bits 5:3 of a ModRM byte (R114). -/
def regField (m : Byte) : BitVec 3 := m.extractLsb' 3 3

/-- `rm`, bits 2:0 of a ModRM byte, also the register field of an `OP_R` opcode (R111, R114). -/
def rmField (m : Byte) : BitVec 3 := m.extractLsb' 0 3

/-- The rest of an `OP_MODRM` instruction: the register form for mod 11, the memory form for mod 00 with an admitted base,
nothing else (R114). The two forms take `rm` first. -/
def decodeModRm (bs : List Byte) (regForm memForm : Reg → Reg → Instr) : Decoded :=
  match bs with
  | [] => .bad .truncated
  | m :: rest =>
    let rm := Reg.ofNum (rmField m)
    let reg := Reg.ofNum (regField m)
    if modField m = 3#2 then .ok (regForm rm reg) rest
    else if modField m = 0#2 ∧ baseAdmitted rm = true then .ok (memForm rm reg) rest
    else .bad .modRmNotAdmitted

/-- A 4-byte little-endian immediate or displacement (R116). -/
def decodeImm32 (bs : List Byte) (f : Word → Instr) : Decoded :=
  match bs with
  | b1 :: b2 :: b3 :: b4 :: rest => .ok (f (le32 b1 b2 b3 b4)) rest
  | _ => .bad .truncated

/-- A 1-byte displacement (R116). -/
def decodeRel8 (bs : List Byte) (f : BitVec 8 → Instr) : Decoded :=
  match bs with
  | b1 :: rest => .ok (f b1) rest
  | [] => .bad .truncated

/-- After the operand-size byte 66H: only PUSHF and POPF (R112, R118). -/
def decodeAfter66 (bs : List Byte) : Decoded :=
  match bs with
  | [] => .bad .truncated
  | b1 :: rest =>
    if b1 = 0x9C#8 then .ok .pushf rest
    else if b1 = 0x9D#8 then .ok .popf rest
    else .bad .prefixNotAdmitted

/-- The ModRM byte of `0F 20` and `0F 22`: the mod field is tested before the control register number (R118, R164). -/
def decodeControl (bs : List Byte) (cr0Form cr4Form : Reg → Instr) : Decoded :=
  match bs with
  | [] => .bad .truncated
  | m :: rest =>
    let rm := Reg.ofNum (rmField m)
    if modField m = 3#2 then
      if regField m = 0#3 then .ok (cr0Form rm) rest
      else if regField m = 4#3 then .ok (cr4Form rm) rest
      else .bad .controlRegisterNotAdmitted
    else .bad .controlRegisterModField

/-- After the escape byte 0FH (R113, R118). -/
def decodeAfter0F (bs : List Byte) : Decoded :=
  match bs with
  | [] => .bad .truncated
  | b1 :: rest =>
    if b1 = 0x30#8 then .ok .wrmsr rest
    else if b1 = 0x31#8 then .ok .rdtsc rest
    else if b1 = 0x32#8 then .ok .rdmsr rest
    else if b1 = 0xA2#8 then .ok .cpuid rest
    else if b1 = 0x20#8 then decodeControl rest .movRegCr0 .movRegCr4
    else if b1 = 0x22#8 then decodeControl rest .movCr0Reg .movCr4Reg
    else .bad .opcodeNotAdmitted

/-- The stack index `i` of `FP_STI` (R111). -/
def stIndex (b : Byte) : Fin 8 := Fin.ofNat 8 (rmField b).toNat

/-- After the floating-point escape D9H: only FXCH (R113, R118, R132). -/
def decodeAfterD9 (bs : List Byte) : Decoded :=
  match bs with
  | [] => .bad .truncated
  | b1 :: rest =>
    if b1 &&& 0xF8#8 = 0xC8#8 then .ok (.fxch (stIndex b1)) rest
    else .bad .opcodeNotAdmitted

/-- The one-byte rows of the two-operand instructions and of TEST and MOV (R117, R118). -/
def decodeOperate (b0 : Byte) (bs : List Byte) (otherwise : Decoded) : Decoded :=
  if b0 = 0x01#8 then decodeModRm bs .addRmReg .addMemReg
  else if b0 = 0x03#8 then decodeModRm bs (fun rm reg => .addRegRm reg rm) (fun rm reg => .addRegMem reg rm)
  else if b0 = 0x05#8 then decodeImm32 bs .addEaxImm
  else if b0 = 0x09#8 then decodeModRm bs .orRmReg .orMemReg
  else if b0 = 0x0B#8 then decodeModRm bs (fun rm reg => .orRegRm reg rm) (fun rm reg => .orRegMem reg rm)
  else if b0 = 0x0D#8 then decodeImm32 bs .orEaxImm
  else if b0 = 0x21#8 then decodeModRm bs .andRmReg .andMemReg
  else if b0 = 0x23#8 then decodeModRm bs (fun rm reg => .andRegRm reg rm) (fun rm reg => .andRegMem reg rm)
  else if b0 = 0x25#8 then decodeImm32 bs .andEaxImm
  else if b0 = 0x29#8 then decodeModRm bs .subRmReg .subMemReg
  else if b0 = 0x2B#8 then decodeModRm bs (fun rm reg => .subRegRm reg rm) (fun rm reg => .subRegMem reg rm)
  else if b0 = 0x2D#8 then decodeImm32 bs .subEaxImm
  else if b0 = 0x31#8 then decodeModRm bs .xorRmReg .xorMemReg
  else if b0 = 0x33#8 then decodeModRm bs (fun rm reg => .xorRegRm reg rm) (fun rm reg => .xorRegMem reg rm)
  else if b0 = 0x35#8 then decodeImm32 bs .xorEaxImm
  else if b0 = 0x39#8 then decodeModRm bs .cmpRmReg .cmpMemReg
  else if b0 = 0x3B#8 then decodeModRm bs (fun rm reg => .cmpRegRm reg rm) (fun rm reg => .cmpRegMem reg rm)
  else if b0 = 0x3D#8 then decodeImm32 bs .cmpEaxImm
  else if b0 = 0x85#8 then decodeModRm bs .testRmReg .testMemReg
  else if b0 = 0x89#8 then decodeModRm bs .movRmReg .movMemReg
  else if b0 = 0x8B#8 then decodeModRm bs (fun rm reg => .movRegRm reg rm) (fun rm reg => .movRegMem reg rm)
  else otherwise

/-- The remaining one-byte rows (R117, R118). -/
def decodeOneByte (b0 : Byte) (bs : List Byte) : Decoded :=
  let r := Reg.ofNum (rmField b0)
  if b0 &&& 0xF8#8 = 0x40#8 then .ok (.incReg r) bs
  else if b0 &&& 0xF8#8 = 0x48#8 then .ok (.decReg r) bs
  else if b0 &&& 0xF8#8 = 0x50#8 then .ok (.pushReg r) bs
  else if b0 &&& 0xF8#8 = 0x58#8 then .ok (.popReg r) bs
  else if b0 &&& 0xF0#8 = 0x70#8 then decodeRel8 bs (.jccRel8 (Cond.ofNum (b0.extractLsb' 0 4)))
  else if b0 &&& 0xF8#8 = 0xB8#8 then decodeImm32 bs (.movRegImm r)
  else if b0 = 0x90#8 then .ok .nop bs
  else if b0 = 0x9C#8 then .ok .pushfd bs
  else if b0 = 0x9D#8 then .ok .popfd bs
  else if b0 = 0x9E#8 then .ok .sahf bs
  else if b0 = 0x9F#8 then .ok .lahf bs
  else if b0 = 0xC3#8 then .ok .ret bs
  else if b0 = 0xCF#8 then .ok .iretd bs
  else if b0 = 0xE8#8 then decodeImm32 bs .callRel32
  else if b0 = 0xE9#8 then decodeImm32 bs .jmpRel32
  else if b0 = 0xEB#8 then decodeRel8 bs .jmpRel8
  else if b0 = 0xF4#8 then .ok .hlt bs
  else .bad .opcodeNotAdmitted

/-- The decoding procedure of R118 on the bytes from EIP on. -/
def decode (bytes : List Byte) : Decoded :=
  match bytes with
  | [] => .bad .truncated
  | b0 :: bs =>
    if b0 = 0x66#8 then decodeAfter66 bs
    else if b0 = 0x0F#8 then decodeAfter0F bs
    else if b0 = 0xD9#8 then decodeAfterD9 bs
    else decodeOperate b0 bs (decodeOneByte b0 bs)

/-- The ModRM byte with these fields (R114). -/
def modRmByte (mod : BitVec 2) (reg rm : Reg) : Byte := mod ++ reg.num ++ rm.num

/-- An opcode byte whose low three bits are a register number: base + r (R111). -/
def opcodeReg (base : Byte) (r : Reg) : Byte := base ||| (0#5 ++ r.num)

/-- The four bytes of a 32-bit immediate or displacement, least significant first (R116). -/
def imm32Bytes (v : Word) : List Byte := [byteOf v 0, byteOf v 1, byteOf v 2, byteOf v 3]

/-- The bytes of an instruction in increasing address order, from the encodings of R111 and R117. -/
def encode : Instr → List Byte
  | .addRmReg rm reg => [0x01#8, modRmByte 3#2 reg rm]
  | .addMemReg rm reg => [0x01#8, modRmByte 0#2 reg rm]
  | .addRegRm reg rm => [0x03#8, modRmByte 3#2 reg rm]
  | .addRegMem reg rm => [0x03#8, modRmByte 0#2 reg rm]
  | .addEaxImm imm => 0x05#8 :: imm32Bytes imm
  | .orRmReg rm reg => [0x09#8, modRmByte 3#2 reg rm]
  | .orMemReg rm reg => [0x09#8, modRmByte 0#2 reg rm]
  | .orRegRm reg rm => [0x0B#8, modRmByte 3#2 reg rm]
  | .orRegMem reg rm => [0x0B#8, modRmByte 0#2 reg rm]
  | .orEaxImm imm => 0x0D#8 :: imm32Bytes imm
  | .andRmReg rm reg => [0x21#8, modRmByte 3#2 reg rm]
  | .andMemReg rm reg => [0x21#8, modRmByte 0#2 reg rm]
  | .andRegRm reg rm => [0x23#8, modRmByte 3#2 reg rm]
  | .andRegMem reg rm => [0x23#8, modRmByte 0#2 reg rm]
  | .andEaxImm imm => 0x25#8 :: imm32Bytes imm
  | .subRmReg rm reg => [0x29#8, modRmByte 3#2 reg rm]
  | .subMemReg rm reg => [0x29#8, modRmByte 0#2 reg rm]
  | .subRegRm reg rm => [0x2B#8, modRmByte 3#2 reg rm]
  | .subRegMem reg rm => [0x2B#8, modRmByte 0#2 reg rm]
  | .subEaxImm imm => 0x2D#8 :: imm32Bytes imm
  | .xorRmReg rm reg => [0x31#8, modRmByte 3#2 reg rm]
  | .xorMemReg rm reg => [0x31#8, modRmByte 0#2 reg rm]
  | .xorRegRm reg rm => [0x33#8, modRmByte 3#2 reg rm]
  | .xorRegMem reg rm => [0x33#8, modRmByte 0#2 reg rm]
  | .xorEaxImm imm => 0x35#8 :: imm32Bytes imm
  | .cmpRmReg rm reg => [0x39#8, modRmByte 3#2 reg rm]
  | .cmpMemReg rm reg => [0x39#8, modRmByte 0#2 reg rm]
  | .cmpRegRm reg rm => [0x3B#8, modRmByte 3#2 reg rm]
  | .cmpRegMem reg rm => [0x3B#8, modRmByte 0#2 reg rm]
  | .cmpEaxImm imm => 0x3D#8 :: imm32Bytes imm
  | .movRegCr0 rm => [0x0F#8, 0x20#8, 0xC0#8 ||| (0#5 ++ rm.num)]
  | .movRegCr4 rm => [0x0F#8, 0x20#8, 0xE0#8 ||| (0#5 ++ rm.num)]
  | .movCr4Reg rm => [0x0F#8, 0x22#8, 0xE0#8 ||| (0#5 ++ rm.num)]
  | .movCr0Reg rm => [0x0F#8, 0x22#8, 0xC0#8 ||| (0#5 ++ rm.num)]
  | .wrmsr => [0x0F#8, 0x30#8]
  | .rdtsc => [0x0F#8, 0x31#8]
  | .rdmsr => [0x0F#8, 0x32#8]
  | .cpuid => [0x0F#8, 0xA2#8]
  | .incReg r => [opcodeReg 0x40#8 r]
  | .decReg r => [opcodeReg 0x48#8 r]
  | .pushReg r => [opcodeReg 0x50#8 r]
  | .popReg r => [opcodeReg 0x58#8 r]
  | .pushf => [0x66#8, 0x9C#8]
  | .popf => [0x66#8, 0x9D#8]
  | .jccRel8 cc rel => [0x70#8 ||| (0#4 ++ cc.num), rel]
  | .testRmReg rm reg => [0x85#8, modRmByte 3#2 reg rm]
  | .testMemReg rm reg => [0x85#8, modRmByte 0#2 reg rm]
  | .movRmReg rm reg => [0x89#8, modRmByte 3#2 reg rm]
  | .movMemReg rm reg => [0x89#8, modRmByte 0#2 reg rm]
  | .movRegRm reg rm => [0x8B#8, modRmByte 3#2 reg rm]
  | .movRegMem reg rm => [0x8B#8, modRmByte 0#2 reg rm]
  | .nop => [0x90#8]
  | .pushfd => [0x9C#8]
  | .popfd => [0x9D#8]
  | .sahf => [0x9E#8]
  | .lahf => [0x9F#8]
  | .movRegImm r imm => opcodeReg 0xB8#8 r :: imm32Bytes imm
  | .ret => [0xC3#8]
  | .iretd => [0xCF#8]
  | .fxch i => [0xD9#8, 0xC8#8 ||| BitVec.ofNat 8 i.val]
  | .callRel32 rel => 0xE8#8 :: imm32Bytes rel
  | .jmpRel32 rel => 0xE9#8 :: imm32Bytes rel
  | .jmpRel8 rel => [0xEB#8, rel]
  | .hlt => [0xF4#8]

/-- The total length in bytes of an instruction (R111, the `length` column of the opcode table). -/
def Instr.length : Instr → Nat
  | .addRmReg _ _ => 2
  | .addMemReg _ _ => 2
  | .addRegRm _ _ => 2
  | .addRegMem _ _ => 2
  | .addEaxImm _ => 5
  | .orRmReg _ _ => 2
  | .orMemReg _ _ => 2
  | .orRegRm _ _ => 2
  | .orRegMem _ _ => 2
  | .orEaxImm _ => 5
  | .andRmReg _ _ => 2
  | .andMemReg _ _ => 2
  | .andRegRm _ _ => 2
  | .andRegMem _ _ => 2
  | .andEaxImm _ => 5
  | .subRmReg _ _ => 2
  | .subMemReg _ _ => 2
  | .subRegRm _ _ => 2
  | .subRegMem _ _ => 2
  | .subEaxImm _ => 5
  | .xorRmReg _ _ => 2
  | .xorMemReg _ _ => 2
  | .xorRegRm _ _ => 2
  | .xorRegMem _ _ => 2
  | .xorEaxImm _ => 5
  | .cmpRmReg _ _ => 2
  | .cmpMemReg _ _ => 2
  | .cmpRegRm _ _ => 2
  | .cmpRegMem _ _ => 2
  | .cmpEaxImm _ => 5
  | .movRegCr0 _ => 3
  | .movRegCr4 _ => 3
  | .movCr4Reg _ => 3
  | .movCr0Reg _ => 3
  | .wrmsr => 2
  | .rdtsc => 2
  | .rdmsr => 2
  | .cpuid => 2
  | .incReg _ => 1
  | .decReg _ => 1
  | .pushReg _ => 1
  | .popReg _ => 1
  | .pushf => 2
  | .popf => 2
  | .jccRel8 _ _ => 2
  | .testRmReg _ _ => 2
  | .testMemReg _ _ => 2
  | .movRmReg _ _ => 2
  | .movMemReg _ _ => 2
  | .movRegRm _ _ => 2
  | .movRegMem _ _ => 2
  | .nop => 1
  | .pushfd => 1
  | .popfd => 1
  | .sahf => 1
  | .lahf => 1
  | .movRegImm _ _ => 5
  | .ret => 1
  | .iretd => 1
  | .fxch _ => 2
  | .callRel32 _ => 5
  | .jmpRel32 _ => 5
  | .jmpRel8 _ => 2
  | .hlt => 1

/-- How many bytes the fetch offers the decoder: R111 gives 1 to 6 bytes in this subset. -/
def fetchLength : Nat := 6

/-- The bytes of a table word in increasing address order: the table numbers the first byte most significant (R121, log 6);
every byte past `nbits` is 0. -/
def tableBytes (nbits w : Nat) : List Byte :=
  let n := (nbits + 7) / 8
  (List.range n).map (fun k => BitVec.ofNat 8 (w >>> (8 * (n - 1 - k)))) ++ List.replicate fetchLength 0#8

/-- The instruction the decoder reads from the bytes of a table word. -/
def decodeTableWord (nbits w : Nat) : Option Instr :=
  match decode (tableBytes nbits w) with
  | .ok i _ => some i
  | .bad _ => none

end Sys2Proof
end

