-- ==== Sys2Proof/Machine/State.lean ====
section
/-! DEFINITION. The state of the machine as plain data, the ways a step can stop, and the state right after reset. -/

namespace Sys2Proof.Machine

/-- The eight general registers (R10). -/
structure Regs where
  eax : Word
  ecx : Word
  edx : Word
  ebx : Word
  esp : Word
  ebp : Word
  esi : Word
  edi : Word
deriving DecidableEq, Repr

/-- The floating-point state that FXCH needs (R47): the eight physical data registers, control, status and tag word. -/
structure Fpu where
  fpr : Vector (BitVec 80) 8
  fcw : Half
  fsw : Half
  ftw : Half
deriving DecidableEq, Repr

/-- The debug registers (R43): the four breakpoint addresses DR0 to DR3, and DR6 and DR7. `code0` to `code3` are the MODEL's
own: whether each address register is programmed as a code breakpoint (the source gives no format for that, N11; log 10). -/
structure DebugRegs where
  dr0 : Word
  dr1 : Word
  dr2 : Word
  dr3 : Word
  dr6 : Word
  dr7 : Word
  code0 : Bool
  code1 : Bool
  code2 : Bool
  code3 : Bool
deriving DecidableEq, Repr

/-- Requests latched from pins and not yet taken (R50, R231 to R234); no instruction sets one (log 27). `flush` counts: FLUSH#
is edge-triggered and latches one request per falling edge (R105, R231). -/
structure Inputs where
  flush : Nat
  init : Bool
  smi : Bool
  rs : Bool
deriving DecidableEq, Repr

/-- What a region of the address map holds: `MEM.code` is fetched and read, `MEM.data` read and written (R64, R7). -/
inductive RegionKind
  | code
  | data
deriving DecidableEq, Repr

/-- The addresses `base`, …, `base + size - 1` of the map `MEM` (R64). -/
structure Region where
  base : Nat
  size : Nat
  kind : RegionKind
deriving DecidableEq, Repr

/-- Memory: the bytes that differ from what an unlisted address reads as, addresses strictly rising. -/
abbrev Memory := List Host.Cell

/-- The whole state of the processor and its memory. INVENTORY.md gives each field's rule and reset value. -/
structure State where
  regs : Regs
  /-- Address of the instruction's first byte (R12). -/
  eip : Word
  /-- EFLAGS as the register is numbered (R14); written only through `State.setEflags`, which keeps its fixed bits. -/
  eflags : Word
  /-- CR0, constant for a run: `CR0_LAUNCH` (R26, D21). Read through `State.cr0Image`, which keeps ET at 1. -/
  cr0 : Word
  cr4 : Word
  /-- `CS_SEL`, whose bits 1:0 are the current privilege level, constant for a run (R48, D22). -/
  csSel : Half
  fpu : Fpu
  dregs : DebugRegs
  mem : Memory
  /-- The map `MEM`: an address belongs to the first region that holds it, so the code and data parts are disjoint (R64). -/
  map : List Region
  inputs : Inputs
  /-- The MODEL's own: HLT has run, which is the successful end of a run (R182, R280; log 26). -/
  halted : Bool
  /-- The MODEL's own: how many free values the environment has been asked for (log 19). -/
  draws : Nat
deriving DecidableEq, Repr

/-- The exceptions of R220 and R227. What is raised ends the run (R240), which is safe: the chip would enter a handler. -/
inductive Exception
  /-- Never raised by this model: an encoding outside the table is refused instead (R221, R119). Safe. -/
  | undefinedOpcode
  /-- Raised by RDTSC under CR4.TSD, by a write to a reserved bit of CR4, and by MOV to or from a control register, RDMSR,
  WRMSR and HLT at a privilege level other than 0 (R222). Safe. -/
  | generalProtection
  /-- Raised by a misaligned data access of any instruction when checking is active (R223, R65). Safe. -/
  | alignmentCheck
  /-- Never raised by this model: no bus or parity error occurs (R224, D26; log 28). -/
  | machineCheck
  /-- Raised by the step before it decodes, when a debug register programmed for it holds EIP and RF = 0 (R225, R19). Safe. -/
  | codeBreakpoint
  /-- Never raised by this model: it admits no I/O instruction (R226). -/
  | ioBreakpoint
  /-- Raised by FXCH when CR0.EM = 1 or CR0.TS = 1 (R227). Safe. -/
  | deviceNotAvailable
deriving DecidableEq, Repr

/-- How a run ends in a fault (R240). -/
inductive Fault
  /-- `Fault(X, code, EIP)` of R240: the exception, its error code if it has one, and the address of the faulting instruction;
  with it the image of EFLAGS that delivering the exception stores on the stack (R239). Raised by `raise` of Machine/Ops.lean
  for every meaning, and by the step for a code breakpoint. The state is that before the instruction (R229). Safe: the chip
  goes on into a handler, the model stops. -/
  | exception (x : Exception) (code : Option Word) (eip : Word) (image : Word)
deriving DecidableEq, Repr

/-- The `reason` of `Refused(reason, EIP)` (R280 item 3): why the model has no meaning for a step. Every one is safe: the model
says nothing of what the chip does next. -/
inductive RefusalReason
  /-- Raised by the fetch: the decoder admits no instruction here (R118). -/
  | undecodable (e : DecodeError)
  /-- Raised by a memory access or a fetch that would pass address 2^32 - 1, by IRETD, and by the step when EIP would wrap
  past 2^32 (R66, R12, R147, R280, D27). -/
  | addressWrap
  /-- Raised by a data read outside the map (R66). -/
  | unmappedRead
  /-- Raised by a data write outside `MEM.data` (R66). -/
  | unmappedOrCodeWrite
  /-- Raised by the fetch outside `MEM.code` (R66). -/
  | unmappedFetch
  /-- Raised by PUSHF, PUSHFD, POPF, POPFD and IRETD when CR4.VME = 1 or CR4.PVI = 1 (R140, D15). -/
  | virtualInterruptsNotAdmitted
  /-- Raised by every step while EFLAGS.TF = 1, and by the instructions of R140 (R22, R140, D16). -/
  | singleStepNotAdmitted
  /-- Raised by IRETD when EFLAGS.NT = 1 (R147, D18). -/
  | taskReturnNotAdmitted
  /-- Raised by IRETD at CPL 0 when the image has VM = 1 (R147, D18). -/
  | returnToVirtual8086NotAdmitted
  /-- Raised by IRETD when the popped selector is not `CS_SEL` (R147, D18). -/
  | farReturnNotAdmitted
  /-- Raised by MOV CR0, r32 always (R163, D21). -/
  | cr0WriteNotAdmitted
  /-- Raised by RDMSR and WRMSR on an index that Table 1 reserves or does not list (R172). -/
  | reservedOrAbsentMsr
  /-- Raised by WRMSR on a defined index other than 10H (R171, D13). -/
  | msrWriteNotAdmitted
  /-- Raised by FXCH when FSW.ES = 1 (R131, D20). -/
  | pendingFloatingPointException
  /-- Raised by FXCH when one of its registers is tagged empty (R131, D20). -/
  | floatingPointStackUnderflow
  /-- Raised by every step while CR0.PE = 0 (D2, scope table: real mode). -/
  | realModeNotAdmitted
  /-- Raised by every step while CR0.PG = 1 (R71, D2, scope table: paging). -/
  | pagingNotAdmitted
  /-- Raised by every step while EFLAGS.VM = 1 (R22, D2, scope table: virtual-8086 mode). -/
  | virtual8086NotAdmitted
  /-- Raised by the step when R/S# asks for probe mode (R234, R252, scope table). -/
  | probeModeNotAdmitted
  /-- Raised by the step when SMI# asks for system management mode (R232, scope table). -/
  | systemManagementModeNotAdmitted
deriving DecidableEq, Repr

/-- How a step is refused (`refuse` of the notation table, R280 item 3). -/
inductive Refusal
  /-- An arm of `exec` whose instruction has no meaning yet. No arm uses it. Safe. -/
  | notModelled (mnemonic : String)
  /-- `Refused(reason, EIP)` of R280: raised by `refuse` of Machine/Ops.lean, with the address of the instruction at which the
  step stopped. Safe: the model says nothing of what the chip does next. -/
  | because (reason : RefusalReason) (eip : Word)
deriving DecidableEq, Repr

/-- The outcome of an operation that answers a value, raises or refuses. -/
abbrev Res (α : Type) := Host.Outcome α Fault Refusal

/-- The machine right after reset (R52, R270): EFLAGS and CR4 as the source states them (R23, R36), the other registers at
the family's values (log 1), the rest as logs 2, 3, 4, 10, 19, 26 and 27 say. -/
def State.reset : State where
  regs := { eax := 0, ecx := 0, edx := 0x00000500, ebx := 0, esp := 0, ebp := 0, esi := 0, edi := 0 }
  eip := 0x0000FFF0
  eflags := 0x00000002
  cr0 := 0x60000010
  cr4 := 0
  csSel := 0xF000
  fpu := { fpr := Vector.replicate 8 0, fcw := 0x0040, fsw := 0, ftw := 0xFFFF }
  dregs :=
    { dr0 := 0, dr1 := 0, dr2 := 0, dr3 := 0, dr6 := 0xFFFF0FF0, dr7 := 0x00000400,
      code0 := false, code1 := false, code2 := false, code3 := false }
  mem := []
  map := [{ base := 0, size := 4294967296, kind := .data }]
  inputs := { flush := 0, init := false, smi := false, rs := false }
  halted := false
  draws := 0

end Sys2Proof.Machine
end

