-- ==== Sys2Proof/Machine/Flags.lean ====
section
/-! DEFINITION. The fields of EFLAGS, CR0 and CR4, the fixed bits of EFLAGS, the flag functions of R180, and the conditions
of Jcc. -/

namespace Sys2Proof.Machine

/-- The single-bit fields of EFLAGS that R14 names. -/
inductive Flag
  | cf | pf | af | zf | sf | tf | if_ | df | of | nt | rf | vm | ac | vif | vip | id
deriving DecidableEq, Repr

/-- The position of a flag (R14). -/
def Flag.pos : Flag → Nat
  | .cf => 0
  | .pf => 2
  | .af => 4
  | .zf => 6
  | .sf => 7
  | .tf => 8
  | .if_ => 9
  | .df => 10
  | .of => 11
  | .nt => 14
  | .rf => 16
  | .vm => 17
  | .ac => 18
  | .vif => 19
  | .vip => 20
  | .id => 21

/-- `EFLAGS_FIXED0` of R15: the bits that are always 0. -/
def eflagsFixed0 : Word := 0xFFC08028

/-- `EFLAGS_FIXED1` of R15: the bit that is always 1. -/
def eflagsFixed1 : Word := 0x00000002

/-- A value as EFLAGS holds and delivers it: the reserved bits are constants of the register (R15, D14). -/
def hardwireEflags (v : Word) : Word := (v &&& ~~~eflagsFixed0) ||| eflagsFixed1

/-- A flag of an EFLAGS value. -/
def getFlag (e : Word) (f : Flag) : Bool := e.getLsbD f.pos

/-- An EFLAGS value with one flag replaced. -/
def setFlag (f : Flag) (b : Bool) (e : Word) : Word := setBit e f.pos b

/-- IOPL, bits 13:12 of EFLAGS (R14). -/
def ioplOf (e : Word) : BitVec 2 := e.extractLsb' 12 2

/-- `SetSZP(r)` of R180. -/
def setSZP (r : Word) (e : Word) : Word :=
  setFlag .pf (parity8 r) (setFlag .zf (decide (r = 0#32)) (setFlag .sf (r.getLsbD 31) e))

/-- `FlagsAdd(a, b, r)` of R180. -/
def flagsAdd (a b r : Word) (e : Word) : Word :=
  setSZP r
    (setFlag .af ((a ^^^ b ^^^ r).getLsbD 4)
      (setFlag .of (decide (a.getLsbD 31 = b.getLsbD 31 ∧ r.getLsbD 31 ≠ a.getLsbD 31))
        (setFlag .cf (decide (a.toNat + b.toNat ≥ 2 ^ 32)) e)))

/-- `FlagsSub(a, b, r)` of R180. -/
def flagsSub (a b r : Word) (e : Word) : Word :=
  setSZP r
    (setFlag .af ((a ^^^ b ^^^ r).getLsbD 4)
      (setFlag .of (decide (a.getLsbD 31 ≠ b.getLsbD 31 ∧ r.getLsbD 31 ≠ a.getLsbD 31))
        (setFlag .cf (decide (a.toNat < b.toNat)) e)))

/-- `FlagsLogic(r)` of R180; `af` is the free value that AF takes (U7, D19). -/
def flagsLogic (r : Word) (af : Bool) (e : Word) : Word :=
  setFlag .af af (setSZP r (setFlag .of false (setFlag .cf false e)))

/-- The flags of INC for the operand `a` and the result `r`; CF is kept (R195). -/
def flagsInc (a r : Word) (e : Word) : Word :=
  setSZP r (setFlag .af (decide (a.extractLsb' 0 4 = 0xF#4)) (setFlag .of (decide (a = 0x7FFFFFFF#32)) e))

/-- The flags of DEC for the operand `a` and the result `r`; CF is kept (R196). -/
def flagsDec (a r : Word) (e : Word) : Word :=
  setSZP r (setFlag .af (decide (a.extractLsb' 0 4 = 0x0#4)) (setFlag .of (decide (a = 0x80000000#32)) e))

/-- OF, SF, ZF, AF, PF, CF each replaced by a value of its own, in that order (R160 to R162). -/
def setStatus (vOf vSf vZf vAf vPf vCf : Bool) (e : Word) : Word :=
  setFlag .cf vCf (setFlag .pf vPf (setFlag .af vAf (setFlag .zf vZf (setFlag .sf vSf (setFlag .of vOf e)))))

/-- `Cond(cc)` of R197 on an EFLAGS value. -/
def condHolds (cc : Cond) (e : Word) : Bool :=
  match cc with
  | .o => getFlag e .of
  | .no => !getFlag e .of
  | .b => getFlag e .cf
  | .ae => !getFlag e .cf
  | .z => getFlag e .zf
  | .nz => !getFlag e .zf
  | .be => getFlag e .cf || getFlag e .zf
  | .a => !getFlag e .cf && !getFlag e .zf
  | .s => getFlag e .sf
  | .ns => !getFlag e .sf
  | .p => getFlag e .pf
  | .np => !getFlag e .pf
  | .l => getFlag e .sf != getFlag e .of
  | .ge => getFlag e .sf == getFlag e .of
  | .le => getFlag e .zf || getFlag e .sf != getFlag e .of
  | .g => !getFlag e .zf && getFlag e .sf == getFlag e .of

/-- The bits POPF and POPFD write at any privilege level: `M_USER16` and `M_USER32` (41, table of masks). -/
def maskUser16 : Half := 0x4DD5
/-- `M_USER32`. -/
def maskUser32 : Word := 0x00244DD5
/-- `M_RF`. -/
def maskRf : Word := 0x00010000
/-- `M_IF`. -/
def maskIf : Word := 0x00000200
/-- `M_IOPL`. -/
def maskIopl : Word := 0x00003000
/-- `M_PUSHFD`: everything except VM and RF among bits 23:0. -/
def maskPushfd : Word := 0x00FCFFFF

/-- What POPF, POPFD and IRETD may write besides `M_USER32`: IF when CPL ≤ IOPL, IOPL when CPL = 0 (R145 to R147). At CPL 0
both, since 0 ≤ IOPL. -/
def maskPrivileged (cpl iopl : BitVec 2) : Word :=
  (if cpl ≤ iopl then maskIf else 0#32) ||| (if cpl = 0#2 then maskIopl else 0#32)

/-- The bits of CR0 that rules read (R26). -/
def cr0Pe (v : Word) : Bool := v.getLsbD 0
/-- CR0.EM (R26). -/
def cr0Em (v : Word) : Bool := v.getLsbD 2
/-- CR0.TS (R26). -/
def cr0Ts (v : Word) : Bool := v.getLsbD 3
/-- CR0.ET (R26). -/
def cr0Et (v : Word) : Bool := v.getLsbD 4
/-- CR0.AM (R26). -/
def cr0Am (v : Word) : Bool := v.getLsbD 18
/-- CR0.PG (R26). -/
def cr0Pg (v : Word) : Bool := v.getLsbD 31

/-- The bit of CR0 that reads 1: ET (R26). -/
def cr0Fixed1 : Word := 0x00000010

/-- A value as CR0 delivers it: ET reads 1 (R26). -/
def hardwireCr0 (v : Word) : Word := v ||| cr0Fixed1

/-- CR4.VME (R29). -/
def cr4Vme (v : Word) : Bool := v.getLsbD 0
/-- CR4.PVI (R30). -/
def cr4Pvi (v : Word) : Bool := v.getLsbD 1
/-- CR4.TSD (R31). -/
def cr4Tsd (v : Word) : Bool := v.getLsbD 2

/-- `CR4_RESERVED` of R28. -/
def cr4Reserved : Word := 0xFFFFFF80

/-- TOP, bits 13:11 of the floating-point status word (R47). -/
def fswTop (v : Half) : BitVec 3 := v.extractLsb' 11 3

/-- ES, bit 7 of the floating-point status word (R47). -/
def fswEs (v : Half) : Bool := v.getLsbD 7

/-- The physical register of `ST(i)`: `(TOP + i) mod 8` (R47). -/
def physReg (fsw : Half) (i : Fin 8) : Fin 8 := Fin.ofNat 8 ((fswTop fsw).toNat + i.val)

/-- The 2-bit tag of physical register `p` in the tag word: bits 2p+1:2p, a position that R47 does not give. PRESUMED, the
family's layout (log 41). -/
def tagOf (ftw : Half) (p : Fin 8) : BitVec 2 := ftw.extractLsb' (2 * p.val) 2

/-- The tag word with the tag of `p`, bits 2p+1:2p (PRESUMED, log 41), replaced (R47). -/
def setTag (ftw : Half) (p : Fin 8) (t : BitVec 2) : Half :=
  setBit (setBit ftw (2 * p.val) (t.getLsbD 0)) (2 * p.val + 1) (t.getLsbD 1)

/-- The tag that marks an empty register (R47). -/
def tagEmpty : BitVec 2 := 3#2

/-- C1 cleared and C0, C2, C3 replaced in the floating-point status word (R131, U8). -/
def setConditionCodes (c0 c2 c3 : Bool) (fsw : Half) : Half :=
  setBit (setBit (setBit (setBit fsw 9 false) 8 c0) 10 c2) 14 c3

end Sys2Proof.Machine
end

