-- ==== Sys2Proof/Config.lean ====
section
/-! DEFINITION. What the spec leaves open and what an implementation fixes. The constants without a body are free values:
nothing in Lean can evaluate them, so a statement that is proved holds whatever they are. -/

namespace Sys2Proof

/-- What CPUID leaves in the four registers it writes (R148). -/
structure CpuidResult where
  eax : Word
  ebx : Word
  ecx : Word
  edx : Word
deriving DecidableEq, Repr, Inhabited

/-- `draw_1()` of the spec's notation: the k-th one-bit value that the environment chooses, under no law.
UNSAFE only in that one draw is one bit for ever; fresh draws use fresh numbers (log 19). -/
opaque Config.draw1 : Nat → Bool

/-- `draw_64()` of the spec's notation: the k-th 64-bit value that the environment chooses, under no law (R41, R42, R165, R170). -/
opaque Config.draw64 : Nat → BitVec 64

/-- `CPUID_FN` of R7: the open parameter from the 32-bit input in EAX to the four outputs; total on every input (U9, D12). -/
opaque Config.cpuid : Word → CpuidResult

/-- `ADDR_BUS_BITS` of R6: the P5 implements a 36-bit physical address (R61, 90_conflicts.md C8). -/
def Config.addrBusBits : Nat := 36

/-- One past the highest 32-bit linear address; with paging off a physical address is the linear address, zero-extended
to `Config.addrBusBits` bits, so a run reaches physical addresses below this bound only (R61, R66). -/
def Config.addrSpace : Nat := 4294967296

end Sys2Proof
end

