-- ==== Sys2Proof/Machine/Memory.lean ====
section
/-! DEFINITION. Memory in its canonical form, the map `MEM`, and the reads and writes of bytes from which every wider access
is built, little-endian (R62 to R66). -/

namespace Sys2Proof.Machine

/-- What an address that memory does not list reads as. DESIGN CHOICE, unsafe: the spec leaves the contents of `MEM.data` at
launch free (R274); the model takes 00H (log 4). -/
def Memory.unlisted : Byte := 0#8

/-- Every listed address is above `bound` or, for `none`, unrestricted. -/
def Memory.above (bound : Option Nat) (a : Nat) : Bool :=
  match bound with
  | none => true
  | some b => decide (b < a)

/-- The canonical form past `bound`: addresses strictly rising, no entry equal to what an unlisted address reads as. -/
def Memory.wfFrom (bound : Option Nat) : Memory → Bool
  | [] => true
  | (a, b) :: rest => Memory.above bound a && b != Memory.unlisted && Memory.wfFrom (some a) rest

/-- The canonical form of memory. -/
def Memory.wf (m : Memory) : Bool := Memory.wfFrom none m

/-- The byte at an address. -/
def Memory.readByte (m : Memory) (a : Nat) : Byte :=
  match m with
  | [] => Memory.unlisted
  | (a', b') :: rest => if a = a' then b' else if a < a' then Memory.unlisted else Memory.readByte rest a

/-- An entry put in front, unless it says what an unlisted address reads as. -/
def Memory.cons (a : Nat) (b : Byte) (rest : Memory) : Memory :=
  if b = Memory.unlisted then rest else (a, b) :: rest

/-- Memory with one byte replaced; it keeps the canonical form. -/
def Memory.writeByte (m : Memory) (a : Nat) (b : Byte) : Memory :=
  match m with
  | [] => Memory.cons a b []
  | (a', b') :: rest =>
    if a < a' then Memory.cons a b ((a', b') :: rest)
    else if a = a' then Memory.cons a b rest
    else (a', b') :: Memory.writeByte rest a b

/-- Bytes stored at consecutive addresses from `a` on, the first at `a`. -/
def Memory.writeBytes (m : Memory) (a : Nat) (bs : List Byte) : Memory :=
  match bs with
  | [] => m
  | b :: rest => Memory.writeBytes (Memory.writeByte m a b) (a + 1) rest

/-- Two bytes from `a` on, little-endian (R62, R66). -/
def Memory.read16 (m : Memory) (a : Nat) : Half :=
  le16 (Memory.readByte m a) (Memory.readByte m (a + 1))

/-- Four bytes from `a` on, little-endian (R62, R66). -/
def Memory.read32 (m : Memory) (a : Nat) : Word :=
  le32 (Memory.readByte m a) (Memory.readByte m (a + 1)) (Memory.readByte m (a + 2)) (Memory.readByte m (a + 3))

/-- The 16-bit value stored little-endian at `a` (R66). -/
def Memory.write16 (m : Memory) (a : Nat) (v : Half) : Memory :=
  Memory.writeBytes m a [v.extractLsb' 0 8, v.extractLsb' 8 8]

/-- The 32-bit value stored little-endian at `a` (R66). -/
def Memory.write32 (m : Memory) (a : Nat) (v : Word) : Memory :=
  Memory.writeBytes m a [byteOf v 0, byteOf v 1, byteOf v 2, byteOf v 3]

/-- The region holds the address. -/
def Region.holds (r : Region) (a : Nat) : Bool := decide (r.base ≤ a) && decide (a < r.base + r.size)

/-- Which part of `MEM` an address belongs to: the first region that holds it decides, so no address is in both (R64). -/
def kindAt (map : List Region) (a : Nat) : Option RegionKind :=
  match map with
  | [] => none
  | r :: rest => if r.holds a then some r.kind else kindAt rest a

/-- The address is in `MEM.code` (R64). -/
def inCode (map : List Region) (a : Nat) : Bool := kindAt map a == some .code

/-- The address is in `MEM.data` (R64). -/
def inData (map : List Region) (a : Nat) : Bool := kindAt map a == some .data

/-- The address is in `MEM.code ∪ MEM.data`: it may be read (R66). -/
def mapped (map : List Region) (a : Nat) : Bool := (kindAt map a).isSome

/-- The `n` addresses from `a` on satisfy `p`. -/
def allFrom (p : Nat → Bool) (a : Nat) : Nat → Bool
  | 0 => true
  | n + 1 => p a && allFrom p (a + 1) n

end Sys2Proof.Machine
end

