-- ==== Sys2Proof/Machine/Ops.lean ====
section
/-! DEFINITION. The operations that the meanings share: registers, EFLAGS, free values, raising an exception, memory accesses
with their checks, the stack, completing an instruction, and returning from an exception. -/

namespace Sys2Proof.Machine

/-- The next operation, when the one before it answered a value; a fault or a refusal ends both. -/
def andThen {α β : Type} (x : Res α) (f : α → Res β) : Res β :=
  match x with
  | .next a => f a
  | .fault r => .fault r
  | .refused r => .refused r

/-- `x[i]` (R10). -/
def Regs.get (r : Regs) (i : Reg) : Word :=
  match i with
  | .eax => r.eax
  | .ecx => r.ecx
  | .edx => r.edx
  | .ebx => r.ebx
  | .esp => r.esp
  | .ebp => r.ebp
  | .esi => r.esi
  | .edi => r.edi

/-- `x[i] <- v` (R10): none of the registers is hardwired. -/
def Regs.set (r : Regs) (i : Reg) (v : Word) : Regs :=
  match i with
  | .eax => { r with eax := v }
  | .ecx => { r with ecx := v }
  | .edx => { r with edx := v }
  | .ebx => { r with ebx := v }
  | .esp => { r with esp := v }
  | .ebp => { r with ebp := v }
  | .esi => { r with esi := v }
  | .edi => { r with edi := v }

/-- The value of a general register. -/
def State.reg (s : State) (i : Reg) : Word := s.regs.get i

/-- The state with one general register replaced. -/
def State.setReg (s : State) (i : Reg) (v : Word) : State := { s with regs := s.regs.set i v }

/-- The image of EFLAGS that an instruction reads: the reserved bits are constants of the register (R15, D14; log 31). -/
def State.flagsImage (s : State) : Word := hardwireEflags s.eflags

/-- The one write of EFLAGS: the reserved bits keep their constants whatever is written (R15, D14; log 31). -/
def State.setEflags (s : State) (v : Word) : State := { s with eflags := hardwireEflags v }

/-- CR0 as an instruction reads it: ET is 1 (R26). -/
def State.cr0Image (s : State) : Word := hardwireCr0 s.cr0

/-- The current privilege level, bits 1:0 of the CS selector (R48, R245). -/
def State.cpl (s : State) : BitVec 2 := s.csSel.extractLsb' 0 2

/-- `EFLAGS.IOPL` (R14). -/
def State.iopl (s : State) : BitVec 2 := ioplOf s.eflags

/-- The k-th fresh `draw_1()` from this state on. -/
def State.draw1 (s : State) (k : Nat) : Bool := Config.draw1 (s.draws + k)

/-- The next `draw_64()`. -/
def State.draw64 (s : State) : BitVec 64 := Config.draw64 s.draws

/-- `n` free values have been used. -/
def State.spend (s : State) (n : Nat) : State := { s with draws := s.draws + n }

/-! ### Raising an exception -/

/-- The vector commonly documented for an exception (R228, for orientation: no rule of the model uses it). -/
def exceptionVector : Exception → Nat
  | .codeBreakpoint => 1
  | .ioBreakpoint => 1
  | .undefinedOpcode => 6
  | .deviceNotAvailable => 7
  | .generalProtection => 13
  | .alignmentCheck => 17
  | .machineCheck => 18

/-- The error code of an exception: 0 for general protection and alignment check, none for the others (R222, R223, R228). -/
def exceptionCode : Exception → Option Word
  | .generalProtection => some 0#32
  | .alignmentCheck => some 0#32
  | .codeBreakpoint => none
  | .ioBreakpoint => none
  | .undefinedOpcode => none
  | .deviceNotAvailable => none
  | .machineCheck => none

/-- The image of EFLAGS that delivering an exception stores on the stack: the reserved bits at their constants, and RF = 1
unless the exception is the code breakpoint itself (R239, R15, R19; log 9). R239 and R19 speak of faults only: that RF = 1
also in the image of an abort (machine check) and of a trap (I/O breakpoint), which the model never raises, is a DESIGN
CHOICE (log 42). -/
def exceptionImage (x : Exception) (s : State) : Word :=
  match x with
  | .codeBreakpoint => hardwireEflags s.eflags
  | .generalProtection => hardwireEflags (setFlag .rf true s.eflags)
  | .alignmentCheck => hardwireEflags (setFlag .rf true s.eflags)
  | .deviceNotAvailable => hardwireEflags (setFlag .rf true s.eflags)
  | .undefinedOpcode => hardwireEflags (setFlag .rf true s.eflags)
  | .machineCheck => hardwireEflags (setFlag .rf true s.eflags)
  | .ioBreakpoint => hardwireEflags (setFlag .rf true s.eflags)

/-- `raise X(code)`: the run ends with the exception, its code, the address of the instruction, and nothing changed
(R229, R239, R240). -/
def raise {α : Type} (x : Exception) (s : State) : Res α :=
  .fault (.exception x (exceptionCode x) s.eip (exceptionImage x s))

/-- `refuse(reason)`: the run ends with the reason and the address of the instruction (R280). -/
def refuse {α : Type} (reason : RefusalReason) (s : State) : Res α := .refused (.because reason s.eip)

/-- A privileged instruction runs at CPL 0 only and raises general protection otherwise (R222, R246). -/
def requireCpl0 (s : State) : Res Unit :=
  if s.cpl = 0#2 then .next () else raise .generalProtection s

/-! ### Memory accesses -/

/-- `AlignCheck` of R65: checking is active in protected mode at CPL 3 with EFLAGS.AC and CR0.AM both 1, and an access of
`n` bytes is misaligned when `a mod n` is not 0. -/
def misaligned (s : State) (a : Word) (n : Nat) : Bool :=
  cr0Pe s.cr0 && s.cpl == 3#2 && getFlag s.eflags .ac && cr0Am s.cr0 && decide (1 < n) && decide (a.toNat % n ≠ 0)

/-- The checks of `MemRead` in their order: alignment, wrap, map (R66). -/
def checkRead (s : State) (a : Word) (n : Nat) : Res Unit :=
  if misaligned s a n = true then raise .alignmentCheck s
  else if a.toNat + n > Config.addrSpace then refuse .addressWrap s
  else if allFrom (mapped s.map) a.toNat n = true then .next ()
  else refuse .unmappedRead s

/-- The checks of `MemWrite` in their order: alignment, wrap, map (R66). -/
def checkWrite (s : State) (a : Word) (n : Nat) : Res Unit :=
  if misaligned s a n = true then raise .alignmentCheck s
  else if a.toNat + n > Config.addrSpace then refuse .addressWrap s
  else if allFrom (inData s.map) a.toNat n = true then .next ()
  else refuse .unmappedOrCodeWrite s

/-- `MemRead(addr, 2)` (R66). -/
def memRead16 (s : State) (a : Word) : Res Half :=
  andThen (checkRead s a 2) fun _ => .next (Memory.read16 s.mem a.toNat)

/-- `MemRead(addr, 4)` (R66). -/
def memRead32 (s : State) (a : Word) : Res Word :=
  andThen (checkRead s a 4) fun _ => .next (Memory.read32 s.mem a.toNat)

/-- `MemWrite(addr, 2, v)` (R66). -/
def memWrite16 (s : State) (a : Word) (v : Half) : Res State :=
  andThen (checkWrite s a 2) fun _ => .next { s with mem := Memory.write16 s.mem a.toNat v }

/-- `MemWrite(addr, 4, v)` (R66). -/
def memWrite32 (s : State) (a : Word) (v : Word) : Res State :=
  andThen (checkWrite s a 4) fun _ => .next { s with mem := Memory.write32 s.mem a.toNat v }

/-! ### The stack -/

/-- The address a push of `n` bytes stores to: `ESP - n` modulo 2^32 (R143, R186). -/
def State.pushAddr (s : State) (n : Nat) : Word := s.reg .esp - BitVec.ofNat 32 n

/-- A 2-byte push; ESP changes only after the write (R143). -/
def push16 (s : State) (v : Half) : Res State :=
  andThen (memWrite16 s (s.pushAddr 2) v) fun s1 => .next (s1.setReg .esp (s.pushAddr 2))

/-- A 4-byte push; ESP changes only after the write (R144, R186, R200). -/
def push32 (s : State) (v : Word) : Res State :=
  andThen (memWrite32 s (s.pushAddr 4) v) fun s1 => .next (s1.setReg .esp (s.pushAddr 4))

/-- The state with ESP increased by `n` modulo 2^32 (R145, R187). -/
def State.popped (s : State) (n : Nat) : State := s.setReg .esp (s.reg .esp + BitVec.ofNat 32 n)

/-! ### Completing an instruction -/

/-- `next`: the address of the byte after an instruction of `n` bytes, modulo 2^32 (R12). Where
that address wraps and EIP would become it, the step refuses (`eipWraps`, log 43). -/
def State.nextEip (s : State) (n : Nat) : Word := s.eip + BitVec.ofNat 32 n

/-- RF cleared, as every instruction but IRETD leaves it (R149). -/
def State.clearRf (s : State) : State := s.setEflags (setFlag .rf false s.eflags)

/-- An instruction other than IRETD completes with EIP at `target` (R12, R149). -/
def completeAt (target : Word) (s : State) : State := { s.clearRf with eip := target }

/-- An instruction of `n` bytes other than IRETD completes without a control transfer (R12, R149). -/
def complete (n : Nat) (s : State) : State := completeAt (s.nextEip n) s

/-! ### Conditions of admission -/

/-- R140 (b): no instruction executes while EFLAGS.TF = 1 (R22, D16). -/
def requireNoTrapFlag (s : State) : Res Unit :=
  if getFlag s.eflags .tf = true then refuse .singleStepNotAdmitted s else .next ()

/-- R140 (a) and (b), of PUSHF, PUSHFD, POPF, POPFD and IRETD. -/
def flagStackAdmitted (s : State) : Res Unit :=
  if cr4Vme s.cr4 = true ∨ cr4Pvi s.cr4 = true then refuse .virtualInterruptsNotAdmitted s else requireNoTrapFlag s

/-- The mode of a run: protected mode, paging off, not virtual-8086, not single-stepping (D2, D16, R71, R22, R140). -/
def modeAdmitted (s : State) : Res Unit :=
  if cr0Pe s.cr0 = false then refuse .realModeNotAdmitted s
  else if cr0Pg s.cr0 = true then refuse .pagingNotAdmitted s
  else if getFlag s.eflags .vm = true then refuse .virtual8086NotAdmitted s
  else requireNoTrapFlag s

/-- R16 and R17: with CR4.VME and CR4.PVI both 0, VIF and VIP are forced to 0. -/
def forceVirtualFlags (cr4 : Word) (e : Word) : Word :=
  if cr4Vme cr4 = false ∧ cr4Pvi cr4 = false then setFlag .vip false (setFlag .vif false e) else e

/-- OF, SF, ZF, AF, PF and CF left undefined: six free values (R160 to R162, U12; log 18). -/
def scrambleStatus (s : State) : State :=
  (s.setEflags (setStatus (s.draw1 0) (s.draw1 1) (s.draw1 2) (s.draw1 3) (s.draw1 4) (s.draw1 5) s.eflags)).spend 6

/-! ### Returning from an exception -/

/-- The mask of the EFLAGS bits that IRETD loads at this privilege level: CF, PF, AF, ZF, SF, TF, DF, OF, NT, RF, AC and ID,
IF when CPL ≤ IOPL, IOPL when CPL = 0 (R147). -/
def iretMask (s : State) : Word := maskUser32 ||| maskRf ||| maskPrivileged s.cpl s.iopl

/-- The return from an exception, IRETD (R147, R241): EIP and EFLAGS from the three doublewords at ESP, RF among them, and RF
is not cleared afterwards. Only a same-privilege return to the same code segment is admitted (D18; log 15). -/
def returnFromException (s : State) : Res State :=
  andThen (flagStackAdmitted s) fun _ =>
  if getFlag s.eflags .nt = true then refuse .taskReturnNotAdmitted s
  else if (s.reg .esp).toNat + 12 > Config.addrSpace then refuse .addressWrap s
  else
    andThen (memRead32 s (s.reg .esp)) fun tEip =>
    andThen (memRead32 s (s.reg .esp + 4#32)) fun tCs =>
    andThen (memRead32 s (s.reg .esp + 8#32)) fun tFl =>
    if getFlag tFl .vm = true ∧ s.cpl = 0#2 then refuse .returnToVirtual8086NotAdmitted s
    else if tCs.extractLsb' 0 16 ≠ s.csSel then refuse .farReturnNotAdmitted s
    else
      .next { (s.setEflags (maskWrite s.eflags tFl (iretMask s))).popped 12 with eip := tEip }

end Sys2Proof.Machine
end

