-- ==== Sys2Proof/Machine/Boundary.lean ====
section
/-! DEFINITION. What a step does besides running an instruction: the requests taken at an instruction boundary, the code
breakpoint, the fetch, and the launch of a program from outside. -/

namespace Sys2Proof.Machine

/-- The FLUSH# pin goes from one level to another: a falling edge latches one request, any other change none (R105, R231). The
environment does this between steps (log 27). -/
def flushPin (before after : Bool) (s : State) : State :=
  if before = true ∧ after = false then { s with inputs := { s.inputs with flush := s.inputs.flush + 1 } } else s

/-- FLUSH# is taken: one latched request is gone, and no state a program can read changes (R105, R231). -/
def recogniseFlush (s : State) : State := { s with inputs := { s.inputs with flush := s.inputs.flush - 1 } }

/-- INIT: the reset function, keeping the floating-point state (and the caches, which the model does not hold). Memory, its
map and the model's count of free values are no processor state and stay (R95, R233, R271; log 27). -/
def initialise (s : State) : State :=
  { State.reset with fpu := s.fpu, mem := s.mem, map := s.map, draws := s.draws }

/-- What happens at an instruction boundary before an instruction runs, if anything: a request for a mode the model does not
have is refused; FLUSH# and INIT are taken; a halted processor stays halted (R231 to R234, R182). The order among
simultaneous requests, and between a request or the halted processor and everything else the step looks at (the mode, a code
breakpoint), is not in the source (N20): DESIGN CHOICE (log 27). -/
def boundaryEvent (s : State) : Option (Res State) :=
  if s.inputs.rs = true then some (refuse .probeModeNotAdmitted s)
  else if s.inputs.smi = true then some (refuse .systemManagementModeNotAdmitted s)
  else if s.inputs.flush ≠ 0 then some (.next (recogniseFlush s))
  else if s.inputs.init = true then some (.next (initialise s))
  else if s.halted = true then some (.next s)
  else none

/-- The breakpoint-match outputs BP3 to BP0, bit k for debug register k (R43, R251). The pins PM1/BP1 and PM0/BP0 are shared with
performance monitoring, and which use PB1 and PB0 select is not in the source (R45, R248, N12): that bits 1 and 0 always are
the breakpoint match is a DESIGN CHOICE (log 44). -/
def breakpointPins (s : State) : BitVec 4 :=
  let hit (on : Bool) (a : Word) : Bool := on && a == s.eip
  BitVec.ofBool (hit s.dregs.code3 s.dregs.dr3) ++ BitVec.ofBool (hit s.dregs.code2 s.dregs.dr2) ++
    BitVec.ofBool (hit s.dregs.code1 s.dregs.dr1) ++ BitVec.ofBool (hit s.dregs.code0 s.dregs.dr0)

/-- The code breakpoint, the fault of highest priority, taken before the instruction is decoded unless RF = 1 (R225, R19,
R238; log 10). -/
def codeBreakpointCheck (s : State) : Res Unit :=
  if breakpointPins s ≠ 0#4 ∧ getFlag s.eflags .rf = false then raise .codeBreakpoint s else .next ()

/-- Up to `n` bytes from `a` on, as long as they lie in `MEM.code` below 2^32 (R66). -/
def fetchBytes (s : State) (a : Nat) : Nat → List Byte
  | 0 => []
  | n + 1 =>
    if a < Config.addrSpace ∧ inCode s.map a = true then Memory.readByte s.mem a :: fetchBytes s (a + 1) n else []

/-- The instruction at EIP. When the bytes end inside it, the byte after them is the one whose fetch is refused (R66, R118,
R12). -/
def fetch (s : State) : Res Instr :=
  let bytes := fetchBytes s s.eip.toNat fetchLength
  match decode bytes with
  | .ok i _ => .next i
  | .bad .truncated =>
    if s.eip.toNat + bytes.length ≥ Config.addrSpace then refuse .addressWrap s else refuse .unmappedFetch s
  | .bad e => refuse (.undecodable e) s

/-- The instruction, when it completes from this state, takes its next address as EIP: it is no control transfer that sets EIP
otherwise (R12, R197 to R201, R147). -/
def fallsThrough (i : Instr) (s : State) : Bool :=
  match i with
  | .jmpRel8 _ => false
  | .jmpRel32 _ => false
  | .callRel32 _ => false
  | .ret => false
  | .iretd => false
  | .jccRel8 cc _ => !condHolds cc s.eflags
  | _ => true

/-- EIP would wrap past 2^32: the instruction reaches the last address and falls through (R280, U16, D27; log 43). -/
def eipWraps (i : Instr) (s : State) : Bool :=
  fallsThrough i s && decide (Config.addrSpace ≤ s.eip.toNat + i.length)

/-- The end of an instruction that answered `t` from `s`: refused when EIP would wrap past 2^32 (R280, U16; log 43). -/
def finish (i : Instr) (s t : State) : Res State := if eipWraps i s = true then refuse .addressWrap s else .next t

/-- The bytes stored at consecutive addresses, those at or past 2^32 left out. -/
def placeBytes (m : Memory) (a : Nat) (bs : List Byte) : Memory :=
  Memory.writeBytes m a (bs.take (Config.addrSpace - a))

/-- A launch from outside with these bytes as the program at EIP (R274; log 5): they become `MEM.code`, the mode is protected
mode with paging off, ET (which R26 fixes) is 1, VM and TF are 0, no request is latched, no breakpoint is programmed, and the
processor is not halted. -/
def launch (s : State) (bs : List Byte) : State :=
  { s with
    cr0 := hardwireCr0 (setBit (setBit s.cr0 0 true) 31 false)
    eflags := hardwireEflags (setFlag .vm false (setFlag .tf false s.eflags))
    dregs := { s.dregs with code0 := false, code1 := false, code2 := false, code3 := false }
    mem := placeBytes s.mem s.eip.toNat bs
    map := { base := s.eip.toNat, size := bs.length, kind := .code } :: s.map
    inputs := { flush := 0, init := false, smi := false, rs := false }
    halted := false }

end Sys2Proof.Machine
end

