-- ==== Sys2Proof/Machine/Operands.lean ====
section
/-! DEFINITION. The operand forms of R114 and R180 and the two-operand operation that the arithmetic and logic family shares. -/

namespace Sys2Proof.Machine

/-- A destination operand: a general register, or the 32-bit memory operand at the address a base register holds (R114). -/
inductive Rm
  | reg (r : Reg)
  | mem (base : Reg)
deriving DecidableEq, Repr

/-- A source operand: a register or memory operand, or an immediate. -/
inductive Src
  | rm (x : Rm)
  | imm (v : Word)
deriving DecidableEq, Repr

/-- `RmRead` of R180. -/
def rmRead (s : State) : Rm → Res Word
  | .reg r => .next (s.reg r)
  | .mem base => memRead32 s (s.reg base)

/-- `RmWrite` of R180. -/
def rmWrite (s : State) (v : Word) : Rm → Res State
  | .reg r => .next (s.setReg r v)
  | .mem base => memWrite32 s (s.reg base) v

/-- The value of a source operand. -/
def srcRead (s : State) : Src → Res Word
  | .rm x => rmRead s x
  | .imm v => .next v

/-- The two-operand operations of R188 to R194. -/
inductive AluOp
  | add | or | and | sub | xor | cmp | test
deriving DecidableEq, Repr

/-- The result `r` of an operation (R188 to R194). -/
def aluResult (op : AluOp) (a b : Word) : Word :=
  match op with
  | .add => a + b
  | .or => a ||| b
  | .and => a &&& b
  | .sub => a - b
  | .xor => a ^^^ b
  | .cmp => a - b
  | .test => a &&& b

/-- CMP and TEST write no destination (R193, R194). -/
def aluWrites (op : AluOp) : Bool :=
  match op with
  | .add => true
  | .or => true
  | .and => true
  | .sub => true
  | .xor => true
  | .cmp => false
  | .test => false

/-- The flags of the logic operations: AF is a free value (R180, U7; log 17). -/
def setLogicFlags (r : Word) (s : State) : State :=
  (s.setEflags (flagsLogic r (s.draw1 0) s.eflags)).spend 1

/-- The flags an operation writes for the operands `a`, `b` and the result `r` (R188 to R194). -/
def aluFlags (op : AluOp) (a b r : Word) (s : State) : State :=
  match op with
  | .add => s.setEflags (flagsAdd a b r s.eflags)
  | .or => setLogicFlags r s
  | .and => setLogicFlags r s
  | .sub => s.setEflags (flagsSub a b r s.eflags)
  | .xor => setLogicFlags r s
  | .cmp => s.setEflags (flagsSub a b r s.eflags)
  | .test => setLogicFlags r s

/-- The destination write of an operation, if it has one. -/
def aluStore (op : AluOp) (dst : Rm) (r : Word) (s : State) : Res State :=
  if aluWrites op = true then rmWrite s r dst else .next s

/-- A two-operand instruction of `n` bytes: both operands are read, the result is written, then the flags (R188 to R194). -/
def execAlu (op : AluOp) (dst : Rm) (src : Src) (n : Nat) (s : State) : Res State :=
  andThen (rmRead s dst) fun a =>
  andThen (srcRead s src) fun b =>
  andThen (aluStore op dst (aluResult op a b) s) fun s1 =>
  .next (complete n (aluFlags op a b (aluResult op a b) s1))

/-- MOV between a register or memory operand and a register or immediate, `n` bytes (R183 to R185). -/
def execMove (dst : Rm) (src : Src) (n : Nat) (s : State) : Res State :=
  andThen (srcRead s src) fun v =>
  andThen (rmWrite s v dst) fun s1 =>
  .next (complete n s1)

end Sys2Proof.Machine
end

