-- ==== Sys2Proof/Machine/Arith.lean ====
section
/-! DEFINITION. ADD, SUB, CMP, INC and DEC (44_enabling_integer_subset.md R188, R191, R193, R195, R196). -/

namespace Sys2Proof.Machine

/-- `01 /r`, mod 11: ADD x[rm], x[reg] (R188). -/
def execAddRmReg (rm reg : Reg) (s : State) : Res State := execAlu .add (.reg rm) (.rm (.reg reg)) 2 s

/-- `01 /r`, mod 00: ADD [x[rm]], x[reg] (R188). -/
def execAddMemReg (rm reg : Reg) (s : State) : Res State := execAlu .add (.mem rm) (.rm (.reg reg)) 2 s

/-- `03 /r`, mod 11: ADD x[reg], x[rm] (R188). -/
def execAddRegRm (reg rm : Reg) (s : State) : Res State := execAlu .add (.reg reg) (.rm (.reg rm)) 2 s

/-- `03 /r`, mod 00: ADD x[reg], [x[rm]] (R188). -/
def execAddRegMem (reg rm : Reg) (s : State) : Res State := execAlu .add (.reg reg) (.rm (.mem rm)) 2 s

/-- `05 id`: ADD EAX, imm32 (R188). -/
def execAddEaxImm (imm : Word) (s : State) : Res State := execAlu .add (.reg .eax) (.imm imm) 5 s

/-- `29 /r`, mod 11: SUB x[rm], x[reg] (R191). -/
def execSubRmReg (rm reg : Reg) (s : State) : Res State := execAlu .sub (.reg rm) (.rm (.reg reg)) 2 s

/-- `29 /r`, mod 00: SUB [x[rm]], x[reg] (R191). -/
def execSubMemReg (rm reg : Reg) (s : State) : Res State := execAlu .sub (.mem rm) (.rm (.reg reg)) 2 s

/-- `2B /r`, mod 11: SUB x[reg], x[rm] (R191). -/
def execSubRegRm (reg rm : Reg) (s : State) : Res State := execAlu .sub (.reg reg) (.rm (.reg rm)) 2 s

/-- `2B /r`, mod 00: SUB x[reg], [x[rm]] (R191). -/
def execSubRegMem (reg rm : Reg) (s : State) : Res State := execAlu .sub (.reg reg) (.rm (.mem rm)) 2 s

/-- `2D id`: SUB EAX, imm32 (R191). -/
def execSubEaxImm (imm : Word) (s : State) : Res State := execAlu .sub (.reg .eax) (.imm imm) 5 s

/-- `39 /r`, mod 11: CMP x[rm], x[reg] (R193). -/
def execCmpRmReg (rm reg : Reg) (s : State) : Res State := execAlu .cmp (.reg rm) (.rm (.reg reg)) 2 s

/-- `39 /r`, mod 00: CMP [x[rm]], x[reg] (R193). -/
def execCmpMemReg (rm reg : Reg) (s : State) : Res State := execAlu .cmp (.mem rm) (.rm (.reg reg)) 2 s

/-- `3B /r`, mod 11: CMP x[reg], x[rm] (R193). -/
def execCmpRegRm (reg rm : Reg) (s : State) : Res State := execAlu .cmp (.reg reg) (.rm (.reg rm)) 2 s

/-- `3B /r`, mod 00: CMP x[reg], [x[rm]] (R193). -/
def execCmpRegMem (reg rm : Reg) (s : State) : Res State := execAlu .cmp (.reg reg) (.rm (.mem rm)) 2 s

/-- `3D id`: CMP EAX, imm32 (R193). -/
def execCmpEaxImm (imm : Word) (s : State) : Res State := execAlu .cmp (.reg .eax) (.imm imm) 5 s

/-- `40+r`: INC r32; CF is unchanged (R195). -/
def execIncReg (r : Reg) (s : State) : Res State :=
  let a := s.reg r
  let v := a + 1#32
  let s1 := s.setReg r v
  .next (complete 1 (s1.setEflags (flagsInc a v s1.eflags)))

/-- `48+r`: DEC r32; CF is unchanged (R196). -/
def execDecReg (r : Reg) (s : State) : Res State :=
  let a := s.reg r
  let v := a - 1#32
  let s1 := s.setReg r v
  .next (complete 1 (s1.setEflags (flagsDec a v s1.eflags)))

end Sys2Proof.Machine
end

