-- ==== Sys2Proof/Machine/Control.lean ====
section
/-! DEFINITION. NOP, HLT and the control transfers (44_enabling_integer_subset.md R181, R182, R197 to R201). -/

namespace Sys2Proof.Machine

/-- `90`: NOP (R181). -/
def execNop (s : State) : Res State := .next (complete 1 s)

/-- `F4`: HLT; at CPL 0 the run ends with EIP after the instruction (R182, R280; log 26). -/
def execHlt (s : State) : Res State :=
  andThen (requireCpl0 s) fun _ => .next { complete 1 s with halted := true }

/-- `70+cc cb`: Jcc rel8 (R197). -/
def execJccRel8 (cc : Cond) (rel : BitVec 8) (s : State) : Res State :=
  if condHolds cc s.eflags = true then .next (completeAt (s.nextEip 2 + sext8 rel) s) else .next (complete 2 s)

/-- `EB cb`: JMP rel8 (R198). -/
def execJmpRel8 (rel : BitVec 8) (s : State) : Res State := .next (completeAt (s.nextEip 2 + sext8 rel) s)

/-- `E9 cd`: JMP rel32 (R199). -/
def execJmpRel32 (rel : Word) (s : State) : Res State := .next (completeAt (s.nextEip 5 + rel) s)

/-- `E8 cd`: CALL rel32; the return address goes on the stack (R200). -/
def execCallRel32 (rel : Word) (s : State) : Res State :=
  andThen (push32 s (s.nextEip 5)) fun s1 => .next (completeAt (s.nextEip 5 + rel) s1)

/-- `C3`: RET near (R201). -/
def execRet (s : State) : Res State :=
  andThen (memRead32 s (s.reg .esp)) fun t => .next (completeAt t (s.popped 4))

end Sys2Proof.Machine
end

