-- ==== Sys2Proof/Machine/FlagOps.lean ====
section
/-! DEFINITION. The instructions that read and write EFLAGS, and CPUID (41_eflags_instructions.md R140 to R149). -/

namespace Sys2Proof.Machine

/-- `9E`: SAHF, SF, ZF, AF, PF and CF from AH (R141). -/
def execSahf (s : State) : Res State :=
  let ah : Byte := (s.reg .eax).extractLsb' 8 8
  .next (complete 1 (s.setEflags (maskWrite s.eflags (ah.zeroExtend 32) 0x000000D5#32)))

/-- `9F`: LAHF, EFLAGS[7:0] into AH (R142). -/
def execLahf (s : State) : Res State :=
  .next (complete 1 (s.setReg .eax (maskWrite (s.reg .eax) (s.flagsImage <<< 8) 0x0000FF00#32)))

/-- `66 9C`: PUSHF (R143). -/
def execPushf (s : State) : Res State :=
  andThen (flagStackAdmitted s) fun _ =>
  andThen (push16 s (s.flagsImage.extractLsb' 0 16)) fun s1 =>
  .next (complete 2 s1)

/-- `9C`: PUSHFD; VM and RF are pushed as 0 (R144). -/
def execPushfd (s : State) : Res State :=
  andThen (flagStackAdmitted s) fun _ =>
  andThen (push32 s (s.flagsImage &&& maskPushfd)) fun s1 =>
  .next (complete 1 s1)

/-- `66 9D`: POPF, into EFLAGS[15:0] (R145). -/
def execPopf (s : State) : Res State :=
  andThen (flagStackAdmitted s) fun _ =>
  andThen (memRead16 s (s.reg .esp)) fun v =>
  let mask : Word := maskUser16.zeroExtend 32 ||| maskPrivileged s.cpl s.iopl
  .next (complete 2 ((s.setEflags (maskWrite s.eflags (v.zeroExtend 32) mask)).popped 2))

/-- `9D`: POPFD (R146). -/
def execPopfd (s : State) : Res State :=
  andThen (flagStackAdmitted s) fun _ =>
  andThen (memRead32 s (s.reg .esp)) fun v =>
  let mask : Word := maskUser32 ||| maskPrivileged s.cpl s.iopl
  .next (complete 1 ((s.setEflags (maskWrite s.eflags v mask)).popped 4))

/-- `CF`: IRETD, the return from an exception (R147, R241). -/
def execIretd (s : State) : Res State := returnFromException s

/-- `0F A2`: CPUID, all four registers from the open function of EAX (R148, U9; log 21). -/
def execCpuid (s : State) : Res State :=
  let c := Config.cpuid (s.reg .eax)
  .next (complete 2 ((((s.setReg .eax c.eax).setReg .ebx c.ebx).setReg .ecx c.ecx).setReg .edx c.edx))

end Sys2Proof.Machine
end

