-- ==== Sys2Proof/Machine/Fpu.lean ====
section
/-! DEFINITION. FXCH (40_fpu_fxch.md R131). -/

namespace Sys2Proof.Machine

/-- Two physical registers exchange contents and tags, bit for bit (R131). -/
def exchangeFp (p q : Fin 8) (f : Fpu) : Fpu :=
  { f with
    fpr := (f.fpr.set p.val f.fpr[q.val]).set q.val f.fpr[p.val]
    ftw := setTag (setTag f.ftw p (tagOf f.ftw q)) q (tagOf f.ftw p) }

/-- C1 cleared, C0, C2 and C3 free values (R131, U8; log 20). -/
def scrambleConditionCodes (s : State) : State :=
  State.spend
    { s with fpu := { s.fpu with fsw := setConditionCodes (s.draw1 0) (s.draw1 1) (s.draw1 2) s.fpu.fsw } } 3

/-- `D9 C8+i`: FXCH ST(i) (R131). -/
def execFxch (i : Fin 8) (s : State) : Res State :=
  if cr0Em s.cr0 = true ∨ cr0Ts s.cr0 = true then raise .deviceNotAvailable s
  else if fswEs s.fpu.fsw = true then refuse .pendingFloatingPointException s
  else
    let p := physReg s.fpu.fsw 0
    let q := physReg s.fpu.fsw i
    if tagOf s.fpu.ftw p = tagEmpty ∨ tagOf s.fpu.ftw q = tagEmpty then refuse .floatingPointStackUnderflow s
    else .next (complete 2 (scrambleConditionCodes { s with fpu := exchangeFp p q s.fpu }))

end Sys2Proof.Machine
end

