-- ==== Sys2Proof/Machine/Logic.lean ====
section
/-! DEFINITION. OR, AND, XOR and TEST (44_enabling_integer_subset.md R189, R190, R192, R194). -/

namespace Sys2Proof.Machine

/-- `09 /r`, mod 11: OR x[rm], x[reg] (R189). -/
def execOrRmReg (rm reg : Reg) (s : State) : Res State := execAlu .or (.reg rm) (.rm (.reg reg)) 2 s

/-- `09 /r`, mod 00: OR [x[rm]], x[reg] (R189). -/
def execOrMemReg (rm reg : Reg) (s : State) : Res State := execAlu .or (.mem rm) (.rm (.reg reg)) 2 s

/-- `0B /r`, mod 11: OR x[reg], x[rm] (R189). -/
def execOrRegRm (reg rm : Reg) (s : State) : Res State := execAlu .or (.reg reg) (.rm (.reg rm)) 2 s

/-- `0B /r`, mod 00: OR x[reg], [x[rm]] (R189). -/
def execOrRegMem (reg rm : Reg) (s : State) : Res State := execAlu .or (.reg reg) (.rm (.mem rm)) 2 s

/-- `0D id`: OR EAX, imm32 (R189). -/
def execOrEaxImm (imm : Word) (s : State) : Res State := execAlu .or (.reg .eax) (.imm imm) 5 s

/-- `21 /r`, mod 11: AND x[rm], x[reg] (R190). -/
def execAndRmReg (rm reg : Reg) (s : State) : Res State := execAlu .and (.reg rm) (.rm (.reg reg)) 2 s

/-- `21 /r`, mod 00: AND [x[rm]], x[reg] (R190). -/
def execAndMemReg (rm reg : Reg) (s : State) : Res State := execAlu .and (.mem rm) (.rm (.reg reg)) 2 s

/-- `23 /r`, mod 11: AND x[reg], x[rm] (R190). -/
def execAndRegRm (reg rm : Reg) (s : State) : Res State := execAlu .and (.reg reg) (.rm (.reg rm)) 2 s

/-- `23 /r`, mod 00: AND x[reg], [x[rm]] (R190). -/
def execAndRegMem (reg rm : Reg) (s : State) : Res State := execAlu .and (.reg reg) (.rm (.mem rm)) 2 s

/-- `25 id`: AND EAX, imm32 (R190). -/
def execAndEaxImm (imm : Word) (s : State) : Res State := execAlu .and (.reg .eax) (.imm imm) 5 s

/-- `31 /r`, mod 11: XOR x[rm], x[reg] (R192). -/
def execXorRmReg (rm reg : Reg) (s : State) : Res State := execAlu .xor (.reg rm) (.rm (.reg reg)) 2 s

/-- `31 /r`, mod 00: XOR [x[rm]], x[reg] (R192). -/
def execXorMemReg (rm reg : Reg) (s : State) : Res State := execAlu .xor (.mem rm) (.rm (.reg reg)) 2 s

/-- `33 /r`, mod 11: XOR x[reg], x[rm] (R192). -/
def execXorRegRm (reg rm : Reg) (s : State) : Res State := execAlu .xor (.reg reg) (.rm (.reg rm)) 2 s

/-- `33 /r`, mod 00: XOR x[reg], [x[rm]] (R192). -/
def execXorRegMem (reg rm : Reg) (s : State) : Res State := execAlu .xor (.reg reg) (.rm (.mem rm)) 2 s

/-- `35 id`: XOR EAX, imm32 (R192). -/
def execXorEaxImm (imm : Word) (s : State) : Res State := execAlu .xor (.reg .eax) (.imm imm) 5 s

/-- `85 /r`, mod 11: TEST x[rm], x[reg] (R194). -/
def execTestRmReg (rm reg : Reg) (s : State) : Res State := execAlu .test (.reg rm) (.rm (.reg reg)) 2 s

/-- `85 /r`, mod 00: TEST [x[rm]], x[reg] (R194). -/
def execTestMemReg (rm reg : Reg) (s : State) : Res State := execAlu .test (.mem rm) (.rm (.reg reg)) 2 s

end Sys2Proof.Machine
end

