-- ==== Sys2Proof/Machine/Move.lean ====
section
/-! DEFINITION. MOV, PUSH and POP (44_enabling_integer_subset.md R183 to R187). -/

namespace Sys2Proof.Machine

/-- `89 /r`, mod 11: MOV x[rm], x[reg] (R184). -/
def execMovRmReg (rm reg : Reg) (s : State) : Res State := execMove (.reg rm) (.rm (.reg reg)) 2 s

/-- `89 /r`, mod 00: MOV [x[rm]], x[reg] (R184). -/
def execMovMemReg (rm reg : Reg) (s : State) : Res State := execMove (.mem rm) (.rm (.reg reg)) 2 s

/-- `8B /r`, mod 11: MOV x[reg], x[rm] (R185). -/
def execMovRegRm (reg rm : Reg) (s : State) : Res State := execMove (.reg reg) (.rm (.reg rm)) 2 s

/-- `8B /r`, mod 00: MOV x[reg], [x[rm]] (R185). -/
def execMovRegMem (reg rm : Reg) (s : State) : Res State := execMove (.reg reg) (.rm (.mem rm)) 2 s

/-- `B8+r id`: MOV r32, imm32 (R183). -/
def execMovRegImm (r : Reg) (imm : Word) (s : State) : Res State := execMove (.reg r) (.imm imm) 5 s

/-- `50+r`: PUSH r32; PUSH ESP stores ESP as it was before the decrement (R186). -/
def execPushReg (r : Reg) (s : State) : Res State :=
  andThen (push32 s (s.reg r)) fun s1 => .next (complete 1 s1)

/-- `58+r`: POP r32; for ESP the final value is the one read (R187). -/
def execPopReg (r : Reg) (s : State) : Res State :=
  andThen (memRead32 s (s.reg .esp)) fun v => .next (complete 1 ((s.popped 4).setReg r v))

end Sys2Proof.Machine
end

