-- ==== Sys2Proof/Machine/System.lean ====
section
/-! DEFINITION. Control-register access, RDTSC and the model-specific register instructions (42 R160 to R165, 43 R170 to
R172). -/

namespace Sys2Proof.Machine

/-- A 64-bit value into EDX:EAX, one use of a free value (R165, R170). -/
def deliver64 (v : BitVec 64) (s : State) : State :=
  ((s.setReg .edx (v.extractLsb' 32 32)).setReg .eax (v.extractLsb' 0 32)).spend 1

/-- `MsrDefined(i)` of R172: the 18 indices of Table 1 that carry a register (R39). -/
def msrDefined (i : Word) : Bool :=
  decide (i.toNat ≤ 0x13) && decide (i ≠ 0x03#32) && decide (i ≠ 0x0F#32)

/-- The index of the time-stamp counter (R39, R42). -/
def msrTsc : Word := 0x10#32

/-- `0F 20 /0`: MOV r32, CR0; ET reads 1 (R160, R26). -/
def execMovRegCr0 (rm : Reg) (s : State) : Res State :=
  andThen (requireCpl0 s) fun _ => .next (complete 3 (scrambleStatus (s.setReg rm s.cr0Image)))

/-- `0F 20 /4`: MOV r32, CR4; bits 31:7 read 0 (R161, R28). -/
def execMovRegCr4 (rm : Reg) (s : State) : Res State :=
  andThen (requireCpl0 s) fun _ => .next (complete 3 (scrambleStatus (s.setReg rm (s.cr4 &&& ~~~cr4Reserved))))

/-- `0F 22 /4`: MOV CR4, r32; a 1 in a reserved bit raises general protection, and VIF and VIP are forced to 0 when both
their enables are 0 (R162, R28, R16, R17). -/
def execMovCr4Reg (rm : Reg) (s : State) : Res State :=
  andThen (requireCpl0 s) fun _ =>
  let v := s.reg rm
  if v &&& cr4Reserved ≠ 0#32 then raise .generalProtection s
  else
    let s1 : State := { s with cr4 := v }
    .next (complete 3 (scrambleStatus (s1.setEflags (forceVirtualFlags v s1.eflags))))

/-- `0F 22 /0`: MOV CR0, r32, recognised and refused (R163, D21; log 24). -/
def execMovCr0Reg (_rm : Reg) (s : State) : Res State := refuse .cr0WriteNotAdmitted s

/-- `0F 31`: RDTSC; the counter is a free value (R165, R31, D11; log 19). -/
def execRdtsc (s : State) : Res State :=
  if cr4Tsd s.cr4 = true ∧ s.cpl ≠ 0#2 then raise .generalProtection s
  else .next (complete 2 (deliver64 s.draw64 s))

/-- `0F 32`: RDMSR; the contents are a free value (R170, R172, D13; logs 19, 22 and 23). -/
def execRdmsr (s : State) : Res State :=
  andThen (requireCpl0 s) fun _ =>
  if msrDefined (s.reg .ecx) = true then .next (complete 2 (deliver64 s.draw64 s))
  else refuse .reservedOrAbsentMsr s

/-- `0F 30`: WRMSR; only the time-stamp counter, whose value the model does not keep (R171, R172, D13; log 22). -/
def execWrmsr (s : State) : Res State :=
  andThen (requireCpl0 s) fun _ =>
  if msrDefined (s.reg .ecx) = true then
    if s.reg .ecx = msrTsc then .next (complete 2 s) else refuse .msrWriteNotAdmitted s
  else refuse .reservedOrAbsentMsr s

end Sys2Proof.Machine
end

