-- ==== Sys2Proof/Machine/Dispatch.lean ====
section
/-! DEFINITION. The meaning of every instruction, one arm per constructor of Instr. -/

namespace Sys2Proof.Machine

def exec (i : Instr) (s : State) : Host.Outcome State Fault Refusal :=
  match i with
  | .addRmReg rm reg => Sys2Proof.Machine.execAddRmReg rm reg s
  | .addMemReg rm reg => Sys2Proof.Machine.execAddMemReg rm reg s
  | .addRegRm reg rm => Sys2Proof.Machine.execAddRegRm reg rm s
  | .addRegMem reg rm => Sys2Proof.Machine.execAddRegMem reg rm s
  | .addEaxImm imm => Sys2Proof.Machine.execAddEaxImm imm s
  | .orRmReg rm reg => Sys2Proof.Machine.execOrRmReg rm reg s
  | .orMemReg rm reg => Sys2Proof.Machine.execOrMemReg rm reg s
  | .orRegRm reg rm => Sys2Proof.Machine.execOrRegRm reg rm s
  | .orRegMem reg rm => Sys2Proof.Machine.execOrRegMem reg rm s
  | .orEaxImm imm => Sys2Proof.Machine.execOrEaxImm imm s
  | .andRmReg rm reg => Sys2Proof.Machine.execAndRmReg rm reg s
  | .andMemReg rm reg => Sys2Proof.Machine.execAndMemReg rm reg s
  | .andRegRm reg rm => Sys2Proof.Machine.execAndRegRm reg rm s
  | .andRegMem reg rm => Sys2Proof.Machine.execAndRegMem reg rm s
  | .andEaxImm imm => Sys2Proof.Machine.execAndEaxImm imm s
  | .subRmReg rm reg => Sys2Proof.Machine.execSubRmReg rm reg s
  | .subMemReg rm reg => Sys2Proof.Machine.execSubMemReg rm reg s
  | .subRegRm reg rm => Sys2Proof.Machine.execSubRegRm reg rm s
  | .subRegMem reg rm => Sys2Proof.Machine.execSubRegMem reg rm s
  | .subEaxImm imm => Sys2Proof.Machine.execSubEaxImm imm s
  | .xorRmReg rm reg => Sys2Proof.Machine.execXorRmReg rm reg s
  | .xorMemReg rm reg => Sys2Proof.Machine.execXorMemReg rm reg s
  | .xorRegRm reg rm => Sys2Proof.Machine.execXorRegRm reg rm s
  | .xorRegMem reg rm => Sys2Proof.Machine.execXorRegMem reg rm s
  | .xorEaxImm imm => Sys2Proof.Machine.execXorEaxImm imm s
  | .cmpRmReg rm reg => Sys2Proof.Machine.execCmpRmReg rm reg s
  | .cmpMemReg rm reg => Sys2Proof.Machine.execCmpMemReg rm reg s
  | .cmpRegRm reg rm => Sys2Proof.Machine.execCmpRegRm reg rm s
  | .cmpRegMem reg rm => Sys2Proof.Machine.execCmpRegMem reg rm s
  | .cmpEaxImm imm => Sys2Proof.Machine.execCmpEaxImm imm s
  | .movRegCr0 rm => Sys2Proof.Machine.execMovRegCr0 rm s
  | .movRegCr4 rm => Sys2Proof.Machine.execMovRegCr4 rm s
  | .movCr4Reg rm => Sys2Proof.Machine.execMovCr4Reg rm s
  | .movCr0Reg rm => Sys2Proof.Machine.execMovCr0Reg rm s
  | .wrmsr => Sys2Proof.Machine.execWrmsr s
  | .rdtsc => Sys2Proof.Machine.execRdtsc s
  | .rdmsr => Sys2Proof.Machine.execRdmsr s
  | .cpuid => Sys2Proof.Machine.execCpuid s
  | .incReg r => Sys2Proof.Machine.execIncReg r s
  | .decReg r => Sys2Proof.Machine.execDecReg r s
  | .pushReg r => Sys2Proof.Machine.execPushReg r s
  | .popReg r => Sys2Proof.Machine.execPopReg r s
  | .pushf => Sys2Proof.Machine.execPushf s
  | .popf => Sys2Proof.Machine.execPopf s
  | .jccRel8 cc rel => Sys2Proof.Machine.execJccRel8 cc rel s
  | .testRmReg rm reg => Sys2Proof.Machine.execTestRmReg rm reg s
  | .testMemReg rm reg => Sys2Proof.Machine.execTestMemReg rm reg s
  | .movRmReg rm reg => Sys2Proof.Machine.execMovRmReg rm reg s
  | .movMemReg rm reg => Sys2Proof.Machine.execMovMemReg rm reg s
  | .movRegRm reg rm => Sys2Proof.Machine.execMovRegRm reg rm s
  | .movRegMem reg rm => Sys2Proof.Machine.execMovRegMem reg rm s
  | .nop => Sys2Proof.Machine.execNop s
  | .pushfd => Sys2Proof.Machine.execPushfd s
  | .popfd => Sys2Proof.Machine.execPopfd s
  | .sahf => Sys2Proof.Machine.execSahf s
  | .lahf => Sys2Proof.Machine.execLahf s
  | .movRegImm r imm => Sys2Proof.Machine.execMovRegImm r imm s
  | .ret => Sys2Proof.Machine.execRet s
  | .iretd => Sys2Proof.Machine.execIretd s
  | .fxch st => Sys2Proof.Machine.execFxch st s
  | .callRel32 rel => Sys2Proof.Machine.execCallRel32 rel s
  | .jmpRel32 rel => Sys2Proof.Machine.execJmpRel32 rel s
  | .jmpRel8 rel => Sys2Proof.Machine.execJmpRel8 rel s
  | .hlt => Sys2Proof.Machine.execHlt s

end Sys2Proof.Machine
end

