-- ==== Sys2Proof/Machine/Step.lean ====
section
/-! DEFINITION. One step of the machine, and the state in which the next step runs a given table word. -/

namespace Sys2Proof.Machine

/-- One step: what the boundary takes, or else one instruction in an admitted mode, after the code breakpoint (R9, R140,
R225, R238, R280). That a latched request, or the halted processor's idling, comes before the refusal of a mode (R71) and before
a matching code breakpoint (R238) is a DESIGN CHOICE: the source gives no order (N20; logs 13 and 27). -/
def step (s : State) : Host.Outcome State Fault Refusal :=
  match boundaryEvent s with
  | some r => r
  | none =>
    andThen (modeAdmitted s) fun _ =>
    andThen (codeBreakpointCheck s) fun _ =>
    andThen (fetch s) fun i =>
    andThen (exec i s) fun t =>
    finish i s t

/-- The state whose next step runs the instruction of a table word: a launch with its bytes at EIP (logs 5 and 6). -/
def State.withFetchWord (s : State) (nbits w : Nat) : State := launch s ((tableBytes nbits w).take fetchLength)

end Sys2Proof.Machine
end

