-- ==== Sys2Proof/Safety.lean ====
section
/-! DEFINITION. The vocabulary of the statements: the invariant of every state, the launch premises of R274, when memory may be
read and written, what an instruction leaves unchanged, and the flags of an exact result. -/

namespace Sys2Proof.Machine

/-- The reserved bits of EFLAGS hold their constants (R15; 95_test_vectors.md section 4, invariant 1). -/
def EflagsFixed (e : Word) : Prop := e &&& eflagsFixed0 = 0#32 ∧ e &&& eflagsFixed1 = eflagsFixed1

/-- With CR4.VME and CR4.PVI both 0, VIF and VIP are 0 (R16, R17; invariant 3). -/
def VirtualFlagsForced (s : State) : Prop :=
  cr4Vme s.cr4 = false → cr4Pvi s.cr4 = false → getFlag s.eflags .vif = false ∧ getFlag s.eflags .vip = false

/-- What holds of every state of a run (95_test_vectors.md section 4, invariants 1 to 4), ET = 1 (R26), and memory's
canonical form. -/
def RunInvariant (s : State) : Prop :=
  EflagsFixed s.eflags ∧ s.cr4 &&& cr4Reserved = 0#32 ∧ VirtualFlagsForced s ∧ getFlag s.eflags .vm = false ∧
    cr0Et s.cr0 = true ∧ Memory.wf s.mem = true

/-- The launch premises of R274 that the state carries. -/
def Launch (s : State) : Prop :=
  RunInvariant s ∧ cr0Pe s.cr0 = true ∧ cr0Pg s.cr0 = false ∧ getFlag s.eflags .tf = false ∧ inCode s.map s.eip.toNat = true ∧
    s.inputs = { flush := 0, init := false, smi := false, rs := false } ∧ s.halted = false ∧
    s.dregs.code0 = false ∧ s.dregs.code1 = false ∧ s.dregs.code2 = false ∧ s.dregs.code3 = false

/-- The run has ended successfully: HLT has run at CPL 0 (R280). -/
def Ended (s : State) : Prop := s.halted = true

/-- Nothing is to be taken at the instruction boundary and the mode is admitted: the next step runs an instruction unless a
code breakpoint matches. -/
def Running (s : State) : Prop :=
  s.inputs = { flush := 0, init := false, smi := false, rs := false } ∧ s.halted = false ∧
    cr0Pe s.cr0 = true ∧ cr0Pg s.cr0 = false ∧ getFlag s.eflags .vm = false ∧ getFlag s.eflags .tf = false

/-- The alignment check of R65 is active. -/
def AlignmentActive (s : State) : Prop :=
  cr0Pe s.cr0 = true ∧ s.cpl = 3#2 ∧ getFlag s.eflags .ac = true ∧ cr0Am s.cr0 = true

/-- An access of `n` bytes at `a` passes the alignment check and does not pass 2^32 (R65, R66). -/
def Reachable (s : State) (a : Word) (n : Nat) : Prop :=
  (AlignmentActive s → a.toNat % n = 0) ∧ a.toNat + n ≤ 4294967296

/-- `MemRead(a, n)` answers a value (R66). -/
def Readable (s : State) (a : Word) (n : Nat) : Prop :=
  Reachable s a n ∧ ∀ k, k < n → mapped s.map (a.toNat + k) = true

/-- `MemWrite(a, n, v)` stores (R66). -/
def Writable (s : State) (a : Word) (n : Nat) : Prop :=
  Reachable s a n ∧ ∀ k, k < n → inData s.map (a.toNat + k) = true

/-- Every general register but those listed is unchanged. -/
def SameRegs (s t : State) (except : List Reg) : Prop := ∀ r, r ∉ except → t.reg r = s.reg r

/-- Every byte of memory outside the `n` bytes from `a` on reads as before; with `n = 0`, all of memory does. -/
def SameMemory (s t : State) (a n : Nat) : Prop :=
  ∀ x, ¬(a ≤ x ∧ x < a + n) → Memory.readByte t.mem x = Memory.readByte s.mem x

/-- The memory, from `a` on, holds the four bytes of `v`, least significant first (R62). -/
def Holds32 (t : State) (a : Nat) (v : Word) : Prop :=
  ∀ k, k < 4 → Memory.readByte t.mem (a + k) = v.extractLsb' (8 * k) 8

/-- The memory, from `a` on, holds the two bytes of `v`, least significant first (R62). -/
def Holds16 (t : State) (a : Nat) (v : Half) : Prop :=
  ∀ k, k < 2 → Memory.readByte t.mem (a + k) = v.extractLsb' (8 * k) 8

/-- The value of `n` bytes of memory from `a` on, little-endian, as a number (R62). -/
def memValue (s : State) (a : Nat) : Nat → Nat
  | 0 => 0
  | n + 1 => (Memory.readByte s.mem a).toNat + 256 * memValue s (a + 1) n

/-- EFLAGS of `t`: the reserved bits are constants, and every other bit outside the list is as in `s`. -/
def SameFlags (s t : State) (except : List Nat) : Prop :=
  EflagsFixed t.eflags ∧
    ∀ i, i < 32 → i ∉ except → eflagsFixed0.getLsbD i = false → eflagsFixed1.getLsbD i = false →
      t.eflags.getLsbD i = s.eflags.getLsbD i

/-- CF, PF, AF, ZF, SF, OF. -/
def statusBits : List Nat := [0, 2, 4, 6, 7, 11]

/-- The bit of RF, which every completed instruction but IRETD clears (R149). -/
def rfBit : Nat := 16

/-- Control registers, selector, debug registers, map, latched requests and the halt state are unchanged. -/
def SameSystem (s t : State) : Prop :=
  t.cr0 = s.cr0 ∧ t.cr4 = s.cr4 ∧ t.csSel = s.csSel ∧ t.dregs = s.dregs ∧ t.map = s.map ∧ t.inputs = s.inputs ∧
    t.halted = s.halted

/-- The frame of an instruction other than IRETD: outside the listed registers, the listed EFLAGS bits and the `n` bytes of
memory from `a` on nothing but EIP changes, and RF is 0 afterwards (R149). -/
def Frame (s t : State) (regs : List Reg) (bits : List Nat) (a n : Nat) : Prop :=
  SameRegs s t regs ∧ SameFlags s t (rfBit :: bits) ∧ getFlag t.eflags .rf = false ∧ SameSystem s t ∧ t.fpu = s.fpu ∧
    SameMemory s t a n

/-- The number of 1 bits in `r[7:0]` is even (R21). -/
def EvenParity (r : Word) : Prop := ((List.range 8).countP fun i => r.getLsbD i) % 2 = 0

/-- SF, ZF and PF are those of the result `r` (R21). -/
def ResultFlags (t : State) (r : Word) : Prop :=
  (getFlag t.eflags .sf = true ↔ r.toInt < 0) ∧ (getFlag t.eflags .zf = true ↔ r = 0#32) ∧
    (getFlag t.eflags .pf = true ↔ EvenParity r)

/-- The flags of an addition as R21 says them: CF the carry out, OF when the signed sum does not fit, AF the carry out of
bit 3. -/
def AddFlags (t : State) (a b r : Word) : Prop :=
  (getFlag t.eflags .cf = true ↔ 2 ^ 32 ≤ a.toNat + b.toNat) ∧
    (getFlag t.eflags .of = true ↔ a.toInt + b.toInt ≠ r.toInt) ∧
    (getFlag t.eflags .af = true ↔ 16 ≤ a.toNat % 16 + b.toNat % 16) ∧ ResultFlags t r

/-- The flags of a subtraction as R21 says them: CF the borrow, OF when the signed difference does not fit, AF the borrow
into bit 3. -/
def SubFlags (t : State) (a b r : Word) : Prop :=
  (getFlag t.eflags .cf = true ↔ a.toNat < b.toNat) ∧
    (getFlag t.eflags .of = true ↔ a.toInt - b.toInt ≠ r.toInt) ∧
    (getFlag t.eflags .af = true ↔ a.toNat % 16 < b.toNat % 16) ∧ ResultFlags t r

/-- The flags of a logic operation but AF, which is undefined (R180, U7). -/
def LogicFlags (t : State) (r : Word) : Prop :=
  getFlag t.eflags .cf = false ∧ getFlag t.eflags .of = false ∧ ResultFlags t r

/-- The instruction completes: `exec` answers a next state, and it satisfies `P`. -/
def Completes (i : Instr) (s : State) (P : State → Prop) : Prop := ∃ t, exec i s = .next t ∧ P t

/-- The instruction ends the run with this exception and error code, reported at its own address (R240). -/
def Faults (i : Instr) (s : State) (x : Exception) (code : Option Word) : Prop :=
  ∃ image, exec i s = .fault (.exception x code s.eip image)

/-- The instruction is refused for this reason, at its own address (R280 item 3). -/
def Refuses (i : Instr) (s : State) (reason : RefusalReason) : Prop := exec i s = .refused (.because reason s.eip)

/-- An instruction of `n` bytes completes with `v` in register `d`, the flags as `flags` says, EIP past the instruction, and
nothing else changed but the EFLAGS bits listed. -/
def RegisterResult (i : Instr) (n : Nat) (s : State) (d : Reg) (v : Word) (bits : List Nat) (flags : State → Prop) : Prop :=
  Completes i s fun t =>
    t.reg d = v ∧ flags t ∧ t.eip = s.eip + BitVec.ofNat 32 n ∧ Frame s t [d] bits 0 0

/-- An instruction of `n` bytes completes with `v` in the four bytes from `a` on, the flags as `flags` says, EIP past the
instruction, and nothing else changed but the EFLAGS bits listed. -/
def MemoryResult (i : Instr) (n : Nat) (s : State) (a v : Word) (bits : List Nat) (flags : State → Prop) : Prop :=
  Completes i s fun t =>
    Holds32 t a.toNat v ∧ flags t ∧ t.eip = s.eip + BitVec.ofNat 32 n ∧ Frame s t [] bits a.toNat 4

/-- An instruction of `n` bytes completes writing flags only. -/
def FlagsResult (i : Instr) (n : Nat) (s : State) (flags : State → Prop) : Prop :=
  Completes i s fun t => flags t ∧ t.eip = s.eip + BitVec.ofNat 32 n ∧ Frame s t [] statusBits 0 0

/-- `(a + b) mod 2^32`. -/
def sumOf (a b : Word) : Word := BitVec.ofNat 32 (a.toNat + b.toNat)

/-- `(a - b) mod 2^32`. -/
def differenceOf (a b : Word) : Word := BitVec.ofNat 32 (2 ^ 32 + a.toNat - b.toNat)

/-- The 32-bit value that memory holds at an address, little-endian (R62). -/
def wordAt (s : State) (a : Word) : Word := BitVec.ofNat 32 (memValue s a.toNat 4)

/-- The bytes `bs` stand in `MEM.code` from address `a` on, below 2^32. -/
def CodeAt (s : State) (a : Nat) (bs : List Byte) : Prop :=
  ∀ k, (h : k < bs.length) →
    a + k < 4294967296 ∧ inCode s.map (a + k) = true ∧ Memory.readByte s.mem (a + k) = bs[k]

/-- Whether each condition of Jcc holds, from the table of R197. -/
def CondTable (s : State) : Cond → Prop
  | .o => getFlag s.eflags .of = true
  | .no => getFlag s.eflags .of = false
  | .b => getFlag s.eflags .cf = true
  | .ae => getFlag s.eflags .cf = false
  | .z => getFlag s.eflags .zf = true
  | .nz => getFlag s.eflags .zf = false
  | .be => getFlag s.eflags .cf = true ∨ getFlag s.eflags .zf = true
  | .a => getFlag s.eflags .cf = false ∧ getFlag s.eflags .zf = false
  | .s => getFlag s.eflags .sf = true
  | .ns => getFlag s.eflags .sf = false
  | .p => getFlag s.eflags .pf = true
  | .np => getFlag s.eflags .pf = false
  | .l => getFlag s.eflags .sf ≠ getFlag s.eflags .of
  | .ge => getFlag s.eflags .sf = getFlag s.eflags .of
  | .le => getFlag s.eflags .zf = true ∨ getFlag s.eflags .sf ≠ getFlag s.eflags .of
  | .g => getFlag s.eflags .zf = false ∧ getFlag s.eflags .sf = getFlag s.eflags .of

/-- The instruction, when it completes, sets EIP by a control transfer and not to its next address (R147, R197 to R201). -/
def Transfers (i : Instr) (s : State) : Prop :=
  (∃ rel, i = .jmpRel8 rel) ∨ (∃ rel, i = .jmpRel32 rel) ∨ (∃ rel, i = .callRel32 rel) ∨ i = .ret ∨ i = .iretd ∨
    ∃ cc rel, i = .jccRel8 cc rel ∧ CondTable s cc

/-- The condition under which the instructions of R140 are admitted. -/
def FlagStackAdmitted (s : State) : Prop :=
  cr4Vme s.cr4 = false ∧ cr4Pvi s.cr4 = false ∧ getFlag s.eflags .tf = false

/-- EFLAGS after a pop of the value `v`: the bits listed come from `v`, IF when CPL ≤ IOPL, IOPL when CPL = 0; RF is 0 unless
listed; every other bit is kept, and the reserved bits are constants (R145 to R147, R149). -/
def PoppedFlags (s t : State) (v : Nat) (always : List Nat) : Prop :=
  EflagsFixed t.eflags ∧
    ∀ i, i < 32 → eflagsFixed0.getLsbD i = false → eflagsFixed1.getLsbD i = false →
      t.eflags.getLsbD i =
        if i ∈ always then v.testBit i
        else if i = 9 ∧ s.cpl ≤ s.iopl then v.testBit i
        else if (i = 12 ∨ i = 13) ∧ s.cpl = 0#2 then v.testBit i
        else if i = rfBit then false
        else s.eflags.getLsbD i

/-- CF, PF, AF, ZF, SF, TF, DF, OF, NT: what POPF writes at any privilege level (R145). -/
def userBits16 : List Nat := [0, 2, 4, 6, 7, 8, 10, 11, 14]

/-- `userBits16`, AC and ID: what POPFD writes at any privilege level (R146). -/
def userBits32 : List Nat := [18, 21] ++ userBits16

/-- The physical register that the index `i` names when TOP is bits 13:11 of the status word (R47). -/
def stackIndexOf (s : State) (i : Nat) : Nat := (s.fpu.fsw.toNat / 2048 % 8 + i) % 8

/-- The 2-bit tag of physical register `p`, bits 2p+1:2p of the tag word (PRESUMED, log 41), as a number (R47). -/
def tagValue (ftw : Half) (p : Nat) : Nat := ftw.toNat / 4 ^ p % 4

end Sys2Proof.Machine
end

