-- ==== Sys2Proof/Certificates/Slice0/Obligations.lean ====
section
/-! DEFINITION. The statements for the provers. Each is a proposition about the machine; nothing is proved here. -/

open Sys2Proof Sys2Proof.Machine

/-! ### Encoding -/

/-- Every well-formed instruction, every operand at every value its encoding admits, decodes from its own encoding, whatever
bytes follow (R111, R117, R118). -/
def Obligations.DecodeOfEncodeIsTheInstruction : Prop :=
  ∀ (i : Instr) (rest : List Byte), i.wellFormed = true → decode (encode i ++ rest) = .ok i rest

/-- Whatever the decoder accepts is the encoding of the well-formed instruction it answers, so no two rows share bytes and no
byte of an instruction is ignored (R118, R121). -/
def Obligations.DecodeAcceptsOnlyEncodings : Prop :=
  ∀ (bytes rest : List Byte) (i : Instr), decode bytes = .ok i rest → i.wellFormed = true ∧ bytes = encode i ++ rest

/-- A few words written out from the encodings of R117 (95_test_vectors.md 2.1) decode to what they stand for. -/
def Obligations.SampleWordsDecode : Prop :=
  decode [0x01#8, 0xD8#8] = .ok (.addRmReg .eax .ebx) [] ∧
  decode [0x8B#8, 0x0B#8] = .ok (.movRegMem .ecx .ebx) [] ∧
  decode [0x05#8, 0x78#8, 0x56#8, 0x34#8, 0x12#8] = .ok (.addEaxImm 0x12345678#32) [] ∧
  decode [0x0F#8, 0x20#8, 0xE3#8] = .ok (.movRegCr4 .ebx) [] ∧
  decode [0x0F#8, 0x22#8, 0xE0#8] = .ok (.movCr4Reg .eax) [] ∧
  decode [0xD9#8, 0xC9#8] = .ok (.fxch 1) [] ∧
  decode [0x66#8, 0x9C#8] = .ok .pushf [] ∧
  decode [0x75#8, 0xFE#8] = .ok (.jccRel8 .nz 0xFE#8) []

/-- 66H is admitted only before 9C and 9D, and every other prefix byte is refused, whatever follows (R112). The names of the
refusals are the model's (log 38). -/
def Obligations.OtherPrefixesAreRefused : Prop :=
  (∀ (b : Byte) (rest : List Byte), b ≠ 0x9C#8 → b ≠ 0x9D#8 →
    decode (0x66#8 :: b :: rest) = .bad .prefixNotAdmitted) ∧
  ∀ (b : Byte) (rest : List Byte),
    b ∈ [0x67#8, 0x26#8, 0x2E#8, 0x36#8, 0x3E#8, 0x64#8, 0x65#8, 0xF0#8, 0xF2#8, 0xF3#8] →
      decode (b :: rest) = .bad .opcodeNotAdmitted

/-! ### Reset, the invariant, the step -/

/-- After reset EFLAGS is 0000 0002H (R23). -/
def Obligations.EflagsAfterReset : Prop := State.reset.eflags = 0x00000002#32

/-- After reset CR4 is 0; hence VIF and VIP are 0, and from the reset state RDTSC executes at every privilege level (R36). -/
def Obligations.ControlRegisterFourAfterReset : Prop :=
  State.reset.cr4 = 0#32 ∧ getFlag State.reset.eflags .vif = false ∧ getFlag State.reset.eflags .vip = false ∧
    ∀ sel : Half, Completes .rdtsc { State.reset with csSel := sel } fun _ => True

/-- The reset state has the invariant: the reserved bits of EFLAGS and CR4, VIF, VIP, VM, ET, and memory's canonical form, which is
the model's own (log 4). -/
def Obligations.ResetHasTheInvariant : Prop := RunInvariant State.reset

/-- Every step keeps the invariant of 95_test_vectors.md section 4, items 1 to 4, ET = 1 (R26), and memory's canonical form
(log 4). -/
def Obligations.EveryStepKeepsTheInvariant : Prop := ∀ s t : State, RunInvariant s → step s = .next t → RunInvariant t

/-- Unless INIT is taken, no step changes CR0, the CS selector (so the privilege level), the map, or any byte of `MEM.code`
(95_test_vectors.md section 4, item 7; R78). That these parameters of the spec are fields of State is the model's choice
(logs 3, 24, 36, 40). Memory in canonical form is a premise, kept by `EveryStepKeepsTheInvariant`. -/
def Obligations.RunConstantsAndCodeNeverChange : Prop :=
  ∀ s t : State, Memory.wf s.mem = true → s.inputs.init = false → step s = .next t →
    t.cr0 = s.cr0 ∧ t.csSel = s.csSel ∧ t.cpl = s.cpl ∧ t.map = s.map ∧
      ∀ a, inCode s.map a = true → Memory.readByte t.mem a = Memory.readByte s.mem a

/-- When the bytes at EIP are the encoding of a well-formed instruction, in `MEM.code` and below 2^32, nothing is to be taken
at the boundary, the mode is admitted, and no code breakpoint matches or RF = 1, the step is that instruction's meaning; but where the instruction ends at FFFF FFFFH and
would fall through, a next state is refused instead, since EIP would wrap past 2^32 (R280, R12). Where between R280 and D27 the
line runs is the model's choice (log 43). -/
def Obligations.StepRunsTheInstructionAtEip : Prop :=
  ∀ (s : State) (i : Instr), i.wellFormed = true → Running s → (breakpointPins s = 0#4 ∨ getFlag s.eflags .rf = true) →
    CodeAt s s.eip.toNat (encode i) →
      (s.eip.toNat + (encode i).length < 4294967296 ∨ Transfers i s → step s = exec i s) ∧
      (s.eip.toNat + (encode i).length = 4294967296 → ¬Transfers i s →
        (∀ t, exec i s = .next t → step s = .refused (.because .addressWrap s.eip)) ∧
        ((∀ t, exec i s ≠ .next t) → step s = exec i s))

/-- A matching code breakpoint is the fault of highest priority: it is reported whatever the bytes at EIP are, with RF = 0 in
the image, and RF = 1 suppresses it (R225, R19, R238). The programming of the four registers is the model's own (log 10),
the image is deduced (log 9). -/
def Obligations.CodeBreakpointComesFirst : Prop :=
  ∀ s : State, Running s →
    ((∃ e ∈ [(s.dregs.code0, s.dregs.dr0), (s.dregs.code1, s.dregs.dr1), (s.dregs.code2, s.dregs.dr2),
        (s.dregs.code3, s.dregs.dr3)], e = (true, s.eip)) → getFlag s.eflags .rf = false →
      ∃ image, step s = .fault (.exception .codeBreakpoint none s.eip image) ∧ getFlag image .rf = false ∧
        EflagsFixed image) ∧
    (getFlag s.eflags .rf = true → ∀ code eip image, step s ≠ .fault (.exception .codeBreakpoint code eip image))

/-- Real mode, paging, virtual-8086 mode and single-stepping are refused by the step by name, whatever stands at EIP, when
nothing is to be taken at the boundary (R22, R71, R140; scope table). The order of the tests is the model's (log 13). -/
def Obligations.ModesOutsideTheScopeAreRefused : Prop :=
  ∀ s : State, s.inputs = { flush := 0, init := false, smi := false, rs := false } → s.halted = false →
    (cr0Pe s.cr0 = false → step s = .refused (.because .realModeNotAdmitted s.eip)) ∧
    (cr0Pe s.cr0 = true → cr0Pg s.cr0 = true → step s = .refused (.because .pagingNotAdmitted s.eip)) ∧
    (cr0Pe s.cr0 = true → cr0Pg s.cr0 = false → getFlag s.eflags .vm = true →
      step s = .refused (.because .virtual8086NotAdmitted s.eip)) ∧
    (cr0Pe s.cr0 = true → cr0Pg s.cr0 = false → getFlag s.eflags .vm = false → getFlag s.eflags .tf = true →
      step s = .refused (.because .singleStepNotAdmitted s.eip))

/-- INIT, when no other request is latched, performs the reset function and keeps the floating-point state; memory is not the
processor's and stays (R95, R271). When INIT is taken is the model's choice (log 27); the reset values other than those of
EFLAGS and CR4 are presumed (log 1). -/
def Obligations.InitResetsAllButFloatingPoint : Prop :=
  ∀ s : State, s.inputs = { flush := 0, init := true, smi := false, rs := false } →
    ∃ t, step s = .next t ∧ t.fpu = s.fpu ∧ t.eflags = 0x00000002#32 ∧ t.cr4 = 0#32 ∧ t.eip = State.reset.eip ∧
      t.cr0 = State.reset.cr0 ∧ t.csSel = State.reset.csSel ∧ (∀ r, t.reg r = State.reset.reg r) ∧
      t.dregs = State.reset.dregs ∧ t.inputs = State.reset.inputs ∧ t.halted = false ∧
      ∀ a, Memory.readByte t.mem a = Memory.readByte s.mem a

/-- Every falling edge of FLUSH# latches one request, any other change of the pin none; between instructions one request is
taken, and it changes no register, flag or byte of memory (R105, R231). The order among requests, and that they come before all
else of a step, is the model's (log 27). -/
def Obligations.FlushIsTakenOnceAndInvisible : Prop :=
  (∀ (s : State) (before after : Bool),
    flushPin before after s =
      { s with inputs :=
          { s.inputs with flush := s.inputs.flush + if before = true ∧ after = false then 1 else 0 } }) ∧
  ∀ s : State, 0 < s.inputs.flush → s.inputs.smi = false → s.inputs.rs = false →
    ∃ t, step s = .next t ∧ t.inputs.flush + 1 = s.inputs.flush ∧ t.inputs.init = s.inputs.init ∧ t.regs = s.regs ∧ t.eip = s.eip ∧
      t.eflags = s.eflags ∧ t.cr0 = s.cr0 ∧ t.cr4 = s.cr4 ∧ t.fpu = s.fpu ∧ t.halted = s.halted ∧
      ∀ a, Memory.readByte t.mem a = Memory.readByte s.mem a

/-! ### Exceptions -/

/-- Every exception a step raises is reported at the address of its instruction with the code its rule gives, and only the
four that the model raises occur; the image of EFLAGS it stores has the reserved bits at their constants, and RF = 1 unless
the exception is the code breakpoint (R15, R19, R222, R223, R227, R239, R240). The image is deduced (log 9). Every refusal a step
answers carries a reason and the address of its instruction too (R280). -/
def Obligations.FaultsArePreciseAndCarryTheStoredImage : Prop :=
  (∀ (s : State) (r : Refusal), step s = .refused r → ∃ reason, r = .because reason s.eip) ∧
  ∀ (s : State) (x : Exception) (code : Option Word) (eip image : Word),
    step s = .fault (.exception x code eip image) →
      eip = s.eip ∧ EflagsFixed image ∧ (x ≠ .codeBreakpoint → getFlag image .rf = true) ∧
        ((x = .generalProtection ∧ code = some 0#32) ∨ (x = .alignmentCheck ∧ code = some 0#32) ∨
          (x = .deviceNotAvailable ∧ code = none) ∨ (x = .codeBreakpoint ∧ code = none))

/-- No instruction raises the alignment-check exception except in protected mode, at privilege level 3, with EFLAGS.AC and
CR0.AM both 1 (R20, R65, R223). -/
def Obligations.AlignmentCheckOnlyAtLevelThree : Prop :=
  ∀ (i : Instr) (s : State) (code : Option Word) (eip image : Word),
    exec i s = .fault (.exception .alignmentCheck code eip image) →
      cr0Pe s.cr0 = true ∧ s.cpl = 3#2 ∧ getFlag s.eflags .ac = true ∧ cr0Am s.cr0 = true

/-- When the check is active, every instruction with a memory operand or a stack access raises alignment check with code 0 on
a misaligned address (R65, R223). -/
def Obligations.MisalignedAccessesRaiseAlignmentCheck : Prop :=
  ∀ (s : State) (m r : Reg) (rel : Word), AlignmentActive s →
    ((s.reg m).toNat % 4 ≠ 0 →
      ∀ i ∈ [Instr.addMemReg m r, .addRegMem r m, .orMemReg m r, .orRegMem r m, .andMemReg m r, .andRegMem r m,
          .subMemReg m r, .subRegMem r m, .xorMemReg m r, .xorRegMem r m, .cmpMemReg m r, .cmpRegMem r m,
          .testMemReg m r, .movMemReg m r, .movRegMem r m], Faults i s .alignmentCheck (some 0#32)) ∧
    ((s.reg .esp).toNat % 4 ≠ 0 →
      (∀ i ∈ [Instr.pushReg r, .popReg r, .callRel32 rel, .ret], Faults i s .alignmentCheck (some 0#32)) ∧
      (FlagStackAdmitted s → ∀ i ∈ [Instr.pushfd, .popfd], Faults i s .alignmentCheck (some 0#32)) ∧
      (FlagStackAdmitted s → getFlag s.eflags .nt = false → (s.reg .esp).toNat + 12 ≤ 4294967296 →
        Faults .iretd s .alignmentCheck (some 0#32))) ∧
    ((s.reg .esp).toNat % 2 ≠ 0 → FlagStackAdmitted s →
      ∀ i ∈ [Instr.pushf, .popf], Faults i s .alignmentCheck (some 0#32))

/-- The privileged instructions raise general protection with error code 0 at every privilege level other than 0
(R222, R246). -/
def Obligations.PrivilegedInstructionsFaultOutsideLevelZero : Prop :=
  ∀ (s : State) (r : Reg), s.cpl ≠ 0#2 →
    ∀ i ∈ [Instr.movRegCr0 r, .movRegCr4 r, .movCr4Reg r, .rdmsr, .wrmsr, .hlt],
      Faults i s .generalProtection (some 0#32)

/-- A handler that finds the frame of a fault on its stack (the address of the faulting instruction, the selector, the stored
image) returns by IRETD to that instruction with RF = 1 and the flags that any privilege level may load as they were
(R19, R229, R239, R241). That the image holds those flags as they were is not in R239: the model's deduction (log 9). That an
exception ends the run and the frame comes from outside is log 8. -/
def Obligations.HandlerReturnRestartsTheInstruction : Prop :=
  ∀ (i : Instr) (s u : State) (x : Exception) (code : Option Word) (eip image : Word),
    exec i s = .fault (.exception x code eip image) → getFlag s.eflags .vm = false →
    FlagStackAdmitted u → getFlag u.eflags .nt = false → u.csSel = s.csSel →
    (u.reg .esp).toNat + 12 ≤ 4294967296 → Readable u (u.reg .esp) 4 → Readable u (u.reg .esp + 4#32) 4 →
    Readable u (u.reg .esp + 8#32) 4 →
    wordAt u (u.reg .esp) = eip → (wordAt u (u.reg .esp + 4#32)).extractLsb' 0 16 = s.csSel →
    wordAt u (u.reg .esp + 8#32) = image →
      Completes .iretd u fun t =>
        t.eip = s.eip ∧ getFlag t.eflags .rf = true ∧
          ∀ k ∈ userBits32, t.eflags.getLsbD k = s.eflags.getLsbD k

/-! ### Arithmetic and logic -/

/-- ADD into a register, from a register in both encodings, and into EAX from an immediate: the sum modulo 2^32, the six
flags, and nothing else (R188, R180, R21). -/
def Obligations.AddToRegister : Prop :=
  ∀ (s : State) (d q : Reg) (imm : Word),
    RegisterResult (.addRmReg d q) 2 s d (sumOf (s.reg d) (s.reg q)) statusBits
      (fun t => AddFlags t (s.reg d) (s.reg q) (sumOf (s.reg d) (s.reg q))) ∧
    RegisterResult (.addRegRm d q) 2 s d (sumOf (s.reg d) (s.reg q)) statusBits
      (fun t => AddFlags t (s.reg d) (s.reg q) (sumOf (s.reg d) (s.reg q))) ∧
    RegisterResult (.addEaxImm imm) 5 s .eax (sumOf (s.reg .eax) imm) statusBits
      (fun t => AddFlags t (s.reg .eax) imm (sumOf (s.reg .eax) imm))

/-- SUB into a register, in the same three forms (R191, R180, R21). -/
def Obligations.SubtractFromRegister : Prop :=
  ∀ (s : State) (d q : Reg) (imm : Word),
    RegisterResult (.subRmReg d q) 2 s d (differenceOf (s.reg d) (s.reg q)) statusBits
      (fun t => SubFlags t (s.reg d) (s.reg q) (differenceOf (s.reg d) (s.reg q))) ∧
    RegisterResult (.subRegRm d q) 2 s d (differenceOf (s.reg d) (s.reg q)) statusBits
      (fun t => SubFlags t (s.reg d) (s.reg q) (differenceOf (s.reg d) (s.reg q))) ∧
    RegisterResult (.subEaxImm imm) 5 s .eax (differenceOf (s.reg .eax) imm) statusBits
      (fun t => SubFlags t (s.reg .eax) imm (differenceOf (s.reg .eax) imm))

/-- CMP of registers and of EAX with an immediate: the flags of the subtraction, no register written (R193). -/
def Obligations.CompareRegisters : Prop :=
  ∀ (s : State) (d q : Reg) (imm : Word),
    FlagsResult (.cmpRmReg d q) 2 s
      (fun t => SubFlags t (s.reg d) (s.reg q) (differenceOf (s.reg d) (s.reg q))) ∧
    FlagsResult (.cmpRegRm d q) 2 s
      (fun t => SubFlags t (s.reg d) (s.reg q) (differenceOf (s.reg d) (s.reg q))) ∧
    FlagsResult (.cmpEaxImm imm) 5 s
      (fun t => SubFlags t (s.reg .eax) imm (differenceOf (s.reg .eax) imm))

/-- OR, AND, XOR into a register in their three forms each: CF = OF = 0, SF, ZF, PF from the result, AF free
(R189, R190, R192, R180). -/
def Obligations.LogicIntoRegister : Prop :=
  ∀ (s : State) (d q : Reg) (imm : Word),
    (∀ p ∈ [(Instr.orRmReg d q, s.reg d ||| s.reg q), (.orRegRm d q, s.reg d ||| s.reg q),
        (.andRmReg d q, s.reg d &&& s.reg q), (.andRegRm d q, s.reg d &&& s.reg q),
        (.xorRmReg d q, s.reg d ^^^ s.reg q), (.xorRegRm d q, s.reg d ^^^ s.reg q)],
      RegisterResult p.1 2 s d p.2 statusBits (fun t => LogicFlags t p.2)) ∧
    ∀ p ∈ [(Instr.orEaxImm imm, s.reg .eax ||| imm), (.andEaxImm imm, s.reg .eax &&& imm),
        (.xorEaxImm imm, s.reg .eax ^^^ imm)],
      RegisterResult p.1 5 s .eax p.2 statusBits (fun t => LogicFlags t p.2)

/-- TEST of registers and of memory with a register: the flags of AND, nothing else written (R194). -/
def Obligations.TestWritesFlagsOnly : Prop :=
  ∀ (s : State) (d q m : Reg),
    FlagsResult (.testRmReg d q) 2 s (fun t => LogicFlags t (s.reg d &&& s.reg q)) ∧
    (Readable s (s.reg m) 4 →
      FlagsResult (.testMemReg m q) 2 s (fun t => LogicFlags t (wordAt s (s.reg m) &&& s.reg q)))

/-- ADD, SUB and CMP of a register with a memory source (R188, R191, R193). -/
def Obligations.ArithmeticFromMemory : Prop :=
  ∀ (s : State) (d m : Reg), Readable s (s.reg m) 4 →
    RegisterResult (.addRegMem d m) 2 s d (sumOf (s.reg d) (wordAt s (s.reg m))) statusBits
      (fun t => AddFlags t (s.reg d) (wordAt s (s.reg m)) (sumOf (s.reg d) (wordAt s (s.reg m)))) ∧
    RegisterResult (.subRegMem d m) 2 s d (differenceOf (s.reg d) (wordAt s (s.reg m))) statusBits
      (fun t => SubFlags t (s.reg d) (wordAt s (s.reg m)) (differenceOf (s.reg d) (wordAt s (s.reg m)))) ∧
    FlagsResult (.cmpRegMem d m) 2 s
      (fun t => SubFlags t (s.reg d) (wordAt s (s.reg m)) (differenceOf (s.reg d) (wordAt s (s.reg m))))

/-- OR, AND and XOR into a register from memory (R189, R190, R192). -/
def Obligations.LogicFromMemory : Prop :=
  ∀ (s : State) (d m : Reg), Readable s (s.reg m) 4 →
    ∀ p ∈ [(Instr.orRegMem d m, s.reg d ||| wordAt s (s.reg m)), (.andRegMem d m, s.reg d &&& wordAt s (s.reg m)),
        (.xorRegMem d m, s.reg d ^^^ wordAt s (s.reg m))],
      RegisterResult p.1 2 s d p.2 statusBits (fun t => LogicFlags t p.2)

/-- ADD and SUB into memory, and CMP of memory with a register, which stores nothing (R188, R191, R193). Memory in canonical
form is a premise, kept by `EveryStepKeepsTheInvariant`. -/
def Obligations.ArithmeticIntoMemory : Prop :=
  ∀ (s : State) (m q : Reg),
    (Memory.wf s.mem = true → Writable s (s.reg m) 4 →
      MemoryResult (.addMemReg m q) 2 s (s.reg m) (sumOf (wordAt s (s.reg m)) (s.reg q)) statusBits
        (fun t => AddFlags t (wordAt s (s.reg m)) (s.reg q) (sumOf (wordAt s (s.reg m)) (s.reg q))) ∧
      MemoryResult (.subMemReg m q) 2 s (s.reg m) (differenceOf (wordAt s (s.reg m)) (s.reg q)) statusBits
        (fun t => SubFlags t (wordAt s (s.reg m)) (s.reg q) (differenceOf (wordAt s (s.reg m)) (s.reg q)))) ∧
    (Readable s (s.reg m) 4 →
      FlagsResult (.cmpMemReg m q) 2 s
        (fun t => SubFlags t (wordAt s (s.reg m)) (s.reg q) (differenceOf (wordAt s (s.reg m)) (s.reg q))))

/-- OR, AND and XOR into memory (R189, R190, R192). -/
def Obligations.LogicIntoMemory : Prop :=
  ∀ (s : State) (m q : Reg), Memory.wf s.mem = true → Writable s (s.reg m) 4 →
    ∀ p ∈ [(Instr.orMemReg m q, wordAt s (s.reg m) ||| s.reg q), (.andMemReg m q, wordAt s (s.reg m) &&& s.reg q),
        (.xorMemReg m q, wordAt s (s.reg m) ^^^ s.reg q)],
      MemoryResult p.1 2 s (s.reg m) p.2 statusBits (fun t => LogicFlags t p.2)

/-- INC r32 and DEC r32, encoded 40+r and 48+r in one byte: the register plus or minus 1 modulo 2^32, OF, AF, SF, ZF, PF, and CF
unchanged (R195, R196). -/
def Obligations.IncrementAndDecrementRegister : Prop :=
  ∀ (s : State) (r : Reg),
    encode (.incReg r) = [BitVec.ofNat 8 (0x40 + r.num.toNat)] ∧
    encode (.decReg r) = [BitVec.ofNat 8 (0x48 + r.num.toNat)] ∧
    RegisterResult (.incReg r) 1 s r (sumOf (s.reg r) 1#32) [2, 4, 6, 7, 11]
      (fun t => (getFlag t.eflags .of = true ↔ (s.reg r).toNat = 0x7FFFFFFF) ∧
        (getFlag t.eflags .af = true ↔ (s.reg r).toNat % 16 = 15) ∧ ResultFlags t (sumOf (s.reg r) 1#32) ∧
        getFlag t.eflags .cf = getFlag s.eflags .cf) ∧
    RegisterResult (.decReg r) 1 s r (differenceOf (s.reg r) 1#32) [2, 4, 6, 7, 11]
      (fun t => (getFlag t.eflags .of = true ↔ (s.reg r).toNat = 0x80000000) ∧
        (getFlag t.eflags .af = true ↔ (s.reg r).toNat % 16 = 0) ∧ ResultFlags t (differenceOf (s.reg r) 1#32) ∧
        getFlag t.eflags .cf = getFlag s.eflags .cf)

/-! ### Data movement and the stack -/

/-- MOV between registers in both encodings and from an immediate; no flag but RF (R183, R184, R185). -/
def Obligations.MoveIntoRegister : Prop :=
  ∀ (s : State) (d q : Reg) (imm : Word),
    RegisterResult (.movRmReg d q) 2 s d (s.reg q) [] (fun _ => True) ∧
    RegisterResult (.movRegRm d q) 2 s d (s.reg q) [] (fun _ => True) ∧
    RegisterResult (.movRegImm d imm) 5 s d imm [] (fun _ => True)

/-- MOV from memory and MOV to memory through a base register (R184, R185). -/
def Obligations.MoveFromAndToMemory : Prop :=
  ∀ (s : State) (d m : Reg),
    (Readable s (s.reg m) 4 → RegisterResult (.movRegMem d m) 2 s d (wordAt s (s.reg m)) [] (fun _ => True)) ∧
    (Memory.wf s.mem = true → Writable s (s.reg m) 4 →
      MemoryResult (.movMemReg m d) 2 s (s.reg m) (s.reg d) [] (fun _ => True))

/-- What MOV stores through a base register, MOV loads from it, at any address and alignment the store completes at
(R66, R67, R184, R185). -/
def Obligations.LoadAfterStoreGivesTheValue : Prop :=
  ∀ (s : State) (m q d : Reg), Memory.wf s.mem = true → Writable s (s.reg m) 4 →
    Completes (.movMemReg m q) s fun t => Completes (.movRegMem d m) t fun u => u.reg d = s.reg q

/-- PUSH r32: the value, for ESP the one before the decrement, goes to ESP - 4 modulo 2^32, and ESP to that address; POP r32
reads at ESP and adds 4, but for POP ESP, where ESP is the value read (R186, R187). -/
def Obligations.PushAndPop : Prop :=
  ∀ (s : State) (r : Reg),
    (Memory.wf s.mem = true → Writable s (s.reg .esp - 4#32) 4 →
      Completes (.pushReg r) s fun t =>
        Holds32 t (s.reg .esp - 4#32).toNat (s.reg r) ∧ t.reg .esp = s.reg .esp - 4#32 ∧ t.eip = s.eip + 1#32 ∧
          Frame s t [.esp] [] (s.reg .esp - 4#32).toNat 4) ∧
    (Readable s (s.reg .esp) 4 →
      Completes (.popReg r) s fun t =>
        t.reg r = wordAt s (s.reg .esp) ∧ (r ≠ .esp → t.reg .esp = s.reg .esp + 4#32) ∧ t.eip = s.eip + 1#32 ∧
          Frame s t [r, .esp] [] 0 0)

/-! ### Control transfer -/

/-- NOP, encoded 90H, sets EIP to the next instruction; no flag but RF, no register, no memory changes (R181). -/
def Obligations.NopOnlyAdvances : Prop :=
  ∀ s : State, encode .nop = [0x90#8] ∧
    Completes .nop s fun t => t.eip = s.eip + 1#32 ∧ Frame s t [] [] 0 0

/-- HLT at CPL 0 ends the run with EIP after the instruction, and a halted processor with no request latched stays as it is;
at any other level it raises general protection with code 0 (R182, R280). The idle step is the model's (log 26). -/
def Obligations.HaltEndsTheRunAtLevelZero : Prop :=
  ∀ s : State,
    (s.cpl = 0#2 → Completes .hlt s fun t =>
      Ended t ∧ t.eip = s.eip + 1#32 ∧ SameRegs s t [] ∧ SameFlags s t [rfBit] ∧ getFlag t.eflags .rf = false ∧
        SameSystem { s with halted := true } t ∧ t.fpu = s.fpu ∧ SameMemory s t 0 0 ∧
        (s.inputs = { flush := 0, init := false, smi := false, rs := false } → step t = .next t)) ∧
    (s.cpl ≠ 0#2 → Faults .hlt s .generalProtection (some 0#32))

/-- Who may change what: only HLT at CPL 0 ends a run, and CR4 changes only by MOV CR4, r32 at CPL 0, then to the value of the
source register (R280, R27, R162, R246). -/
def Obligations.OnlyHaltEndsARunAndOnlyItsMoveChangesCr4 : Prop :=
  ∀ (i : Instr) (s t : State), exec i s = .next t →
    (s.halted = false → Ended t → i = .hlt ∧ s.cpl = 0#2) ∧
    (t.cr4 ≠ s.cr4 → ∃ r, i = .movCr4Reg r ∧ s.cpl = 0#2 ∧ t.cr4 = s.reg r)

/-- JMP rel8 and JMP rel32, encoded EB cb and E9 cd, go to the next address plus the sign-extended displacement modulo 2^32;
no flag but RF, no register, no memory changes (R198, R199). -/
def Obligations.JumpIsRelativeToTheNextAddress : Prop :=
  ∀ (s : State) (rel8 : BitVec 8) (rel32 : Word),
    encode (.jmpRel8 rel8) = [0xEB#8, rel8] ∧
    encode (.jmpRel32 rel32) = [0xE9#8, rel32.extractLsb' 0 8, rel32.extractLsb' 8 8, rel32.extractLsb' 16 8,
      rel32.extractLsb' 24 8] ∧
    (Completes (.jmpRel8 rel8) s fun t =>
      t.eip = BitVec.ofInt 32 ((s.eip.toNat : Int) + 2 + rel8.toInt) ∧ Frame s t [] [] 0 0) ∧
    Completes (.jmpRel32 rel32) s fun t =>
      t.eip = BitVec.ofInt 32 ((s.eip.toNat : Int) + 5 + rel32.toInt) ∧ Frame s t [] [] 0 0

/-- Jcc rel8 jumps exactly when its condition holds, for all sixteen conditions, and changes nothing else (R197). -/
def Obligations.ConditionalJumpFollowsTheTable : Prop :=
  ∀ (s : State) (cc : Cond) (rel : BitVec 8),
    encode (.jccRel8 cc rel) = [BitVec.ofNat 8 (0x70 + cc.num.toNat), rel] ∧
    Completes (.jccRel8 cc rel) s fun t =>
      (CondTable s cc → t.eip = BitVec.ofInt 32 ((s.eip.toNat : Int) + 2 + rel.toInt)) ∧
      (¬CondTable s cc → t.eip = s.eip + 2#32) ∧ Frame s t [] [] 0 0

/-- CALL pushes the address after it and jumps relative to it; RET pops EIP (R200, R201). -/
def Obligations.CallAndReturn : Prop :=
  ∀ (s : State) (rel : Word),
    (Memory.wf s.mem = true → Writable s (s.reg .esp - 4#32) 4 →
      Completes (.callRel32 rel) s fun t =>
        Holds32 t (s.reg .esp - 4#32).toNat (s.eip + 5#32) ∧ t.reg .esp = s.reg .esp - 4#32 ∧
          t.eip = s.eip + 5#32 + rel ∧ Frame s t [.esp] [] (s.reg .esp - 4#32).toNat 4) ∧
    (Readable s (s.reg .esp) 4 →
      Completes .ret s fun t =>
        t.eip = wordAt s (s.reg .esp) ∧ t.reg .esp = s.reg .esp + 4#32 ∧ Frame s t [.esp] [] 0 0)

/-- Stack round trips: a value pushed and popped into another register than ESP arrives there, and a RET right after a CALL
returns behind the CALL; ESP is what it was (R186, R187, R200, R201). -/
def Obligations.StackRoundTrips : Prop :=
  ∀ (s : State) (q d : Reg) (rel : Word), Memory.wf s.mem = true → Writable s (s.reg .esp - 4#32) 4 →
    (d ≠ .esp →
      Completes (.pushReg q) s fun t => Completes (.popReg d) t fun u =>
        u.reg d = s.reg q ∧ u.reg .esp = s.reg .esp) ∧
    Completes (.callRel32 rel) s fun t => Completes .ret t fun u =>
      u.eip = s.eip + 5#32 ∧ u.reg .esp = s.reg .esp

/-! ### EFLAGS, CPUID -/

/-- SAHF, encoded 9EH: SF, ZF, AF, PF, CF are AH[7], AH[6], AH[4], AH[2], AH[0]; the reserved bits keep their constants and
bits 31:8 but RF are unchanged (R141). -/
def Obligations.SahfLoadsTheStatusFlags : Prop :=
  ∀ s : State, encode .sahf = [0x9E#8] ∧
    Completes .sahf s fun t =>
      (∀ k ∈ [0, 2, 4, 6, 7], t.eflags.getLsbD k = (s.reg .eax).getLsbD (8 + k)) ∧ t.eip = s.eip + 1#32 ∧
        Frame s t [] [0, 2, 4, 6, 7] 0 0

/-- LAHF, encoded 9FH: AH becomes EFLAGS[7:0], whose bits 1, 3 and 5 are 1, 0 and 0; the other bits of EAX and the flags but
RF are unchanged (R142). -/
def Obligations.LahfStoresTheLowByte : Prop :=
  ∀ s : State, encode .lahf = [0x9F#8] ∧
    Completes .lahf s fun t =>
      (∀ k ∈ [0, 2, 4, 6, 7], (t.reg .eax).getLsbD (8 + k) = s.eflags.getLsbD k) ∧
        (t.reg .eax).getLsbD 9 = true ∧ (t.reg .eax).getLsbD 11 = false ∧ (t.reg .eax).getLsbD 13 = false ∧
        (∀ k, k < 8 ∨ 16 ≤ k → (t.reg .eax).getLsbD k = (s.reg .eax).getLsbD k) ∧ t.eip = s.eip + 1#32 ∧
        Frame s t [.eax] [] 0 0

/-- PUSHF and PUSHFD store the image of EFLAGS below the stack: bit 1 is 1, bits 3, 5, 15 (and 31:22) are 0, PUSHFD stores VM
and RF as 0, every other bit is the flag (R143, R144, R15). -/
def Obligations.PushedFlagsHaveTheirFixedBits : Prop :=
  ∀ s : State, FlagStackAdmitted s → Memory.wf s.mem = true →
    (Writable s (s.reg .esp - 2#32) 2 →
      Completes .pushf s fun t =>
        (∃ v : Half, Holds16 t (s.reg .esp - 2#32).toNat v ∧ v &&& 0x8028#16 = 0#16 ∧ v.getLsbD 1 = true ∧
          ∀ k ∈ [0, 2, 4, 6, 7, 8, 9, 10, 11, 12, 13, 14], v.getLsbD k = s.eflags.getLsbD k) ∧
        t.reg .esp = s.reg .esp - 2#32 ∧ t.eip = s.eip + 2#32 ∧
        Frame s t [.esp] [] (s.reg .esp - 2#32).toNat 2) ∧
    (Writable s (s.reg .esp - 4#32) 4 →
      Completes .pushfd s fun t =>
        (∃ v : Word, Holds32 t (s.reg .esp - 4#32).toNat v ∧ EflagsFixed v ∧ v.getLsbD 16 = false ∧
          v.getLsbD 17 = false ∧
          ∀ k ∈ [0, 2, 4, 6, 7, 8, 9, 10, 11, 12, 13, 14, 18, 19, 20, 21], v.getLsbD k = s.eflags.getLsbD k) ∧
        t.reg .esp = s.reg .esp - 4#32 ∧ t.eip = s.eip + 1#32 ∧
        Frame s t [.esp] [] (s.reg .esp - 4#32).toNat 4)

/-- POPF and POPFD load exactly the flags their privilege level may change, IF by CPL ≤ IOPL and IOPL at CPL 0, never VM, VIF
or VIP, and leave RF 0 (R145, R146, R149, R246). -/
def Obligations.PoppedFlagsObeyThePrivilegeLevel : Prop :=
  ∀ s : State, FlagStackAdmitted s →
    (Readable s (s.reg .esp) 2 →
      Completes .popf s fun t =>
        PoppedFlags s t (memValue s (s.reg .esp).toNat 2) userBits16 ∧ t.reg .esp = s.reg .esp + 2#32 ∧
          SameRegs s t [.esp] ∧ t.eip = s.eip + 2#32 ∧ SameSystem s t ∧ t.fpu = s.fpu ∧ SameMemory s t 0 0) ∧
    (Readable s (s.reg .esp) 4 →
      Completes .popfd s fun t =>
        PoppedFlags s t (memValue s (s.reg .esp).toNat 4) userBits32 ∧ t.reg .esp = s.reg .esp + 4#32 ∧
          SameRegs s t [.esp] ∧ t.eip = s.eip + 1#32 ∧ SameSystem s t ∧ t.fpu = s.fpu ∧ SameMemory s t 0 0)

/-- IRETD, a same-privilege return with NT = 0 and the stack inside the map: EIP and EFLAGS from the frame, RF among the bits
loaded, ESP up by 12 (R147, R241). -/
def Obligations.InterruptReturnLoadsTheFrame : Prop :=
  ∀ s : State, FlagStackAdmitted s → getFlag s.eflags .nt = false → (s.reg .esp).toNat + 12 ≤ 4294967296 →
    Readable s (s.reg .esp) 4 → Readable s (s.reg .esp + 4#32) 4 → Readable s (s.reg .esp + 8#32) 4 →
    (wordAt s (s.reg .esp + 4#32)).extractLsb' 0 16 = s.csSel →
    ((wordAt s (s.reg .esp + 8#32)).getLsbD 17 = false ∨ s.cpl ≠ 0#2) →
      Completes .iretd s fun t =>
        t.eip = wordAt s (s.reg .esp) ∧
          PoppedFlags s t (wordAt s (s.reg .esp + 8#32)).toNat (rfBit :: userBits32) ∧
          t.reg .esp = s.reg .esp + 12#32 ∧ SameRegs s t [.esp] ∧ SameSystem s t ∧ t.fpu = s.fpu ∧ SameMemory s t 0 0

/-- Where the flag-stack instructions are refused: all five with CR4.VME = 1 or CR4.PVI = 1, or else TF = 1 (R140); IRETD
otherwise on a task return, on a stack past 2^32, on a return to virtual-8086 mode at CPL 0, on a return to another code
segment (R147; logs 14, 15). -/
def Obligations.FlagStackRefusals : Prop :=
  ∀ s : State,
    (cr4Vme s.cr4 = true ∨ cr4Pvi s.cr4 = true →
      ∀ i ∈ [Instr.pushf, .pushfd, .popf, .popfd, .iretd], Refuses i s .virtualInterruptsNotAdmitted) ∧
    (cr4Vme s.cr4 = false → cr4Pvi s.cr4 = false → getFlag s.eflags .tf = true →
      ∀ i ∈ [Instr.pushf, .pushfd, .popf, .popfd, .iretd], Refuses i s .singleStepNotAdmitted) ∧
    (FlagStackAdmitted s → getFlag s.eflags .nt = true → Refuses .iretd s .taskReturnNotAdmitted) ∧
    (FlagStackAdmitted s → getFlag s.eflags .nt = false → (s.reg .esp).toNat + 12 > 4294967296 →
      Refuses .iretd s .addressWrap) ∧
    (FlagStackAdmitted s → getFlag s.eflags .nt = false → (s.reg .esp).toNat + 12 ≤ 4294967296 →
      Readable s (s.reg .esp) 4 → Readable s (s.reg .esp + 4#32) 4 → Readable s (s.reg .esp + 8#32) 4 →
      (if (wordAt s (s.reg .esp + 8#32)).getLsbD 17 = true ∧ s.cpl = 0#2 then
        Refuses .iretd s .returnToVirtual8086NotAdmitted
      else (wordAt s (s.reg .esp + 4#32)).extractLsb' 0 16 ≠ s.csSel →
        Refuses .iretd s .farReturnNotAdmitted))

/-- At the completion of every instruction other than IRETD, RF is 0 (R149). -/
def Obligations.RfIsClearAfterAllButInterruptReturn : Prop :=
  ∀ (i : Instr) (s t : State), exec i s = .next t → i ≠ .iretd → getFlag t.eflags .rf = false

/-- Software can set and clear ID: the value POPFD loads into bit 21 is the one a PUSHFD right after it stores, with the stack
aligned (R18, R150). -/
def Obligations.IdentificationFlagCanBeToggled : Prop :=
  ∀ (s : State) (b : Bool), FlagStackAdmitted s → Memory.wf s.mem = true → Writable s (s.reg .esp) 4 →
    (s.reg .esp).toNat % 4 = 0 → (wordAt s (s.reg .esp)).getLsbD 8 = false →
    (wordAt s (s.reg .esp)).getLsbD 21 = b →
      Completes .popfd s fun t => t.reg .esp = s.reg .esp + 4#32 ∧ Completes .pushfd t fun u =>
        u.reg .esp = s.reg .esp ∧ (wordAt u (s.reg .esp)).getLsbD 21 = b

/-- CPUID overwrites EAX, EBX, ECX and EDX with the open function of EAX, at every privilege level, and changes nothing else
but EIP and RF (R148, log 21). -/
def Obligations.CpuidWritesItsFourRegisters : Prop :=
  ∀ s : State, Completes .cpuid s fun t =>
    t.reg .eax = (Config.cpuid (s.reg .eax)).eax ∧ t.reg .ebx = (Config.cpuid (s.reg .eax)).ebx ∧
      t.reg .ecx = (Config.cpuid (s.reg .eax)).ecx ∧ t.reg .edx = (Config.cpuid (s.reg .eax)).edx ∧
      t.eip = s.eip + 2#32 ∧ Frame s t [.eax, .ebx, .ecx, .edx] [] 0 0

/-! ### Control registers, RDTSC, model-specific registers -/

/-- MOV r32, CR0 and MOV r32, CR4 at CPL 0: the register receives CR0 with ET read as 1, or the seven named bits of CR4 with bits 31:7 zero; the
six status flags are open (R160, R161, R26). -/
def Obligations.ReadControlRegisters : Prop :=
  ∀ (s : State) (r : Reg), s.cpl = 0#2 →
    RegisterResult (.movRegCr0 r) 3 s r (s.cr0 ||| 0x00000010#32) statusBits (fun _ => True) ∧
    Completes (.movRegCr4 r) s fun t =>
      t.reg r &&& cr4Reserved = 0#32 ∧ (∀ k, k < 7 → (t.reg r).getLsbD k = s.cr4.getLsbD k) ∧
        t.eip = s.eip + 3#32 ∧ Frame s t [r] statusBits 0 0

/-- MOV CR4, r32 at CPL 0 with bits 31:7 of the source 0 writes CR4, forces VIF and VIP to 0 when VME and PVI are both written
0, and leaves the six status flags open (R162, R16, R17). -/
def Obligations.WriteControlRegisterFour : Prop :=
  ∀ (s : State) (r : Reg), s.cpl = 0#2 → s.reg r &&& cr4Reserved = 0#32 →
    Completes (.movCr4Reg r) s fun t =>
      t.cr4 = s.reg r ∧
        ((s.reg r).getLsbD 0 = false ∧ (s.reg r).getLsbD 1 = false →
          getFlag t.eflags .vif = false ∧ getFlag t.eflags .vip = false) ∧
        ((s.reg r).getLsbD 0 = true ∨ (s.reg r).getLsbD 1 = true →
          getFlag t.eflags .vif = getFlag s.eflags .vif ∧ getFlag t.eflags .vip = getFlag s.eflags .vip) ∧
        t.eip = s.eip + 3#32 ∧ SameRegs s t [] ∧ SameFlags s t ([rfBit, 19, 20] ++ statusBits) ∧
        getFlag t.eflags .rf = false ∧ SameSystem { s with cr4 := s.reg r } t ∧ t.fpu = s.fpu ∧ SameMemory s t 0 0

/-- A 1 written to any of bits 31:7 of CR4 raises general protection with code 0 at every privilege level, so CR4 is unchanged
(R28, R162, R222). -/
def Obligations.ReservedBitOfControlRegisterFourFaults : Prop :=
  ∀ (s : State) (r : Reg) (k : Nat), 7 ≤ k → (s.reg r).getLsbD k = true →
    Faults (.movCr4Reg r) s .generalProtection (some 0#32)

/-- With TSD = 1 and the current privilege level not 0, RDTSC raises #GP(0); with TSD = 0 it executes at all privilege levels
(R31). -/
def Obligations.TimeStampDisable : Prop :=
  ∀ s : State,
    (s.cr4.getLsbD 2 = true → s.cpl ≠ 0#2 → Faults .rdtsc s .generalProtection (some 0#32)) ∧
    (s.cr4.getLsbD 2 = false → Completes .rdtsc s fun _ => True)

/-- RDTSC, when TSD = 0 or CPL = 0, puts the two halves of a free 64-bit value into EDX:EAX and changes nothing else but EIP and
RF (R165, log 19); WRMSR of the time-stamp counter at CPL 0 changes only EIP and RF (R171, log 22). -/
def Obligations.TimeStampCounterAccess : Prop :=
  ∀ s : State,
    (s.cr4.getLsbD 2 = false ∨ s.cpl = 0#2 →
      Completes .rdtsc s fun t =>
        t.reg .edx ++ t.reg .eax = Config.draw64 s.draws ∧ s.draws < t.draws ∧ t.eip = s.eip + 2#32 ∧
          Frame s t [.eax, .edx] [] 0 0) ∧
    (s.cpl = 0#2 → s.reg .ecx = 0x10#32 →
      Completes .wrmsr s fun t => t.draws = s.draws ∧ t.eip = s.eip + 2#32 ∧ Frame s t [] [] 0 0)

/-- RDMSR at CPL 0 of each of the 18 registers of Table 1 puts a free 64-bit value into EDX:EAX; ECX is unchanged
(R170, R172, R39, log 19). -/
def Obligations.ReadModelSpecificRegister : Prop :=
  ∀ s : State, s.cpl = 0#2 →
    (s.reg .ecx).toNat ∈ [0x00, 0x01, 0x02, 0x04, 0x05, 0x06, 0x07, 0x08, 0x09, 0x0A, 0x0B, 0x0C, 0x0D, 0x0E, 0x10, 0x11,
      0x12, 0x13] →
      Completes .rdmsr s fun t =>
        t.reg .edx ++ t.reg .eax = Config.draw64 s.draws ∧ s.draws < t.draws ∧ t.eip = s.eip + 2#32 ∧
          Frame s t [.eax, .edx] [] 0 0

/-- At CPL 0, RDMSR and WRMSR are refused on the reserved indices 03H, 0FH, 14H and above, and WRMSR on every defined index
but 10H (R171, R172, R40; logs 22, 23). -/
def Obligations.ModelSpecificRegisterRefusals : Prop :=
  ∀ s : State, s.cpl = 0#2 →
    ((s.reg .ecx).toNat = 0x03 ∨ (s.reg .ecx).toNat = 0x0F ∨ 0x14 ≤ (s.reg .ecx).toNat →
      Refuses .rdmsr s .reservedOrAbsentMsr ∧ Refuses .wrmsr s .reservedOrAbsentMsr) ∧
    ((s.reg .ecx).toNat < 0x14 → (s.reg .ecx).toNat ≠ 0x03 → (s.reg .ecx).toNat ≠ 0x0F → (s.reg .ecx).toNat ≠ 0x10 →
      Refuses .wrmsr s .msrWriteNotAdmitted)

/-- MOV CR0, r32 is recognised and refused on every path (R163, log 24). -/
def Obligations.WriteControlRegisterZeroIsRefused : Prop :=
  ∀ (s : State) (r : Reg) (rest : List Byte),
    decode ([0x0F#8, 0x22#8, BitVec.ofNat 8 (0xC0 + r.num.toNat)] ++ rest) = .ok (.movCr0Reg r) rest ∧
      Refuses (.movCr0Reg r) s .cr0WriteNotAdmitted

/-- Outside privilege level 0 no instruction changes CR4, IOPL or the halt state, and none changes IF when CPL > IOPL
(R246). -/
def Obligations.UnprivilegedCodeCannotChangeSystemState : Prop :=
  ∀ (i : Instr) (s t : State), s.cpl ≠ 0#2 → exec i s = .next t →
    t.cr4 = s.cr4 ∧ t.halted = s.halted ∧ ioplOf t.eflags = ioplOf s.eflags ∧
      (s.iopl < s.cpl → getFlag t.eflags .if_ = getFlag s.eflags .if_)

/-! ### Floating point -/

/-- FXCH ST(i), with EM, TS and ES 0 and neither register empty: the two physical registers exchange contents and tags bit for
bit, C1 is 0, C0, C2, C3 are open, TOP and everything else is unchanged (R131, R47). Where the tag word holds each tag
is presumed (log 41). -/
def Obligations.FxchExchangesContentsAndTags : Prop :=
  ∀ (s : State) (i p q : Fin 8), s.cr0.getLsbD 2 = false → s.cr0.getLsbD 3 = false → s.fpu.fsw.getLsbD 7 = false →
    p.val = stackIndexOf s 0 → q.val = stackIndexOf s i.val → tagValue s.fpu.ftw p.val ≠ 3 →
    tagValue s.fpu.ftw q.val ≠ 3 →
      Completes (.fxch i) s fun t =>
        t.fpu.fpr[p.val] = s.fpu.fpr[q.val] ∧ t.fpu.fpr[q.val] = s.fpu.fpr[p.val] ∧
          tagValue t.fpu.ftw p.val = tagValue s.fpu.ftw q.val ∧ tagValue t.fpu.ftw q.val = tagValue s.fpu.ftw p.val ∧
          (∀ r : Fin 8, r ≠ p → r ≠ q →
            t.fpu.fpr[r.val] = s.fpu.fpr[r.val] ∧ tagValue t.fpu.ftw r.val = tagValue s.fpu.ftw r.val) ∧
          t.fpu.fcw = s.fpu.fcw ∧ t.fpu.fsw.getLsbD 9 = false ∧
          (∀ k, k ∉ [8, 9, 10, 14] → t.fpu.fsw.getLsbD k = s.fpu.fsw.getLsbD k) ∧ t.eip = s.eip + 2#32 ∧
          SameRegs s t [] ∧ SameFlags s t [rfBit] ∧ getFlag t.eflags .rf = false ∧ SameSystem s t ∧ SameMemory s t 0 0

/-- Where FXCH stops: device-not-available with EM or TS, then refused with ES, then refused on an empty register
(R131, R227, log 16). Where the tag word holds each tag is presumed (log 41). -/
def Obligations.FxchStops : Prop :=
  ∀ (s : State) (i p q : Fin 8), p.val = stackIndexOf s 0 → q.val = stackIndexOf s i.val →
    if s.cr0.getLsbD 2 = true ∨ s.cr0.getLsbD 3 = true then Faults (.fxch i) s .deviceNotAvailable none
    else if s.fpu.fsw.getLsbD 7 = true then Refuses (.fxch i) s .pendingFloatingPointException
    else tagValue s.fpu.ftw p.val = 3 ∨ tagValue s.fpu.ftw q.val = 3 →
      Refuses (.fxch i) s .floatingPointStackUnderflow
end

