-- ==== Sys2Proof/Laws/Bits.lean ====
section
/-! SUPPORT. The small lemmas of the bit helpers, the flag accessors and the fixed bits of EFLAGS. -/

namespace Sys2Proof

theorem getLsbD_one_shiftLeft (w i k : Nat) :
    (1#w <<< i).getLsbD k = (decide (k < w) && decide (k = i)) := by
  rw [BitVec.getLsbD_shiftLeft, BitVec.getLsbD_one]
  by_cases hk : k < w
  · have h0 : 0 < w := by omega
    by_cases hlt : k < i
    · have : k ≠ i := by omega
      simp [hk, hlt, this]
    · by_cases he : k = i
      · simp [he, h0]
      · have : ¬(k - i = 0) := by omega
        simp [he, this]
  · simp [hk]

theorem getLsbD_setBit {w : Nat} (v : BitVec w) (i j : Nat) (b : Bool) (h : i < w) :
    (setBit v i b).getLsbD j = if j = i then b else v.getLsbD j := by
  unfold setBit
  cases b
  · simp only [Bool.false_eq_true, if_false, BitVec.getLsbD_and, BitVec.getLsbD_not, getLsbD_one_shiftLeft]
    by_cases hj : j = i
    · simp only [hj, h, decide_true, Bool.and_self, Bool.not_true, Bool.and_false, if_true]
    · by_cases hw : j < w
      · simp only [hj, hw, decide_true, decide_false, Bool.and_false, Bool.not_false, Bool.and_true, if_false]
      · simp only [hj, hw, BitVec.getLsbD_of_ge _ _ (Nat.le_of_not_lt hw), Bool.false_and, if_false]
  · simp only [if_true, BitVec.getLsbD_or, getLsbD_one_shiftLeft]
    by_cases hj : j = i
    · simp only [hj, h, decide_true, Bool.and_self, Bool.or_true, if_true]
    · simp only [hj, decide_false, Bool.and_false, Bool.or_false, if_false]

theorem getLsbD_maskWrite {w : Nat} (old new mask : BitVec w) (i : Nat) :
    (maskWrite old new mask).getLsbD i = if mask.getLsbD i then new.getLsbD i else old.getLsbD i := by
  unfold maskWrite
  simp only [BitVec.getLsbD_or, BitVec.getLsbD_and, BitVec.getLsbD_not]
  by_cases hw : i < w
  · simp only [hw, decide_true, Bool.true_and]
    cases mask.getLsbD i <;> cases old.getLsbD i <;> cases new.getLsbD i <;> rfl
  · simp only [BitVec.getLsbD_of_ge _ _ (Nat.le_of_not_lt hw), Bool.false_and, Bool.or_self, ite_self]

/-- Four bytes taken from a value and put together again are the value (R62, R116). -/
theorem le32_byteOf (v : Word) : le32 (byteOf v 0) (byteOf v 1) (byteOf v 2) (byteOf v 3) = v := by
  unfold le32 byteOf
  ext i hi
  simp only [BitVec.getElem_append, BitVec.getElem_extractLsb']
  rw [← BitVec.getLsbD_eq_getElem (x := v)]
  split
  · rw [Nat.mul_zero, Nat.zero_add]
  · split
    · rw [show 8 * 1 + (i - 8) = i by omega]
    · split
      · rw [show 8 * 2 + (i - 8 - 8) = i by omega]
      · rw [show 8 * 3 + (i - 8 - 8 - 8) = i by omega]

namespace Machine

theorem getLsbD_hardwireEflags (v : Word) (i : Nat) (hi : i < 32) (h0 : eflagsFixed0.getLsbD i = false)
    (h1 : eflagsFixed1.getLsbD i = false) : (hardwireEflags v).getLsbD i = v.getLsbD i := by
  simp only [hardwireEflags, BitVec.getLsbD_or, BitVec.getLsbD_and, BitVec.getLsbD_not, h0, h1, hi, decide_true,
    Bool.not_false, Bool.and_true, Bool.or_false]

@[simp] theorem getFlag_hardwireEflags (v : Word) (f : Flag) : getFlag (hardwireEflags v) f = getFlag v f := by
  cases f <;> exact getLsbD_hardwireEflags v _ (by decide) (by decide) (by decide)

theorem hardwireEflags_fixed0 (v : Word) : hardwireEflags v &&& eflagsFixed0 = 0#32 := by
  unfold hardwireEflags eflagsFixed0 eflagsFixed1
  ext i hi
  simp only [BitVec.getElem_and, BitVec.getElem_or, BitVec.getElem_not, BitVec.getElem_zero]
  have : ∀ k, k < 32 → ((0xFFC08028#32).getLsbD k && (0x00000002#32).getLsbD k) = false := by decide
  have h := this i hi
  rw [BitVec.getLsbD_eq_getElem hi, BitVec.getLsbD_eq_getElem hi] at h
  cases hx : (0xFFC08028#32)[i] <;> simp_all

theorem hardwireEflags_fixed1 (v : Word) : hardwireEflags v &&& eflagsFixed1 = eflagsFixed1 := by
  unfold hardwireEflags
  ext i hi
  simp only [BitVec.getElem_and, BitVec.getElem_or]
  cases eflagsFixed1[i] <;> simp

theorem getLsbD_hardwireCr0 (v : Word) (i : Nat) : (hardwireCr0 v).getLsbD i = (v.getLsbD i || decide (i = 4)) := by
  have h : cr0Fixed1.getLsbD i = decide (i = 4) := by
    by_cases hi : i < 32
    · exact (by decide : ∀ k, k < 32 → cr0Fixed1.getLsbD k = decide (k = 4)) i hi
    · rw [BitVec.getLsbD_of_ge _ _ (Nat.le_of_not_lt hi)]
      exact (decide_eq_false (by omega)).symm
  rw [hardwireCr0, BitVec.getLsbD_or, h]

@[simp] theorem cr0Et_hardwireCr0 (v : Word) : cr0Et (hardwireCr0 v) = true := by
  simp [cr0Et, getLsbD_hardwireCr0]

@[simp] theorem hardwireEflags_idem (v : Word) : hardwireEflags (hardwireEflags v) = hardwireEflags v := by
  unfold hardwireEflags eflagsFixed0 eflagsFixed1
  ext i hi
  simp only [BitVec.getElem_and, BitVec.getElem_or, BitVec.getElem_not]
  have : ∀ k, k < 32 → ((0xFFC08028#32).getLsbD k && (0x00000002#32).getLsbD k) = false := by decide
  have h := this i hi
  rw [BitVec.getLsbD_eq_getElem hi, BitVec.getLsbD_eq_getElem hi] at h
  cases hx : (0xFFC08028#32)[i] <;> cases hy : (0x00000002#32)[i] <;> simp_all

/-- The position of a flag determines the flag. -/
theorem Flag.pos_eq_iff (f g : Flag) : f.pos = g.pos ↔ f = g := by
  cases f <;> cases g <;> decide

theorem Flag.pos_lt (f : Flag) : f.pos < 32 := by cases f <;> decide

@[simp] theorem getFlag_setFlag (e : Word) (f g : Flag) (b : Bool) :
    getFlag (setFlag f b e) g = if g = f then b else getFlag e g := by
  unfold getFlag setFlag
  rw [getLsbD_setBit _ _ _ _ f.pos_lt]
  simp [Flag.pos_eq_iff]

theorem getLsbD_setFlag (e : Word) (f : Flag) (b : Bool) (i : Nat) :
    (setFlag f b e).getLsbD i = if i = f.pos then b else e.getLsbD i :=
  getLsbD_setBit _ _ _ _ f.pos_lt

end Machine

end Sys2Proof
end

