-- ==== Sys2Proof/Laws/Memory.lean ====
section
/-! SUPPORT. Memory's laws: every write keeps the canonical form, a read after a write gives the value written, and a write
leaves every other byte alone. -/

namespace Sys2Proof.Machine

theorem Memory.above_trans {bound : Option Nat} {a b : Nat} (h : Memory.above bound a = true) (hab : a ≤ b) :
    Memory.above bound b = true := by
  cases bound with
  | none => rfl
  | some k => simp [Memory.above] at *; omega

theorem Memory.wfFrom_mono {m : Memory} {bound : Option Nat} {a : Nat} (h : Memory.wfFrom (some a) m = true)
    (hb : Memory.above bound a = true) : Memory.wfFrom bound m = true := by
  cases m with
  | nil => rfl
  | cons c rest =>
    obtain ⟨a', b'⟩ := c
    simp only [Memory.wfFrom, Bool.and_eq_true, Memory.above, decide_eq_true_eq] at h ⊢
    exact ⟨⟨Memory.above_trans hb (Nat.le_of_lt h.1.1), h.1.2⟩, h.2⟩

theorem Memory.wfFrom_cons {m : Memory} {bound : Option Nat} {a : Nat} {b : Byte}
    (hb : Memory.above bound a = true) (h : Memory.wfFrom (some a) m = true) :
    Memory.wfFrom bound (Memory.cons a b m) = true := by
  unfold Memory.cons
  split
  · exact Memory.wfFrom_mono h hb
  · simp_all [Memory.wfFrom]

theorem Memory.wfFrom_writeByte {m : Memory} {bound : Option Nat} {a : Nat} {b : Byte}
    (hb : Memory.above bound a = true) (h : Memory.wfFrom bound m = true) :
    Memory.wfFrom bound (Memory.writeByte m a b) = true := by
  induction m generalizing bound with
  | nil => exact Memory.wfFrom_cons hb rfl
  | cons c rest ih =>
    obtain ⟨a', b'⟩ := c
    simp only [Memory.wfFrom, Bool.and_eq_true] at h
    simp only [Memory.writeByte]
    split
    · next hlt =>
      apply Memory.wfFrom_cons hb
      simp only [Memory.wfFrom, Bool.and_eq_true]
      exact ⟨⟨by simp [Memory.above, hlt], h.1.2⟩, h.2⟩
    · split
      · next heq => subst heq; exact Memory.wfFrom_cons hb h.2
      · simp only [Memory.wfFrom, Bool.and_eq_true]
        exact ⟨h.1, ih (by simp [Memory.above]; omega) h.2⟩

/-- A byte write keeps the canonical form. -/
theorem Memory.wf_writeByte {m : Memory} (a : Nat) (b : Byte) (h : Memory.wf m = true) :
    Memory.wf (Memory.writeByte m a b) = true :=
  Memory.wfFrom_writeByte rfl h

theorem Memory.readByte_of_le {m : Memory} {k a : Nat} (h : Memory.wfFrom (some k) m = true) (ha : a ≤ k) :
    Memory.readByte m a = Memory.unlisted := by
  cases m with
  | nil => rfl
  | cons c rest =>
    obtain ⟨a', b'⟩ := c
    simp only [Memory.wfFrom, Memory.above, Bool.and_eq_true, decide_eq_true_eq] at h
    have h1 : a ≠ a' := by omega
    have h2 : a < a' := by omega
    simp [Memory.readByte, h1, h2]

theorem Memory.readByte_cons {m : Memory} {a x : Nat} {b : Byte} (h : Memory.wfFrom (some a) m = true) :
    Memory.readByte (Memory.cons a b m) x = if x = a then b else if x < a then Memory.unlisted else Memory.readByte m x := by
  unfold Memory.cons
  split
  · next hb =>
    by_cases hx : x ≤ a
    · rw [Memory.readByte_of_le h hx]
      subst hb
      split <;> simp
    · have h1 : x ≠ a := by omega
      have h2 : ¬x < a := by omega
      simp [h1, h2]
  · rfl

/-- A read after a byte write: the value written there, what was there before anywhere else. -/
theorem Memory.readByte_writeByte_from {m : Memory} {bound : Option Nat} {a x : Nat} {b : Byte}
    (h : Memory.wfFrom bound m = true) :
    Memory.readByte (Memory.writeByte m a b) x = if x = a then b else Memory.readByte m x := by
  induction m generalizing bound with
  | nil =>
    rw [Memory.writeByte, Memory.readByte_cons rfl]
    simp [Memory.readByte]
  | cons c rest ih =>
    obtain ⟨a', b'⟩ := c
    simp only [Memory.wfFrom, Bool.and_eq_true] at h
    simp only [Memory.writeByte]
    split
    · next hlt =>
      rw [Memory.readByte_cons (by simp [Memory.wfFrom, Memory.above, hlt, h.2]; simpa using h.1.2)]
      by_cases hx : x = a
      · simp [hx]
      · by_cases hxa : x < a
        · have h1 : x ≠ a' := by omega
          have h2 : x < a' := by omega
          simp [Memory.readByte, hxa, h1, h2]
        · simp [hx, hxa]
    · split
      · next heq =>
        subst heq
        rw [Memory.readByte_cons h.2]
        by_cases hx : x = a
        · simp [hx]
        · simp [Memory.readByte, hx]
      · next hlt hne =>
        by_cases hx : x = a
        · subst hx
          have h2 : ¬x < a' := by omega
          simp [Memory.readByte, hne, h2, ih h.2]
        · simp only [Memory.readByte, ih h.2, hx, if_false]

theorem Memory.readByte_writeByte {m : Memory} (a x : Nat) (b : Byte) (h : Memory.wf m = true) :
    Memory.readByte (Memory.writeByte m a b) x = if x = a then b else Memory.readByte m x :=
  Memory.readByte_writeByte_from h

/-- A write of several bytes keeps the canonical form. -/
theorem Memory.wf_writeBytes {m : Memory} (a : Nat) (bs : List Byte) (h : Memory.wf m = true) :
    Memory.wf (Memory.writeBytes m a bs) = true := by
  induction bs generalizing m a with
  | nil => exact h
  | cons b rest ih => exact ih (a + 1) (Memory.wf_writeByte a b h)

/-- A read after a write of several bytes. -/
theorem Memory.readByte_writeBytes {m : Memory} (a x : Nat) (bs : List Byte) (h : Memory.wf m = true) :
    Memory.readByte (Memory.writeBytes m a bs) x =
      if hx : a ≤ x ∧ x < a + bs.length then bs[x - a]'(by omega) else Memory.readByte m x := by
  induction bs generalizing m a with
  | nil =>
    have : ¬(a ≤ x ∧ x < a + ([] : List Byte).length) := by simp
    rw [dif_neg this]; rfl
  | cons b rest ih =>
    rw [Memory.writeBytes, ih (a + 1) (Memory.wf_writeByte a b h), Memory.readByte_writeByte a x b h]
    by_cases hxa : x = a
    · subst hxa
      have h1 : ¬(x + 1 ≤ x ∧ x < x + 1 + rest.length) := by omega
      have h2 : x ≤ x ∧ x < x + (b :: rest).length := by simp
      rw [dif_neg h1, dif_pos h2]
      simp
    · by_cases hin : a + 1 ≤ x ∧ x < a + 1 + rest.length
      · have h2 : a ≤ x ∧ x < a + (b :: rest).length := by simp only [List.length_cons]; omega
        rw [dif_pos hin, dif_pos h2]
        have hk : x - a = (x - (a + 1)) + 1 := by omega
        simp [hk]
      · have h2 : ¬(a ≤ x ∧ x < a + (b :: rest).length) := by simp only [List.length_cons]; omega
        rw [dif_neg hin, dif_neg h2, if_neg hxa]

theorem Memory.wf_write32 {m : Memory} (a : Nat) (v : Word) (h : Memory.wf m = true) :
    Memory.wf (Memory.write32 m a v) = true := Memory.wf_writeBytes a _ h

theorem Memory.wf_write16 {m : Memory} (a : Nat) (v : Half) (h : Memory.wf m = true) :
    Memory.wf (Memory.write16 m a v) = true := Memory.wf_writeBytes a _ h

/-- A 4-byte write leaves every byte outside its four alone. -/
theorem Memory.readByte_write32_of_ne {m : Memory} (a x : Nat) (v : Word) (h : Memory.wf m = true)
    (hx : ¬(a ≤ x ∧ x < a + 4)) : Memory.readByte (Memory.write32 m a v) x = Memory.readByte m x := by
  rw [Memory.write32, Memory.readByte_writeBytes a x _ h, dif_neg (by simpa using hx)]

/-- A 2-byte write leaves every byte outside its two alone. -/
theorem Memory.readByte_write16_of_ne {m : Memory} (a x : Nat) (v : Half) (h : Memory.wf m = true)
    (hx : ¬(a ≤ x ∧ x < a + 2)) : Memory.readByte (Memory.write16 m a v) x = Memory.readByte m x := by
  rw [Memory.write16, Memory.readByte_writeBytes a x _ h, dif_neg (by simpa using hx)]

/-- The bytes of a 4-byte write, least significant first (R62). -/
theorem Memory.readByte_write32 {m : Memory} (a k : Nat) (v : Word) (h : Memory.wf m = true) (hk : k < 4) :
    Memory.readByte (Memory.write32 m a v) (a + k) = byteOf v k := by
  rw [Memory.write32, Memory.readByte_writeBytes a _ _ h, dif_pos (by simp; omega)]
  have : a + k - a = k := by omega
  simp only [this]
  obtain rfl | rfl | rfl | rfl : k = 0 ∨ k = 1 ∨ k = 2 ∨ k = 3 := by omega
  all_goals rfl

/-- The bytes of a 2-byte write, least significant first (R62). -/
theorem Memory.readByte_write16 {m : Memory} (a k : Nat) (v : Half) (h : Memory.wf m = true) (hk : k < 2) :
    Memory.readByte (Memory.write16 m a v) (a + k) = v.extractLsb' (8 * k) 8 := by
  rw [Memory.write16, Memory.readByte_writeBytes a _ _ h, dif_pos (by simp; omega)]
  have : a + k - a = k := by omega
  simp only [this]
  obtain rfl | rfl : k = 0 ∨ k = 1 := by omega
  all_goals rfl

/-- A 4-byte read after a 4-byte write at the same address. -/
theorem Memory.read32_write32 {m : Memory} (a : Nat) (v : Word) (h : Memory.wf m = true) :
    Memory.read32 (Memory.write32 m a v) a = v := by
  have h0 := Memory.readByte_write32 a 0 v h (by decide)
  rw [Nat.add_zero] at h0
  rw [Memory.read32, h0, Memory.readByte_write32 a 1 v h (by decide),
    Memory.readByte_write32 a 2 v h (by decide), Memory.readByte_write32 a 3 v h (by decide), le32_byteOf]

theorem allFrom_iff (p : Nat → Bool) (a n : Nat) : allFrom p a n = true ↔ ∀ k, k < n → p (a + k) = true := by
  induction n generalizing a with
  | zero => simp [allFrom]
  | succ n ih =>
    simp only [allFrom, Bool.and_eq_true, ih]
    constructor
    · rintro ⟨h0, h⟩ k hk
      cases k with
      | zero => simpa using h0
      | succ k => have := h k (by omega); rwa [show a + (k + 1) = a + 1 + k by omega]
    · intro h
      refine ⟨by simpa using h 0 (by omega), fun k hk => ?_⟩
      have := h (k + 1) (by omega)
      rwa [show a + (k + 1) = a + 1 + k by omega] at this

/-- An address of `MEM.data` is not in `MEM.code` (R64). -/
theorem inCode_of_inData {map : List Region} {a : Nat} (h : inData map a = true) : inCode map a = false := by
  simp_all [inData, inCode]

theorem mapped_of_inData {map : List Region} {a : Nat} (h : inData map a = true) : mapped map a = true := by
  simp_all [inData, mapped]

end Sys2Proof.Machine
end

