-- ==== Sys2Proof/Laws/State.lean ====
section
/-! SUPPORT. One lemma per field per update of the state, true by rfl, so that no later proof unfolds a record update. -/

namespace Sys2Proof.Machine

@[simp] theorem Regs.get_set_same (r : Regs) (i : Reg) (v : Word) : (r.set i v).get i = v := by
  cases i <;> rfl

theorem Regs.get_set_ne (r : Regs) (i j : Reg) (v : Word) (h : j ≠ i) : (r.set i v).get j = r.get j := by
  cases i <;> cases j <;> first | rfl | exact absurd rfl h

theorem Regs.get_set (r : Regs) (i j : Reg) (v : Word) : (r.set i v).get j = if j = i then v else r.get j := by
  split
  · next h => subst h; exact Regs.get_set_same r j v
  · next h => exact Regs.get_set_ne r i j v h

@[simp] theorem State.reg_setReg (s : State) (i j : Reg) (v : Word) :
    (s.setReg i v).reg j = if j = i then v else s.reg j := Regs.get_set s.regs i j v

@[simp] theorem State.setReg_eip (s : State) (i : Reg) (v : Word) : (s.setReg i v).eip = s.eip := rfl
@[simp] theorem State.setReg_eflags (s : State) (i : Reg) (v : Word) : (s.setReg i v).eflags = s.eflags := rfl
@[simp] theorem State.setReg_cr0 (s : State) (i : Reg) (v : Word) : (s.setReg i v).cr0 = s.cr0 := rfl
@[simp] theorem State.setReg_cr4 (s : State) (i : Reg) (v : Word) : (s.setReg i v).cr4 = s.cr4 := rfl
@[simp] theorem State.setReg_csSel (s : State) (i : Reg) (v : Word) : (s.setReg i v).csSel = s.csSel := rfl
@[simp] theorem State.setReg_fpu (s : State) (i : Reg) (v : Word) : (s.setReg i v).fpu = s.fpu := rfl
@[simp] theorem State.setReg_dregs (s : State) (i : Reg) (v : Word) : (s.setReg i v).dregs = s.dregs := rfl
@[simp] theorem State.setReg_mem (s : State) (i : Reg) (v : Word) : (s.setReg i v).mem = s.mem := rfl
@[simp] theorem State.setReg_map (s : State) (i : Reg) (v : Word) : (s.setReg i v).map = s.map := rfl
@[simp] theorem State.setReg_inputs (s : State) (i : Reg) (v : Word) : (s.setReg i v).inputs = s.inputs := rfl
@[simp] theorem State.setReg_halted (s : State) (i : Reg) (v : Word) : (s.setReg i v).halted = s.halted := rfl
@[simp] theorem State.setReg_draws (s : State) (i : Reg) (v : Word) : (s.setReg i v).draws = s.draws := rfl

@[simp] theorem State.setEflags_regs (s : State) (v : Word) : (s.setEflags v).regs = s.regs := rfl
@[simp] theorem State.setEflags_eip (s : State) (v : Word) : (s.setEflags v).eip = s.eip := rfl
@[simp] theorem State.setEflags_cr0 (s : State) (v : Word) : (s.setEflags v).cr0 = s.cr0 := rfl
@[simp] theorem State.setEflags_cr4 (s : State) (v : Word) : (s.setEflags v).cr4 = s.cr4 := rfl
@[simp] theorem State.setEflags_csSel (s : State) (v : Word) : (s.setEflags v).csSel = s.csSel := rfl
@[simp] theorem State.setEflags_fpu (s : State) (v : Word) : (s.setEflags v).fpu = s.fpu := rfl
@[simp] theorem State.setEflags_dregs (s : State) (v : Word) : (s.setEflags v).dregs = s.dregs := rfl
@[simp] theorem State.setEflags_mem (s : State) (v : Word) : (s.setEflags v).mem = s.mem := rfl
@[simp] theorem State.setEflags_map (s : State) (v : Word) : (s.setEflags v).map = s.map := rfl
@[simp] theorem State.setEflags_inputs (s : State) (v : Word) : (s.setEflags v).inputs = s.inputs := rfl
@[simp] theorem State.setEflags_halted (s : State) (v : Word) : (s.setEflags v).halted = s.halted := rfl
@[simp] theorem State.setEflags_draws (s : State) (v : Word) : (s.setEflags v).draws = s.draws := rfl

@[simp] theorem State.spend_regs (s : State) (n : Nat) : (s.spend n).regs = s.regs := rfl
@[simp] theorem State.spend_eip (s : State) (n : Nat) : (s.spend n).eip = s.eip := rfl
@[simp] theorem State.spend_eflags (s : State) (n : Nat) : (s.spend n).eflags = s.eflags := rfl
@[simp] theorem State.spend_cr0 (s : State) (n : Nat) : (s.spend n).cr0 = s.cr0 := rfl
@[simp] theorem State.spend_cr4 (s : State) (n : Nat) : (s.spend n).cr4 = s.cr4 := rfl
@[simp] theorem State.spend_csSel (s : State) (n : Nat) : (s.spend n).csSel = s.csSel := rfl
@[simp] theorem State.spend_fpu (s : State) (n : Nat) : (s.spend n).fpu = s.fpu := rfl
@[simp] theorem State.spend_dregs (s : State) (n : Nat) : (s.spend n).dregs = s.dregs := rfl
@[simp] theorem State.spend_mem (s : State) (n : Nat) : (s.spend n).mem = s.mem := rfl
@[simp] theorem State.spend_map (s : State) (n : Nat) : (s.spend n).map = s.map := rfl
@[simp] theorem State.spend_inputs (s : State) (n : Nat) : (s.spend n).inputs = s.inputs := rfl
@[simp] theorem State.spend_halted (s : State) (n : Nat) : (s.spend n).halted = s.halted := rfl

@[simp] theorem State.popped_eip (s : State) (n : Nat) : (s.popped n).eip = s.eip := rfl
@[simp] theorem State.popped_eflags (s : State) (n : Nat) : (s.popped n).eflags = s.eflags := rfl
@[simp] theorem State.popped_cr0 (s : State) (n : Nat) : (s.popped n).cr0 = s.cr0 := rfl
@[simp] theorem State.popped_cr4 (s : State) (n : Nat) : (s.popped n).cr4 = s.cr4 := rfl
@[simp] theorem State.popped_csSel (s : State) (n : Nat) : (s.popped n).csSel = s.csSel := rfl
@[simp] theorem State.popped_fpu (s : State) (n : Nat) : (s.popped n).fpu = s.fpu := rfl
@[simp] theorem State.popped_dregs (s : State) (n : Nat) : (s.popped n).dregs = s.dregs := rfl
@[simp] theorem State.popped_mem (s : State) (n : Nat) : (s.popped n).mem = s.mem := rfl
@[simp] theorem State.popped_map (s : State) (n : Nat) : (s.popped n).map = s.map := rfl
@[simp] theorem State.popped_inputs (s : State) (n : Nat) : (s.popped n).inputs = s.inputs := rfl
@[simp] theorem State.popped_halted (s : State) (n : Nat) : (s.popped n).halted = s.halted := rfl
@[simp] theorem State.popped_draws (s : State) (n : Nat) : (s.popped n).draws = s.draws := rfl

@[simp] theorem State.clearRf_regs (s : State) : s.clearRf.regs = s.regs := rfl
@[simp] theorem State.clearRf_eip (s : State) : s.clearRf.eip = s.eip := rfl
@[simp] theorem State.clearRf_cr0 (s : State) : s.clearRf.cr0 = s.cr0 := rfl
@[simp] theorem State.clearRf_cr4 (s : State) : s.clearRf.cr4 = s.cr4 := rfl
@[simp] theorem State.clearRf_csSel (s : State) : s.clearRf.csSel = s.csSel := rfl
@[simp] theorem State.clearRf_fpu (s : State) : s.clearRf.fpu = s.fpu := rfl
@[simp] theorem State.clearRf_dregs (s : State) : s.clearRf.dregs = s.dregs := rfl
@[simp] theorem State.clearRf_mem (s : State) : s.clearRf.mem = s.mem := rfl
@[simp] theorem State.clearRf_map (s : State) : s.clearRf.map = s.map := rfl
@[simp] theorem State.clearRf_inputs (s : State) : s.clearRf.inputs = s.inputs := rfl
@[simp] theorem State.clearRf_halted (s : State) : s.clearRf.halted = s.halted := rfl
@[simp] theorem State.clearRf_draws (s : State) : s.clearRf.draws = s.draws := rfl

@[simp] theorem completeAt_regs (target : Word) (s : State) : (completeAt target s).regs = s.regs := rfl
@[simp] theorem completeAt_cr0 (target : Word) (s : State) : (completeAt target s).cr0 = s.cr0 := rfl
@[simp] theorem completeAt_cr4 (target : Word) (s : State) : (completeAt target s).cr4 = s.cr4 := rfl
@[simp] theorem completeAt_csSel (target : Word) (s : State) : (completeAt target s).csSel = s.csSel := rfl
@[simp] theorem completeAt_fpu (target : Word) (s : State) : (completeAt target s).fpu = s.fpu := rfl
@[simp] theorem completeAt_dregs (target : Word) (s : State) : (completeAt target s).dregs = s.dregs := rfl
@[simp] theorem completeAt_mem (target : Word) (s : State) : (completeAt target s).mem = s.mem := rfl
@[simp] theorem completeAt_map (target : Word) (s : State) : (completeAt target s).map = s.map := rfl
@[simp] theorem completeAt_inputs (target : Word) (s : State) : (completeAt target s).inputs = s.inputs := rfl
@[simp] theorem completeAt_halted (target : Word) (s : State) : (completeAt target s).halted = s.halted := rfl
@[simp] theorem completeAt_draws (target : Word) (s : State) : (completeAt target s).draws = s.draws := rfl

@[simp] theorem complete_regs (n : Nat) (s : State) : (complete n s).regs = s.regs := rfl
@[simp] theorem complete_cr0 (n : Nat) (s : State) : (complete n s).cr0 = s.cr0 := rfl
@[simp] theorem complete_cr4 (n : Nat) (s : State) : (complete n s).cr4 = s.cr4 := rfl
@[simp] theorem complete_csSel (n : Nat) (s : State) : (complete n s).csSel = s.csSel := rfl
@[simp] theorem complete_fpu (n : Nat) (s : State) : (complete n s).fpu = s.fpu := rfl
@[simp] theorem complete_dregs (n : Nat) (s : State) : (complete n s).dregs = s.dregs := rfl
@[simp] theorem complete_mem (n : Nat) (s : State) : (complete n s).mem = s.mem := rfl
@[simp] theorem complete_map (n : Nat) (s : State) : (complete n s).map = s.map := rfl
@[simp] theorem complete_inputs (n : Nat) (s : State) : (complete n s).inputs = s.inputs := rfl
@[simp] theorem complete_halted (n : Nat) (s : State) : (complete n s).halted = s.halted := rfl
@[simp] theorem complete_draws (n : Nat) (s : State) : (complete n s).draws = s.draws := rfl

@[simp] theorem scrambleStatus_regs (s : State) : (scrambleStatus s).regs = s.regs := rfl
@[simp] theorem scrambleStatus_eip (s : State) : (scrambleStatus s).eip = s.eip := rfl
@[simp] theorem scrambleStatus_cr0 (s : State) : (scrambleStatus s).cr0 = s.cr0 := rfl
@[simp] theorem scrambleStatus_cr4 (s : State) : (scrambleStatus s).cr4 = s.cr4 := rfl
@[simp] theorem scrambleStatus_csSel (s : State) : (scrambleStatus s).csSel = s.csSel := rfl
@[simp] theorem scrambleStatus_fpu (s : State) : (scrambleStatus s).fpu = s.fpu := rfl
@[simp] theorem scrambleStatus_dregs (s : State) : (scrambleStatus s).dregs = s.dregs := rfl
@[simp] theorem scrambleStatus_mem (s : State) : (scrambleStatus s).mem = s.mem := rfl
@[simp] theorem scrambleStatus_map (s : State) : (scrambleStatus s).map = s.map := rfl
@[simp] theorem scrambleStatus_inputs (s : State) : (scrambleStatus s).inputs = s.inputs := rfl
@[simp] theorem scrambleStatus_halted (s : State) : (scrambleStatus s).halted = s.halted := rfl

@[simp] theorem State.setEflags_eflags (s : State) (v : Word) : (s.setEflags v).eflags = hardwireEflags v := rfl
@[simp] theorem State.spend_draws (s : State) (n : Nat) : (s.spend n).draws = s.draws + n := rfl
@[simp] theorem State.clearRf_eflags (s : State) : s.clearRf.eflags = hardwireEflags (setFlag .rf false s.eflags) := rfl
@[simp] theorem completeAt_eip (target : Word) (s : State) : (completeAt target s).eip = target := rfl
@[simp] theorem completeAt_eflags (target : Word) (s : State) :
    (completeAt target s).eflags = hardwireEflags (setFlag .rf false s.eflags) := rfl
@[simp] theorem complete_eip (n : Nat) (s : State) : (complete n s).eip = s.eip + BitVec.ofNat 32 n := rfl
@[simp] theorem complete_eflags (n : Nat) (s : State) :
    (complete n s).eflags = hardwireEflags (setFlag .rf false s.eflags) := rfl
@[simp] theorem scrambleStatus_draws (s : State) : (scrambleStatus s).draws = s.draws + 6 := rfl

@[simp] theorem State.reg_setEflags (s : State) (v : Word) (i : Reg) : (s.setEflags v).reg i = s.reg i := rfl
@[simp] theorem State.reg_spend (s : State) (n : Nat) (i : Reg) : (s.spend n).reg i = s.reg i := rfl
@[simp] theorem State.reg_clearRf (s : State) (i : Reg) : s.clearRf.reg i = s.reg i := rfl
@[simp] theorem reg_completeAt (target : Word) (s : State) (i : Reg) : (completeAt target s).reg i = s.reg i := rfl
@[simp] theorem reg_complete (n : Nat) (s : State) (i : Reg) : (complete n s).reg i = s.reg i := rfl
@[simp] theorem reg_scrambleStatus (s : State) (i : Reg) : (scrambleStatus s).reg i = s.reg i := rfl
@[simp] theorem State.reg_popped (s : State) (n : Nat) (i : Reg) :
    (s.popped n).reg i = if i = .esp then s.reg .esp + BitVec.ofNat 32 n else s.reg i := State.reg_setReg s .esp i _

@[simp] theorem State.reg_withMem (s : State) (m : Memory) (i : Reg) : State.reg { s with mem := m } i = s.reg i := rfl
@[simp] theorem State.reg_withCr4 (s : State) (v : Word) (i : Reg) : State.reg { s with cr4 := v } i = s.reg i := rfl
@[simp] theorem State.reg_withFpu (s : State) (f : Fpu) (i : Reg) : State.reg { s with fpu := f } i = s.reg i := rfl
@[simp] theorem State.reg_withEip (s : State) (v : Word) (i : Reg) : State.reg { s with eip := v } i = s.reg i := rfl
@[simp] theorem State.reg_withHalted (s : State) (b : Bool) (i : Reg) : State.reg { s with halted := b } i = s.reg i := rfl

@[simp] theorem State.cpl_setReg (s : State) (i : Reg) (v : Word) : (s.setReg i v).cpl = s.cpl := rfl
@[simp] theorem State.cpl_setEflags (s : State) (v : Word) : (s.setEflags v).cpl = s.cpl := rfl

end Sys2Proof.Machine
end

