-- ==== Sys2Proof/Laws/Ops.lean ====
section
/-! SUPPORT. One lemma per shared operation that says everything it can do, for later proofs to cite instead of unfolding it. -/

namespace Sys2Proof.Machine

/-- A sequence answers a value exactly when its first operation does and the rest does on it. -/
theorem andThen_next_iff {α β : Type} (x : Res α) (f : α → Res β) (b : β) :
    andThen x f = .next b ↔ ∃ a, x = .next a ∧ f a = .next b := by
  cases x <;> simp [andThen]

/-- A sequence faults exactly when its first operation does, or the rest does on what it answers. -/
theorem andThen_fault_iff {α β : Type} (x : Res α) (f : α → Res β) (r : Fault) :
    andThen x f = .fault r ↔ x = .fault r ∨ ∃ a, x = .next a ∧ f a = .fault r := by
  cases x <;> simp [andThen]

@[simp] theorem andThen_next {α β : Type} (a : α) (f : α → Res β) : andThen (.next a) f = f a := rfl
@[simp] theorem andThen_fault {α β : Type} (r : Fault) (f : α → Res β) : andThen (.fault r) f = .fault r := rfl
@[simp] theorem andThen_refused {α β : Type} (r : Refusal) (f : α → Res β) : andThen (.refused r) f = .refused r := rfl
@[simp] theorem andThen_raise {α β : Type} (x : Exception) (s : State) (f : α → Res β) :
    andThen (raise x s) f = raise x s := rfl

@[simp] theorem raise_ne_next {α : Type} (x : Exception) (s : State) (a : α) : raise x s ≠ .next a := by
  simp [raise]

@[simp] theorem andThen_refuse {α β : Type} (r : RefusalReason) (s : State) (f : α → Res β) :
    andThen (refuse r s) f = refuse r s := rfl

@[simp] theorem refuse_ne_next {α : Type} (r : RefusalReason) (s : State) (a : α) : refuse r s ≠ .next a := by
  simp [refuse]

@[simp] theorem refuse_ne_fault {α : Type} (r : RefusalReason) (s : State) (x : Fault) :
    (refuse r s : Res α) ≠ .fault x := by simp [refuse]

/-- Everything a refusal says. -/
theorem refuse_eq_refused_iff {α : Type} (r : RefusalReason) (s : State) (x : Refusal) :
    (refuse r s : Res α) = .refused x ↔ x = .because r s.eip := by
  simp only [refuse, Host.Outcome.refused.injEq]
  exact eq_comm

/-- Everything a raised exception says. -/
theorem raise_eq_fault_iff {α : Type} (x y : Exception) (s : State) (c : Option Word) (e im : Word) :
    (raise x s : Res α) = .fault (.exception y c e im) ↔
      y = x ∧ c = exceptionCode x ∧ e = s.eip ∧ im = exceptionImage x s := by
  simp only [raise, Host.Outcome.fault.injEq, Fault.exception.injEq]
  constructor <;> rintro ⟨h1, h2, h3, h4⟩ <;> exact ⟨h1.symm, h2.symm, h3.symm, h4.symm⟩

theorem requireCpl0_next_iff (s : State) (u : Unit) : requireCpl0 s = .next u ↔ s.cpl = 0#2 := by
  unfold requireCpl0
  split <;> simp_all

theorem misaligned_eq_false_iff (s : State) (a : Word) (n : Nat) (hn : 1 < n) :
    misaligned s a n = false ↔ (AlignmentActive s → a.toNat % n = 0) := by
  simp only [misaligned, AlignmentActive]
  cases cr0Pe s.cr0 <;> cases getFlag s.eflags .ac <;> cases cr0Am s.cr0 <;>
    by_cases h : s.cpl = 3#2 <;> simp [h, hn]

theorem misaligned_eq_true_iff (s : State) (a : Word) (n : Nat) (hn : 1 < n) :
    misaligned s a n = true ↔ AlignmentActive s ∧ a.toNat % n ≠ 0 := by
  have := misaligned_eq_false_iff s a n hn
  cases h : misaligned s a n
  · simp only [h, true_iff] at this
    constructor
    · intro hh; exact absurd hh (by decide)
    · rintro ⟨h1, h2⟩; exact absurd (this h1) h2
  · simp only [h, Bool.true_eq_false, false_iff, Classical.not_imp] at this
    exact ⟨fun _ => this, fun _ => rfl⟩

/-- `MemRead` passes its checks exactly when the access is readable (R66). -/
theorem checkRead_next_iff (s : State) (a : Word) (n : Nat) (hn : 1 < n) (u : Unit) :
    checkRead s a n = .next u ↔ Readable s a n := by
  simp only [checkRead, Readable, Reachable, ← misaligned_eq_false_iff s a n hn, ← allFrom_iff]
  split
  · next h => simp [h]
  · next h =>
    simp only [Bool.not_eq_true] at h
    split
    · next h' => simp only [Config.addrSpace] at h'; simp; omega
    · next h' => simp only [Config.addrSpace] at h'; split <;> simp_all

/-- `MemWrite` passes its checks exactly when the access is writable (R66). -/
theorem checkWrite_next_iff (s : State) (a : Word) (n : Nat) (hn : 1 < n) (u : Unit) :
    checkWrite s a n = .next u ↔ Writable s a n := by
  simp only [checkWrite, Writable, Reachable, ← misaligned_eq_false_iff s a n hn, ← allFrom_iff]
  split
  · next h => simp [h]
  · next h =>
    simp only [Bool.not_eq_true] at h
    split
    · next h' => simp only [Config.addrSpace] at h'; simp; omega
    · next h' => simp only [Config.addrSpace] at h'; split <;> simp_all

/-- A check faults only by the alignment exception, and only under the conditions of R65. -/
theorem checkRead_fault_iff (s : State) (a : Word) (n : Nat) (hn : 1 < n) (r : Fault) :
    checkRead s a n = .fault r ↔
      AlignmentActive s ∧ a.toNat % n ≠ 0 ∧ (raise .alignmentCheck s : Res Unit) = .fault r := by
  rw [← and_assoc, ← misaligned_eq_true_iff s a n hn]
  unfold checkRead
  split
  · next h => simp [h]
  · next h => simp only [h]; split <;> (try split) <;> simp

theorem checkWrite_fault_iff (s : State) (a : Word) (n : Nat) (hn : 1 < n) (r : Fault) :
    checkWrite s a n = .fault r ↔
      AlignmentActive s ∧ a.toNat % n ≠ 0 ∧ (raise .alignmentCheck s : Res Unit) = .fault r := by
  rw [← and_assoc, ← misaligned_eq_true_iff s a n hn]
  unfold checkWrite
  split
  · next h => simp [h]
  · next h => simp only [h]; split <;> (try split) <;> simp

/-- What a 4-byte read answers (R66). -/
theorem memRead32_next_iff (s : State) (a v : Word) :
    memRead32 s a = .next v ↔ Readable s a 4 ∧ v = Memory.read32 s.mem a.toNat := by
  unfold memRead32
  rw [andThen_next_iff]
  simp only [checkRead_next_iff s a 4 (by decide), Host.Outcome.next.injEq]
  constructor
  · rintro ⟨-, h, h'⟩; exact ⟨h, h'.symm⟩
  · rintro ⟨h, h'⟩; exact ⟨(), h, h'.symm⟩

/-- What a 2-byte read answers (R66). -/
theorem memRead16_next_iff (s : State) (a : Word) (v : Half) :
    memRead16 s a = .next v ↔ Readable s a 2 ∧ v = Memory.read16 s.mem a.toNat := by
  unfold memRead16
  rw [andThen_next_iff]
  simp only [checkRead_next_iff s a 2 (by decide), Host.Outcome.next.injEq]
  constructor
  · rintro ⟨-, h, h'⟩; exact ⟨h, h'.symm⟩
  · rintro ⟨h, h'⟩; exact ⟨(), h, h'.symm⟩

/-- What a 4-byte write answers (R66). -/
theorem memWrite32_next_iff (s t : State) (a v : Word) :
    memWrite32 s a v = .next t ↔ Writable s a 4 ∧ t = { s with mem := Memory.write32 s.mem a.toNat v } := by
  unfold memWrite32
  rw [andThen_next_iff]
  simp only [checkWrite_next_iff s a 4 (by decide), Host.Outcome.next.injEq]
  constructor
  · rintro ⟨-, h, h'⟩; exact ⟨h, h'.symm⟩
  · rintro ⟨h, h'⟩; exact ⟨(), h, h'.symm⟩

/-- What a 2-byte write answers (R66). -/
theorem memWrite16_next_iff (s t : State) (a : Word) (v : Half) :
    memWrite16 s a v = .next t ↔ Writable s a 2 ∧ t = { s with mem := Memory.write16 s.mem a.toNat v } := by
  unfold memWrite16
  rw [andThen_next_iff]
  simp only [checkWrite_next_iff s a 2 (by decide), Host.Outcome.next.injEq]
  constructor
  · rintro ⟨-, h, h'⟩; exact ⟨h, h'.symm⟩
  · rintro ⟨h, h'⟩; exact ⟨(), h, h'.symm⟩

/-- A readable access answers the little-endian value. -/
theorem memRead32_of_readable {s : State} {a : Word} (h : Readable s a 4) :
    memRead32 s a = .next (Memory.read32 s.mem a.toNat) := (memRead32_next_iff s a _).2 ⟨h, rfl⟩

theorem memRead16_of_readable {s : State} {a : Word} (h : Readable s a 2) :
    memRead16 s a = .next (Memory.read16 s.mem a.toNat) := (memRead16_next_iff s a _).2 ⟨h, rfl⟩

theorem memWrite32_of_writable {s : State} {a : Word} (v : Word) (h : Writable s a 4) :
    memWrite32 s a v = .next { s with mem := Memory.write32 s.mem a.toNat v } :=
  (memWrite32_next_iff s _ a v).2 ⟨h, rfl⟩

theorem memWrite16_of_writable {s : State} {a : Word} (v : Half) (h : Writable s a 2) :
    memWrite16 s a v = .next { s with mem := Memory.write16 s.mem a.toNat v } :=
  (memWrite16_next_iff s _ a v).2 ⟨h, rfl⟩

/-- A write is readable too: `MEM.data` is part of what may be read (R66). -/
theorem readable_of_writable {s : State} {a : Word} {n : Nat} (h : Writable s a n) : Readable s a n :=
  ⟨h.1, fun k hk => mapped_of_inData (h.2 k hk)⟩

/-- Everything a 4-byte push can answer (R186). -/
theorem push32_next_iff (s t : State) (v : Word) :
    push32 s v = .next t ↔ Writable s (s.pushAddr 4) 4 ∧
      t = State.setReg { s with mem := Memory.write32 s.mem (s.pushAddr 4).toNat v } .esp (s.pushAddr 4) := by
  unfold push32
  rw [andThen_next_iff]
  simp only [memWrite32_next_iff, Host.Outcome.next.injEq]
  constructor
  · rintro ⟨a, ⟨h, rfl⟩, h'⟩; exact ⟨h, h'.symm⟩
  · rintro ⟨h, rfl⟩; exact ⟨_, ⟨h, rfl⟩, rfl⟩

/-- Everything a 2-byte push can answer (R143). -/
theorem push16_next_iff (s t : State) (v : Half) :
    push16 s v = .next t ↔ Writable s (s.pushAddr 2) 2 ∧
      t = State.setReg { s with mem := Memory.write16 s.mem (s.pushAddr 2).toNat v } .esp (s.pushAddr 2) := by
  unfold push16
  rw [andThen_next_iff]
  simp only [memWrite16_next_iff, Host.Outcome.next.injEq]
  constructor
  · rintro ⟨a, ⟨h, rfl⟩, h'⟩; exact ⟨h, h'.symm⟩
  · rintro ⟨h, rfl⟩; exact ⟨_, ⟨h, rfl⟩, rfl⟩

theorem requireNoTrapFlag_next_iff (s : State) (u : Unit) :
    requireNoTrapFlag s = .next u ↔ getFlag s.eflags .tf = false := by
  unfold requireNoTrapFlag
  split <;> simp_all

/-- R140 admits exactly VME = PVI = TF = 0. -/
theorem flagStackAdmitted_next_iff (s : State) (u : Unit) :
    flagStackAdmitted s = .next u ↔
      cr4Vme s.cr4 = false ∧ cr4Pvi s.cr4 = false ∧ getFlag s.eflags .tf = false := by
  unfold flagStackAdmitted
  split
  · next h => rcases h with h | h <;> simp [h]
  · next h =>
    simp only [not_or, Bool.not_eq_true] at h
    simp [requireNoTrapFlag_next_iff, h]

/-- The modes a run admits. -/
theorem modeAdmitted_next_iff (s : State) (u : Unit) :
    modeAdmitted s = .next u ↔
      cr0Pe s.cr0 = true ∧ cr0Pg s.cr0 = false ∧ getFlag s.eflags .vm = false ∧ getFlag s.eflags .tf = false := by
  unfold modeAdmitted
  cases cr0Pe s.cr0 <;> cases cr0Pg s.cr0 <;> cases h : getFlag s.eflags .vm <;>
    simp [requireNoTrapFlag_next_iff]

/-- Everything a two-operand instruction can answer (R188 to R194). -/
theorem execAlu_next_iff (op : AluOp) (dst : Rm) (src : Src) (n : Nat) (s t : State) :
    execAlu op dst src n s = .next t ↔
      ∃ a b s1, rmRead s dst = .next a ∧ srcRead s src = .next b ∧
        aluStore op dst (aluResult op a b) s = .next s1 ∧
        t = complete n (aluFlags op a b (aluResult op a b) s1) := by
  simp only [execAlu, andThen_next_iff, Host.Outcome.next.injEq]
  constructor
  · rintro ⟨a, ha, b, hb, s1, h1, h⟩; exact ⟨a, b, s1, ha, hb, h1, h.symm⟩
  · rintro ⟨a, b, s1, ha, hb, h1, rfl⟩; exact ⟨a, ha, b, hb, s1, h1, rfl⟩

/-- Everything a return from an exception can answer (R147). -/
theorem returnFromException_next_iff (s t : State) :
    returnFromException s = .next t ↔
      cr4Vme s.cr4 = false ∧ cr4Pvi s.cr4 = false ∧ getFlag s.eflags .tf = false ∧
      getFlag s.eflags .nt = false ∧ (s.reg .esp).toNat + 12 ≤ 4294967296 ∧
      Readable s (s.reg .esp) 4 ∧ Readable s (s.reg .esp + 4#32) 4 ∧ Readable s (s.reg .esp + 8#32) 4 ∧
      ¬(getFlag (Memory.read32 s.mem (s.reg .esp + 8#32).toNat) .vm = true ∧ s.cpl = 0#2) ∧
      (Memory.read32 s.mem (s.reg .esp + 4#32).toNat).extractLsb' 0 16 = s.csSel ∧
      t = { (s.setEflags (maskWrite s.eflags (Memory.read32 s.mem (s.reg .esp + 8#32).toNat) (iretMask s))).popped 12 with
            eip := Memory.read32 s.mem (s.reg .esp).toNat } := by
  unfold returnFromException
  rw [andThen_next_iff]
  simp only [flagStackAdmitted_next_iff]
  constructor
  · rintro ⟨-, ⟨h1, h2, h3⟩, h⟩
    split at h
    · cases h
    · next hnt =>
      split at h
      · cases h
      · next hw =>
        simp only [andThen_next_iff, memRead32_next_iff] at h
        obtain ⟨x, ⟨hx, rfl⟩, y, ⟨hy, rfl⟩, z, ⟨hz, rfl⟩, h⟩ := h
        split at h
        · cases h
        · next hvm =>
          split at h
          · cases h
          · next hcs =>
            simp only [Config.addrSpace] at hw
            refine ⟨h1, h2, h3, by simpa using hnt, by omega, hx, hy, hz, hvm, by simpa using hcs, ?_⟩
            exact (Host.Outcome.next.inj h).symm
  · rintro ⟨h1, h2, h3, hnt, hw, hx, hy, hz, hvm, hcs, rfl⟩
    refine ⟨(), ⟨h1, h2, h3⟩, ?_⟩
    have hw' : ¬(s.reg .esp).toNat + 12 > Config.addrSpace := by simp only [Config.addrSpace]; omega
    rw [if_neg (by simp [hnt]), if_neg hw', memRead32_of_readable hx, memRead32_of_readable hy,
      memRead32_of_readable hz]
    simp only [andThen_next]
    rw [if_neg hvm, if_neg (by simpa using hcs)]

end Sys2Proof.Machine
end

