-- ==== Sys2Proof/Laws/PerInstr.lean ====
section
/-! SUPPORT. Statements about every instruction as syntax, one lemma per constructor of Instr. -/

namespace Sys2Proof.Laws

/-- The encoding has as many bytes as the length column of the opcode table says, and at least one (R111). -/
def EncodeLength.Statement (i : Instr) : Prop := (encode i).length = i.length ∧ 1 ≤ i.length

theorem EncodeLength.addRmReg (rm reg : Reg) : EncodeLength.Statement (.addRmReg rm reg) := ⟨rfl, Nat.le_of_ble_eq_true rfl⟩
theorem EncodeLength.addMemReg (rm reg : Reg) : EncodeLength.Statement (.addMemReg rm reg) := ⟨rfl, Nat.le_of_ble_eq_true rfl⟩
theorem EncodeLength.addRegRm (reg rm : Reg) : EncodeLength.Statement (.addRegRm reg rm) := ⟨rfl, Nat.le_of_ble_eq_true rfl⟩
theorem EncodeLength.addRegMem (reg rm : Reg) : EncodeLength.Statement (.addRegMem reg rm) := ⟨rfl, Nat.le_of_ble_eq_true rfl⟩
theorem EncodeLength.addEaxImm (imm : Word) : EncodeLength.Statement (.addEaxImm imm) := ⟨rfl, Nat.le_of_ble_eq_true rfl⟩
theorem EncodeLength.orRmReg (rm reg : Reg) : EncodeLength.Statement (.orRmReg rm reg) := ⟨rfl, Nat.le_of_ble_eq_true rfl⟩
theorem EncodeLength.orMemReg (rm reg : Reg) : EncodeLength.Statement (.orMemReg rm reg) := ⟨rfl, Nat.le_of_ble_eq_true rfl⟩
theorem EncodeLength.orRegRm (reg rm : Reg) : EncodeLength.Statement (.orRegRm reg rm) := ⟨rfl, Nat.le_of_ble_eq_true rfl⟩
theorem EncodeLength.orRegMem (reg rm : Reg) : EncodeLength.Statement (.orRegMem reg rm) := ⟨rfl, Nat.le_of_ble_eq_true rfl⟩
theorem EncodeLength.orEaxImm (imm : Word) : EncodeLength.Statement (.orEaxImm imm) := ⟨rfl, Nat.le_of_ble_eq_true rfl⟩
theorem EncodeLength.andRmReg (rm reg : Reg) : EncodeLength.Statement (.andRmReg rm reg) := ⟨rfl, Nat.le_of_ble_eq_true rfl⟩
theorem EncodeLength.andMemReg (rm reg : Reg) : EncodeLength.Statement (.andMemReg rm reg) := ⟨rfl, Nat.le_of_ble_eq_true rfl⟩
theorem EncodeLength.andRegRm (reg rm : Reg) : EncodeLength.Statement (.andRegRm reg rm) := ⟨rfl, Nat.le_of_ble_eq_true rfl⟩
theorem EncodeLength.andRegMem (reg rm : Reg) : EncodeLength.Statement (.andRegMem reg rm) := ⟨rfl, Nat.le_of_ble_eq_true rfl⟩
theorem EncodeLength.andEaxImm (imm : Word) : EncodeLength.Statement (.andEaxImm imm) := ⟨rfl, Nat.le_of_ble_eq_true rfl⟩
theorem EncodeLength.subRmReg (rm reg : Reg) : EncodeLength.Statement (.subRmReg rm reg) := ⟨rfl, Nat.le_of_ble_eq_true rfl⟩
theorem EncodeLength.subMemReg (rm reg : Reg) : EncodeLength.Statement (.subMemReg rm reg) := ⟨rfl, Nat.le_of_ble_eq_true rfl⟩
theorem EncodeLength.subRegRm (reg rm : Reg) : EncodeLength.Statement (.subRegRm reg rm) := ⟨rfl, Nat.le_of_ble_eq_true rfl⟩
theorem EncodeLength.subRegMem (reg rm : Reg) : EncodeLength.Statement (.subRegMem reg rm) := ⟨rfl, Nat.le_of_ble_eq_true rfl⟩
theorem EncodeLength.subEaxImm (imm : Word) : EncodeLength.Statement (.subEaxImm imm) := ⟨rfl, Nat.le_of_ble_eq_true rfl⟩
theorem EncodeLength.xorRmReg (rm reg : Reg) : EncodeLength.Statement (.xorRmReg rm reg) := ⟨rfl, Nat.le_of_ble_eq_true rfl⟩
theorem EncodeLength.xorMemReg (rm reg : Reg) : EncodeLength.Statement (.xorMemReg rm reg) := ⟨rfl, Nat.le_of_ble_eq_true rfl⟩
theorem EncodeLength.xorRegRm (reg rm : Reg) : EncodeLength.Statement (.xorRegRm reg rm) := ⟨rfl, Nat.le_of_ble_eq_true rfl⟩
theorem EncodeLength.xorRegMem (reg rm : Reg) : EncodeLength.Statement (.xorRegMem reg rm) := ⟨rfl, Nat.le_of_ble_eq_true rfl⟩
theorem EncodeLength.xorEaxImm (imm : Word) : EncodeLength.Statement (.xorEaxImm imm) := ⟨rfl, Nat.le_of_ble_eq_true rfl⟩
theorem EncodeLength.cmpRmReg (rm reg : Reg) : EncodeLength.Statement (.cmpRmReg rm reg) := ⟨rfl, Nat.le_of_ble_eq_true rfl⟩
theorem EncodeLength.cmpMemReg (rm reg : Reg) : EncodeLength.Statement (.cmpMemReg rm reg) := ⟨rfl, Nat.le_of_ble_eq_true rfl⟩
theorem EncodeLength.cmpRegRm (reg rm : Reg) : EncodeLength.Statement (.cmpRegRm reg rm) := ⟨rfl, Nat.le_of_ble_eq_true rfl⟩
theorem EncodeLength.cmpRegMem (reg rm : Reg) : EncodeLength.Statement (.cmpRegMem reg rm) := ⟨rfl, Nat.le_of_ble_eq_true rfl⟩
theorem EncodeLength.cmpEaxImm (imm : Word) : EncodeLength.Statement (.cmpEaxImm imm) := ⟨rfl, Nat.le_of_ble_eq_true rfl⟩
theorem EncodeLength.movRegCr0 (rm : Reg) : EncodeLength.Statement (.movRegCr0 rm) := ⟨rfl, Nat.le_of_ble_eq_true rfl⟩
theorem EncodeLength.movRegCr4 (rm : Reg) : EncodeLength.Statement (.movRegCr4 rm) := ⟨rfl, Nat.le_of_ble_eq_true rfl⟩
theorem EncodeLength.movCr4Reg (rm : Reg) : EncodeLength.Statement (.movCr4Reg rm) := ⟨rfl, Nat.le_of_ble_eq_true rfl⟩
theorem EncodeLength.movCr0Reg (rm : Reg) : EncodeLength.Statement (.movCr0Reg rm) := ⟨rfl, Nat.le_of_ble_eq_true rfl⟩
theorem EncodeLength.wrmsr : EncodeLength.Statement .wrmsr := ⟨rfl, Nat.le_of_ble_eq_true rfl⟩
theorem EncodeLength.rdtsc : EncodeLength.Statement .rdtsc := ⟨rfl, Nat.le_of_ble_eq_true rfl⟩
theorem EncodeLength.rdmsr : EncodeLength.Statement .rdmsr := ⟨rfl, Nat.le_of_ble_eq_true rfl⟩
theorem EncodeLength.cpuid : EncodeLength.Statement .cpuid := ⟨rfl, Nat.le_of_ble_eq_true rfl⟩
theorem EncodeLength.incReg (r : Reg) : EncodeLength.Statement (.incReg r) := ⟨rfl, Nat.le_of_ble_eq_true rfl⟩
theorem EncodeLength.decReg (r : Reg) : EncodeLength.Statement (.decReg r) := ⟨rfl, Nat.le_of_ble_eq_true rfl⟩
theorem EncodeLength.pushReg (r : Reg) : EncodeLength.Statement (.pushReg r) := ⟨rfl, Nat.le_of_ble_eq_true rfl⟩
theorem EncodeLength.popReg (r : Reg) : EncodeLength.Statement (.popReg r) := ⟨rfl, Nat.le_of_ble_eq_true rfl⟩
theorem EncodeLength.pushf : EncodeLength.Statement .pushf := ⟨rfl, Nat.le_of_ble_eq_true rfl⟩
theorem EncodeLength.popf : EncodeLength.Statement .popf := ⟨rfl, Nat.le_of_ble_eq_true rfl⟩
theorem EncodeLength.jccRel8 (cc : Cond) (rel : BitVec 8) : EncodeLength.Statement (.jccRel8 cc rel) := ⟨rfl, Nat.le_of_ble_eq_true rfl⟩
theorem EncodeLength.testRmReg (rm reg : Reg) : EncodeLength.Statement (.testRmReg rm reg) := ⟨rfl, Nat.le_of_ble_eq_true rfl⟩
theorem EncodeLength.testMemReg (rm reg : Reg) : EncodeLength.Statement (.testMemReg rm reg) := ⟨rfl, Nat.le_of_ble_eq_true rfl⟩
theorem EncodeLength.movRmReg (rm reg : Reg) : EncodeLength.Statement (.movRmReg rm reg) := ⟨rfl, Nat.le_of_ble_eq_true rfl⟩
theorem EncodeLength.movMemReg (rm reg : Reg) : EncodeLength.Statement (.movMemReg rm reg) := ⟨rfl, Nat.le_of_ble_eq_true rfl⟩
theorem EncodeLength.movRegRm (reg rm : Reg) : EncodeLength.Statement (.movRegRm reg rm) := ⟨rfl, Nat.le_of_ble_eq_true rfl⟩
theorem EncodeLength.movRegMem (reg rm : Reg) : EncodeLength.Statement (.movRegMem reg rm) := ⟨rfl, Nat.le_of_ble_eq_true rfl⟩
theorem EncodeLength.nop : EncodeLength.Statement .nop := ⟨rfl, Nat.le_of_ble_eq_true rfl⟩
theorem EncodeLength.pushfd : EncodeLength.Statement .pushfd := ⟨rfl, Nat.le_of_ble_eq_true rfl⟩
theorem EncodeLength.popfd : EncodeLength.Statement .popfd := ⟨rfl, Nat.le_of_ble_eq_true rfl⟩
theorem EncodeLength.sahf : EncodeLength.Statement .sahf := ⟨rfl, Nat.le_of_ble_eq_true rfl⟩
theorem EncodeLength.lahf : EncodeLength.Statement .lahf := ⟨rfl, Nat.le_of_ble_eq_true rfl⟩
theorem EncodeLength.movRegImm (r : Reg) (imm : Word) : EncodeLength.Statement (.movRegImm r imm) := ⟨rfl, Nat.le_of_ble_eq_true rfl⟩
theorem EncodeLength.ret : EncodeLength.Statement .ret := ⟨rfl, Nat.le_of_ble_eq_true rfl⟩
theorem EncodeLength.iretd : EncodeLength.Statement .iretd := ⟨rfl, Nat.le_of_ble_eq_true rfl⟩
theorem EncodeLength.fxch (i : Fin 8) : EncodeLength.Statement (.fxch i) := ⟨rfl, Nat.le_of_ble_eq_true rfl⟩
theorem EncodeLength.callRel32 (rel : Word) : EncodeLength.Statement (.callRel32 rel) := ⟨rfl, Nat.le_of_ble_eq_true rfl⟩
theorem EncodeLength.jmpRel32 (rel : Word) : EncodeLength.Statement (.jmpRel32 rel) := ⟨rfl, Nat.le_of_ble_eq_true rfl⟩
theorem EncodeLength.jmpRel8 (rel : BitVec 8) : EncodeLength.Statement (.jmpRel8 rel) := ⟨rfl, Nat.le_of_ble_eq_true rfl⟩
theorem EncodeLength.hlt : EncodeLength.Statement .hlt := ⟨rfl, Nat.le_of_ble_eq_true rfl⟩

end Sys2Proof.Laws
end

