-- ==== Sys2Proof/Laws/Step.lean ====
section
/-! SUPPORT. Everything a step, a fetch and a launch can do, for later proofs to cite instead of unfolding them. -/

namespace Sys2Proof.Machine

/-- The fetch refuses or answers; it raises nothing (R66). -/
theorem fetch_ne_fault (s : State) (r : Fault) : fetch s ≠ .fault r := by
  unfold fetch
  dsimp only
  split
  · simp
  · split <;> simp
  · simp

theorem condHolds_iff (s : State) (cc : Cond) : condHolds cc s.eflags = true ↔ CondTable s cc := by
  cases cc <;> simp [condHolds, CondTable]

/-- An instruction falls through exactly when it is no control transfer that is taken. -/
theorem fallsThrough_eq_false_iff (i : Instr) (s : State) : fallsThrough i s = false ↔ Transfers i s := by
  cases i with
  | jmpRel8 r => exact iff_of_true rfl (.inl ⟨r, rfl⟩)
  | jmpRel32 r => exact iff_of_true rfl (.inr (.inl ⟨r, rfl⟩))
  | callRel32 r => exact iff_of_true rfl (.inr (.inr (.inl ⟨r, rfl⟩)))
  | ret => exact iff_of_true rfl (.inr (.inr (.inr (.inl rfl))))
  | iretd => exact iff_of_true rfl (.inr (.inr (.inr (.inr (.inl rfl)))))
  | jccRel8 cc r =>
    rw [show fallsThrough (.jccRel8 cc r) s = !condHolds cc s.eflags from rfl, Bool.not_eq_false', condHolds_iff]
    refine ⟨fun h => .inr (.inr (.inr (.inr (.inr ⟨cc, r, rfl, h⟩)))), ?_⟩
    rintro (⟨_, h⟩ | ⟨_, h⟩ | ⟨_, h⟩ | h | h | ⟨_, _, h, hc⟩) <;> cases h
    exact hc
  | _ =>
    exact iff_of_false (show ¬true = false from nofun)
      (by rintro (⟨_, h⟩ | ⟨_, h⟩ | ⟨_, h⟩ | h | h | ⟨_, _, h, _⟩) <;> cases h)

/-- EIP does not wrap exactly when the instruction ends below the top of the address space or is a transfer that is taken. -/
theorem eipWraps_eq_false_iff (i : Instr) (s : State) :
    eipWraps i s = false ↔ s.eip.toNat + i.length < 4294967296 ∨ Transfers i s := by
  rw [← fallsThrough_eq_false_iff]
  unfold eipWraps Config.addrSpace
  cases fallsThrough i s
  · simp
  · simp only [Bool.true_and, decide_eq_false_iff_not, Nat.not_le, Bool.true_eq_false, or_false]

/-- The end of an instruction answers its state exactly when EIP does not wrap (R280). -/
theorem finish_next_iff (i : Instr) (s t u : State) : finish i s t = .next u ↔ eipWraps i s = false ∧ t = u := by
  unfold finish
  cases eipWraps i s <;> simp

/-- The end of an instruction where EIP does not wrap. -/
theorem finish_of_not_wraps {i : Instr} {s t : State} (h : eipWraps i s = false) : finish i s t = .next t :=
  (finish_next_iff i s t t).2 ⟨h, rfl⟩

/-- The end of an instruction raises nothing. -/
@[simp] theorem finish_ne_fault (i : Instr) (s t : State) (r : Fault) : finish i s t ≠ .fault r := by
  unfold finish
  split <;> simp

/-- Everything a change of the FLUSH# pin does (R105, R231). -/
theorem flushPin_eq (before after : Bool) (s : State) :
    flushPin before after s =
      { s with inputs := { s.inputs with flush := s.inputs.flush + if before = true ∧ after = false then 1 else 0 } } := by
  cases before <;> cases after <;> rfl

/-- Everything a step that answers a next state can have done. -/
theorem step_next_cases {s t : State} (h : step s = .next t) :
    (s.inputs.flush ≠ 0 ∧ t = recogniseFlush s) ∨
      (s.inputs.flush = 0 ∧ s.inputs.init = true ∧ t = initialise s) ∨
      (s.inputs.init = false ∧ s.halted = true ∧ t = s) ∨
      (s.inputs.init = false ∧ s.halted = false ∧ modeAdmitted s = .next () ∧ codeBreakpointCheck s = .next () ∧
        ∃ i, fetch s = .next i ∧ exec i s = .next t ∧ eipWraps i s = false) := by
  unfold step boundaryEvent at h
  cases h1 : s.inputs.rs <;> cases h2 : s.inputs.smi <;> by_cases h3 : s.inputs.flush = 0 <;> cases h4 : s.inputs.init <;>
    cases h5 : s.halted <;> simp [h1, h2, h3, h4, h5] at h <;> simp [h, h3]
  simp only [andThen_next_iff] at h
  obtain ⟨_, hm, _, hc, i, hi, u, hu, h⟩ := h
  obtain ⟨hw, rfl⟩ := (finish_next_iff i s u t).1 h
  exact ⟨hm, hc, i, hi, hu, hw⟩

/-- In an admitted mode, with nothing to take at the boundary, a step is the breakpoint check, the fetch, the meaning and the
check of the next address. -/
theorem step_of_running {s : State} (h : Running s) :
    step s = andThen (codeBreakpointCheck s) fun _ => andThen (fetch s) fun i =>
      andThen (exec i s) fun t => finish i s t := by
  obtain ⟨h1, h2, h3⟩ := h
  have hm := (modeAdmitted_next_iff s ()).2 h3
  unfold step boundaryEvent
  simp [h1, h2, hm]

/-- The fetched bytes begin with any code that stands at the address and fits in the window. -/
theorem fetchBytes_of_codeAt (s : State) (a n : Nat) (bs : List Byte) (hn : bs.length ≤ n) (h : CodeAt s a bs) :
    ∃ rest, fetchBytes s a n = bs ++ rest := by
  induction bs generalizing a n with
  | nil => exact ⟨_, rfl⟩
  | cons b bs ih =>
    cases n with
    | zero => simp at hn
    | succ n =>
      obtain ⟨h1, h2, h3⟩ := h 0 (by simp)
      obtain ⟨rest, hr⟩ := ih (a + 1) n (by simpa using hn) (fun k hk => by
        have := h (k + 1) (by simp; omega)
        rw [show a + 1 + k = a + (k + 1) by omega]
        simpa using this)
      refine ⟨rest, ?_⟩
      simp only [Nat.add_zero, List.getElem_cons_zero] at h1 h2 h3
      rw [fetchBytes, if_pos ⟨h1, h2⟩, h3, hr]
      rfl

/-- Memory after reset has its canonical form. -/
theorem wf_reset_mem : Memory.wf State.reset.mem = true := rfl

/-- A launch keeps memory's canonical form. -/
theorem wf_launch_mem {s : State} (bs : List Byte) (h : Memory.wf s.mem = true) : Memory.wf (launch s bs).mem = true :=
  Memory.wf_writeBytes _ _ h

/-- Everything a launch does: memory holds the program, which is code, and the next step runs (R274; log 5). -/
theorem running_launch (s : State) (bs : List Byte) : Running (launch s bs) := by
  refine ⟨rfl, rfl, ?_, ?_, ?_, ?_⟩
  · show (hardwireCr0 (setBit (setBit s.cr0 0 true) 31 false)).getLsbD 0 = true
    rw [getLsbD_hardwireCr0, getLsbD_setBit _ _ _ _ (by decide), getLsbD_setBit _ _ _ _ (by decide)]
    rfl
  · show (hardwireCr0 (setBit (setBit s.cr0 0 true) 31 false)).getLsbD 31 = false
    rw [getLsbD_hardwireCr0, getLsbD_setBit _ _ _ _ (by decide)]
    rfl
  · show getFlag (hardwireEflags (setFlag .vm false (setFlag .tf false s.eflags))) .vm = false
    simp
  · show getFlag (hardwireEflags (setFlag .vm false (setFlag .tf false s.eflags))) .tf = false
    simp

/-- A launch from a state with the invariant meets the premises of R274 that the state carries. -/
theorem launch_of_launch {s : State} {bs : List Byte} (hs : RunInvariant s) (hb : bs ≠ []) : Launch (launch s bs) := by
  obtain ⟨-, h4, hv, -, -, hw⟩ := hs
  obtain ⟨-, -, h1, h2, h3, htf⟩ := running_launch s bs
  refine ⟨⟨⟨hardwireEflags_fixed0 _, hardwireEflags_fixed1 _⟩, h4, fun a b => ?_, h3, cr0Et_hardwireCr0 _, wf_launch_mem bs hw⟩,
    h1, h2, htf, ?_, rfl, rfl, rfl, rfl, rfl, rfl⟩
  · have := hv a b
    show getFlag (hardwireEflags (setFlag .vm false (setFlag .tf false s.eflags))) .vif = false ∧
      getFlag (hardwireEflags (setFlag .vm false (setFlag .tf false s.eflags))) .vip = false
    simpa using this
  · have hl : 0 < bs.length := List.length_pos_of_ne_nil hb
    simp [launch, inCode, kindAt, Region.holds, hl]

end Sys2Proof.Machine
end

