-- ==== Sys2Proof/Laws/Refusals.lean ====
section
/-! SUPPORT. Every refusal of a shared operation carries a reason and the address of the instruction (R280): one lemma per
operation, for later proofs to cite. -/

namespace Sys2Proof.Machine

/-- Every refusal of the operation carries a reason and this address. -/
def RefusedAt {α : Type} (e : Word) (x : Res α) : Prop := ∀ r, x = .refused r → ∃ reason, r = .because reason e

theorem refusedAt_next {α : Type} (e : Word) (a : α) : RefusedAt e (.next a : Res α) := fun _ h => by cases h

theorem refusedAt_raise {α : Type} (x : Exception) (s : State) (e : Word) : RefusedAt e (raise x s : Res α) :=
  fun _ h => by cases h

theorem refusedAt_refuse {α : Type} (reason : RefusalReason) (s : State) : RefusedAt s.eip (refuse reason s : Res α) :=
  fun r h => ⟨reason, (refuse_eq_refused_iff reason s r).1 h⟩

theorem refusedAt_andThen {α β : Type} {e : Word} {x : Res α} {f : α → Res β} (hx : RefusedAt e x)
    (hf : ∀ a, x = .next a → RefusedAt e (f a)) : RefusedAt e (andThen x f) := by
  cases x with
  | next a => exact hf a rfl
  | fault r => exact fun _ h => by cases h
  | refused r => exact fun r' h => hx r' (by simpa using h)

theorem refusedAt_checkRead (s : State) (a : Word) (n : Nat) : RefusedAt s.eip (checkRead s a n) := by
  unfold checkRead
  repeat' split
  · exact refusedAt_raise _ _ _
  · exact refusedAt_refuse _ _
  · exact refusedAt_next _ _
  · exact refusedAt_refuse _ _

theorem refusedAt_checkWrite (s : State) (a : Word) (n : Nat) : RefusedAt s.eip (checkWrite s a n) := by
  unfold checkWrite
  repeat' split
  · exact refusedAt_raise _ _ _
  · exact refusedAt_refuse _ _
  · exact refusedAt_next _ _
  · exact refusedAt_refuse _ _

theorem refusedAt_memRead16 (s : State) (a : Word) : RefusedAt s.eip (memRead16 s a) :=
  refusedAt_andThen (refusedAt_checkRead s a 2) fun _ _ => refusedAt_next _ _

theorem refusedAt_memRead32 (s : State) (a : Word) : RefusedAt s.eip (memRead32 s a) :=
  refusedAt_andThen (refusedAt_checkRead s a 4) fun _ _ => refusedAt_next _ _

theorem refusedAt_memWrite16 (s : State) (a : Word) (v : Half) : RefusedAt s.eip (memWrite16 s a v) :=
  refusedAt_andThen (refusedAt_checkWrite s a 2) fun _ _ => refusedAt_next _ _

theorem refusedAt_memWrite32 (s : State) (a : Word) (v : Word) : RefusedAt s.eip (memWrite32 s a v) :=
  refusedAt_andThen (refusedAt_checkWrite s a 4) fun _ _ => refusedAt_next _ _

theorem refusedAt_push16 (s : State) (v : Half) : RefusedAt s.eip (push16 s v) :=
  refusedAt_andThen (refusedAt_memWrite16 s _ v) fun _ _ => refusedAt_next _ _

theorem refusedAt_push32 (s : State) (v : Word) : RefusedAt s.eip (push32 s v) :=
  refusedAt_andThen (refusedAt_memWrite32 s _ v) fun _ _ => refusedAt_next _ _

theorem refusedAt_rmRead (s : State) (x : Rm) : RefusedAt s.eip (rmRead s x) := by
  cases x
  · exact refusedAt_next _ _
  · exact refusedAt_memRead32 _ _

theorem refusedAt_rmWrite (s : State) (v : Word) (x : Rm) : RefusedAt s.eip (rmWrite s v x) := by
  cases x
  · exact refusedAt_next _ _
  · exact refusedAt_memWrite32 _ _ _

theorem refusedAt_srcRead (s : State) (x : Src) : RefusedAt s.eip (srcRead s x) := by
  cases x
  · exact refusedAt_rmRead _ _
  · exact refusedAt_next _ _

theorem refusedAt_requireCpl0 (s : State) : RefusedAt s.eip (requireCpl0 s) := by
  unfold requireCpl0
  split
  · exact refusedAt_next _ _
  · exact refusedAt_raise _ _ _

theorem refusedAt_requireNoTrapFlag (s : State) : RefusedAt s.eip (requireNoTrapFlag s) := by
  unfold requireNoTrapFlag
  split
  · exact refusedAt_refuse _ _
  · exact refusedAt_next _ _

theorem refusedAt_flagStackAdmitted (s : State) : RefusedAt s.eip (flagStackAdmitted s) := by
  unfold flagStackAdmitted
  split
  · exact refusedAt_refuse _ _
  · exact refusedAt_requireNoTrapFlag _

theorem refusedAt_modeAdmitted (s : State) : RefusedAt s.eip (modeAdmitted s) := by
  unfold modeAdmitted
  repeat' split
  · exact refusedAt_refuse _ _
  · exact refusedAt_refuse _ _
  · exact refusedAt_refuse _ _
  · exact refusedAt_requireNoTrapFlag _

theorem refusedAt_execAlu (op : AluOp) (dst : Rm) (src : Src) (n : Nat) (s : State) :
    RefusedAt s.eip (execAlu op dst src n s) :=
  refusedAt_andThen (refusedAt_rmRead s dst) fun _ _ => refusedAt_andThen (refusedAt_srcRead s src) fun _ _ =>
    refusedAt_andThen
      (by unfold aluStore; split; exacts [refusedAt_rmWrite _ _ _, refusedAt_next _ _]) fun _ _ => refusedAt_next _ _

theorem refusedAt_execMove (dst : Rm) (src : Src) (n : Nat) (s : State) : RefusedAt s.eip (execMove dst src n s) :=
  refusedAt_andThen (refusedAt_srcRead s src) fun _ _ =>
    refusedAt_andThen (refusedAt_rmWrite s _ dst) fun _ _ => refusedAt_next _ _

theorem refusedAt_returnFromException (s : State) : RefusedAt s.eip (returnFromException s) := by
  refine refusedAt_andThen (refusedAt_flagStackAdmitted s) fun _ _ => ?_
  split
  · exact refusedAt_refuse _ _
  split
  · exact refusedAt_refuse _ _
  refine refusedAt_andThen (refusedAt_memRead32 s _) fun _ _ => refusedAt_andThen (refusedAt_memRead32 s _) fun _ _ =>
    refusedAt_andThen (refusedAt_memRead32 s _) fun _ _ => ?_
  split
  · exact refusedAt_refuse _ _
  split
  · exact refusedAt_refuse _ _
  · exact refusedAt_next _ _

theorem refusedAt_fetch (s : State) : RefusedAt s.eip (fetch s) := by
  unfold fetch
  dsimp only
  split
  · exact refusedAt_next _ _
  · split <;> exact refusedAt_refuse _ _
  · exact refusedAt_refuse _ _

theorem refusedAt_finish (i : Instr) (s t : State) : RefusedAt s.eip (finish i s t) := by
  unfold finish
  split
  · exact refusedAt_refuse _ _
  · exact refusedAt_next _ _

end Sys2Proof.Machine
end

