-- ==== Sys2Proof/Laws/Results.lean ====
section
/-! SUPPORT. What the shared flag and memory operations compute, in the exact arithmetic of Safety.lean, and the frame of a state
built by completing an instruction. -/

namespace Sys2Proof.Machine

/-! ### Exact arithmetic -/

theorem sumOf_eq (a b : Word) : sumOf a b = a + b :=
  BitVec.eq_of_toNat_eq (by simp [sumOf])

theorem differenceOf_eq (a b : Word) : differenceOf a b = a - b := by
  apply BitVec.eq_of_toNat_eq
  have := a.isLt
  have := b.isLt
  simp only [differenceOf, BitVec.toNat_sub, BitVec.toNat_ofNat]
  congr 1
  omega

theorem toNat_append_byte {n : Nat} (a : BitVec n) (b : Byte) : (a ++ b).toNat = b.toNat + 256 * a.toNat := by
  rw [BitVec.toNat_append, ← Nat.shiftLeft_add_eq_or_of_lt b.isLt, Nat.shiftLeft_eq]
  omega

/-- Four little-endian bytes as a number (R62). -/
theorem toNat_le32 (b0 b1 b2 b3 : Byte) :
    (le32 b0 b1 b2 b3).toNat = b0.toNat + 256 * (b1.toNat + 256 * (b2.toNat + 256 * b3.toNat)) := by
  rw [le32, toNat_append_byte, toNat_append_byte, toNat_append_byte]

theorem memValue_four (s : State) (a : Nat) : memValue s a 4 = (Memory.read32 s.mem a).toNat := by
  rw [Memory.read32, toNat_le32]
  simp [memValue, Nat.add_assoc]

theorem memValue_two (s : State) (a : Nat) : memValue s a 2 = (Memory.read16 s.mem a).toNat := by
  rw [Memory.read16, le16, toNat_append_byte]
  simp [memValue]

theorem wordAt_eq (s : State) (a : Word) : wordAt s a = Memory.read32 s.mem a.toNat := by
  rw [wordAt, memValue_four]
  simp

theorem getLsbD_31_eq (a : Word) : a.getLsbD 31 = decide (a.toInt < 0) := by
  have h : a.getLsbD 31 = a.msb := by simp [BitVec.msb_eq_getLsbD_last]
  rw [h, BitVec.msb_eq_toInt]

/-- OF of an addition: the signed sum does not fit (R21). -/
theorem add_overflow_iff (a b : Word) :
    (a.getLsbD 31 = b.getLsbD 31 ∧ (a + b).getLsbD 31 ≠ a.getLsbD 31) ↔ a.toInt + b.toInt ≠ (a + b).toInt := by
  have h := BitVec.toInt_add a b
  have := BitVec.toInt_lt (x := a)
  have := BitVec.le_toInt (x := a)
  have := BitVec.toInt_lt (x := b)
  have := BitVec.le_toInt (x := b)
  rw [getLsbD_31_eq, getLsbD_31_eq, getLsbD_31_eq, h, Int.bmod_def]
  simp only [ne_eq, decide_eq_decide]
  split <;> omega

/-- OF of a subtraction: the signed difference does not fit (R21). -/
theorem sub_overflow_iff (a b : Word) :
    (a.getLsbD 31 ≠ b.getLsbD 31 ∧ (a - b).getLsbD 31 ≠ a.getLsbD 31) ↔ a.toInt - b.toInt ≠ (a - b).toInt := by
  have h := BitVec.toInt_sub (x := a) (y := b)
  have := BitVec.toInt_lt (x := a)
  have := BitVec.le_toInt (x := a)
  have := BitVec.toInt_lt (x := b)
  have := BitVec.le_toInt (x := b)
  rw [getLsbD_31_eq, getLsbD_31_eq, getLsbD_31_eq, h, Int.bmod_def]
  simp only [ne_eq, decide_eq_decide]
  split <;> omega

theorem getLsbD_eq_div (x : Word) (i : Nat) : x.getLsbD i = decide (x.toNat / 2 ^ i % 2 = 1) := by
  simp only [BitVec.getLsbD, Nat.testBit_eq_decide_div_mod_eq]

theorem xor_xor_eq_true_iff (p q r : Bool) : (p ^^ q ^^ r) = true ↔ ((p = true ↔ q = true) ↔ r = true) := by
  cases p <;> cases q <;> cases r <;> simp

/-- AF of an addition: the carry out of bit 3 (R21). -/
theorem add_auxiliary_iff (a b : Word) :
    (a ^^^ b ^^^ (a + b)).getLsbD 4 = true ↔ 16 ≤ a.toNat % 16 + b.toNat % 16 := by
  rw [BitVec.getLsbD_xor, BitVec.getLsbD_xor]
  simp only [getLsbD_eq_div, BitVec.toNat_add, xor_xor_eq_true_iff, decide_eq_true_eq]
  omega

/-- AF of a subtraction: the borrow into bit 3 (R21). -/
theorem sub_auxiliary_iff (a b : Word) : (a ^^^ b ^^^ (a - b)).getLsbD 4 = true ↔ a.toNat % 16 < b.toNat % 16 := by
  have := a.isLt
  have := b.isLt
  rw [BitVec.getLsbD_xor, BitVec.getLsbD_xor]
  simp only [getLsbD_eq_div, BitVec.toNat_sub, xor_xor_eq_true_iff, decide_eq_true_eq]
  omega

theorem parity8_iff (r : Word) : parity8 r = true ↔ EvenParity r := by
  unfold parity8 EvenParity
  simp only [List.range, List.range.loop, List.countP_cons, List.countP_nil]
  cases r.getLsbD 0 <;> cases r.getLsbD 1 <;> cases r.getLsbD 2 <;> cases r.getLsbD 3 <;>
    cases r.getLsbD 4 <;> cases r.getLsbD 5 <;> cases r.getLsbD 6 <;> cases r.getLsbD 7 <;> simp

/-! ### Flags after an operation -/

theorem eflagsFixed_hardwireEflags (v : Word) : EflagsFixed (hardwireEflags v) :=
  ⟨hardwireEflags_fixed0 v, hardwireEflags_fixed1 v⟩

theorem flagsAdd_of_not_mem (a b r e : Word) (i : Nat) (h : i ∉ statusBits) :
    (flagsAdd a b r e).getLsbD i = e.getLsbD i := by
  simp only [statusBits, List.mem_cons, not_or] at h
  simp [flagsAdd, setSZP, getLsbD_setFlag, Flag.pos, h]

theorem flagsSub_of_not_mem (a b r e : Word) (i : Nat) (h : i ∉ statusBits) :
    (flagsSub a b r e).getLsbD i = e.getLsbD i := by
  simp only [statusBits, List.mem_cons, not_or] at h
  simp [flagsSub, setSZP, getLsbD_setFlag, Flag.pos, h]

theorem flagsLogic_of_not_mem (r : Word) (af : Bool) (e : Word) (i : Nat) (h : i ∉ statusBits) :
    (flagsLogic r af e).getLsbD i = e.getLsbD i := by
  simp only [statusBits, List.mem_cons, not_or] at h
  simp [flagsLogic, setSZP, getLsbD_setFlag, Flag.pos, h]

theorem setStatus_of_not_mem (vOf vSf vZf vAf vPf vCf : Bool) (e : Word) (i : Nat) (h : i ∉ statusBits) :
    (setStatus vOf vSf vZf vAf vPf vCf e).getLsbD i = e.getLsbD i := by
  simp only [statusBits, List.mem_cons, not_or] at h
  simp [setStatus, getLsbD_setFlag, Flag.pos, h]

theorem flagsInc_of_not_mem (a r e : Word) (i : Nat) (h : i ∉ [2, 4, 6, 7, 11]) :
    (flagsInc a r e).getLsbD i = e.getLsbD i := by
  simp only [List.mem_cons, not_or] at h
  simp [flagsInc, setSZP, getLsbD_setFlag, Flag.pos, h]

theorem flagsDec_of_not_mem (a r e : Word) (i : Nat) (h : i ∉ [2, 4, 6, 7, 11]) :
    (flagsDec a r e).getLsbD i = e.getLsbD i := by
  simp only [List.mem_cons, not_or] at h
  simp [flagsDec, setSZP, getLsbD_setFlag, Flag.pos, h]

/-- SF, ZF and PF, once EFLAGS holds those of `r`. -/
theorem resultFlags_of_eflags {t : State} {r e : Word}
    (h : t.eflags = hardwireEflags (setFlag .rf false (hardwireEflags e)))
    (hs : getFlag e .sf = r.getLsbD 31) (hz : getFlag e .zf = decide (r = 0#32)) (hp : getFlag e .pf = parity8 r) :
    ResultFlags t r := by
  refine ⟨?_, ?_, ?_⟩
  · simp [h, hs, getLsbD_31_eq, -BitVec.getLsbD_eq_getElem]
  · simp [h, hz]
  · simp [h, hp, parity8_iff]

/-- The flags of R180 are those of the exact sum (R21). -/
theorem addFlags_of_eflags {t : State} {a b e : Word}
    (h : t.eflags = hardwireEflags (setFlag .rf false (hardwireEflags (flagsAdd a b (a + b) e)))) :
    AddFlags t a b (sumOf a b) := by
  rw [sumOf_eq]
  refine ⟨?_, ?_, ?_, resultFlags_of_eflags h (by simp [flagsAdd, setSZP]) (by simp [flagsAdd, setSZP])
    (by simp [flagsAdd, setSZP])⟩
  · simp [h, flagsAdd, setSZP]
  · rw [← add_overflow_iff]; simp [h, flagsAdd, setSZP]
  · rw [← add_auxiliary_iff]; simp [h, flagsAdd, setSZP, -BitVec.getLsbD_xor]

/-- The flags of R180 are those of the exact difference (R21). -/
theorem subFlags_of_eflags {t : State} {a b e : Word}
    (h : t.eflags = hardwireEflags (setFlag .rf false (hardwireEflags (flagsSub a b (a - b) e)))) :
    SubFlags t a b (differenceOf a b) := by
  rw [differenceOf_eq]
  refine ⟨?_, ?_, ?_, resultFlags_of_eflags h (by simp [flagsSub, setSZP]) (by simp [flagsSub, setSZP])
    (by simp [flagsSub, setSZP])⟩
  · simp [h, flagsSub, setSZP]
  · rw [← sub_overflow_iff]; simp [h, flagsSub, setSZP]
  · rw [← sub_auxiliary_iff]; simp [h, flagsSub, setSZP, -BitVec.getLsbD_xor]

theorem logicFlags_of_eflags {t : State} {r e : Word} {af : Bool}
    (h : t.eflags = hardwireEflags (setFlag .rf false (hardwireEflags (flagsLogic r af e)))) : LogicFlags t r := by
  refine ⟨?_, ?_, resultFlags_of_eflags h (by simp [flagsLogic, setSZP]) (by simp [flagsLogic, setSZP])
    (by simp [flagsLogic, setSZP])⟩ <;> simp [h, flagsLogic, setSZP]

/-- The bits that the privilege part of a pop's mask has (R145 to R147). -/
theorem getLsbD_maskPrivileged (cpl iopl : BitVec 2) (i : Nat) (hi : i < 32) :
    (maskPrivileged cpl iopl).getLsbD i =
      (decide (i = 9 ∧ cpl ≤ iopl) || decide ((i = 12 ∨ i = 13) ∧ cpl = 0#2)) := by
  have : ∀ i, i < 32 →
      maskIf.getLsbD i = decide (i = 9) ∧ maskIopl.getLsbD i = decide (i = 12 ∨ i = 13) := by decide
  obtain ⟨h1, h2⟩ := this i hi
  rw [maskPrivileged, BitVec.getLsbD_or]
  split <;> split <;> simp_all

/-! ### Frames -/

/-- EFLAGS after an instruction that wrote the flags `e` and completed: RF is 0, and the bits that `e` kept are kept. -/
theorem sameFlags_of_written {s t : State} (bits : List Nat) (e : Word)
    (ht : t.eflags = hardwireEflags (setFlag .rf false (hardwireEflags e)))
    (he : ∀ i, i ∉ bits → e.getLsbD i = s.eflags.getLsbD i) :
    SameFlags s t (rfBit :: bits) ∧ getFlag t.eflags .rf = false := by
  refine ⟨⟨ht ▸ eflagsFixed_hardwireEflags _, ?_⟩, by simp [ht]⟩
  intro i hi hn h0 h1
  simp only [List.mem_cons, not_or, rfBit] at hn
  rw [ht, getLsbD_hardwireEflags _ _ hi h0 h1, getLsbD_setFlag]
  simp only [Flag.pos, hn.1, if_false]
  rw [getLsbD_hardwireEflags _ _ hi h0 h1]
  exact he i hn.2

/-- EFLAGS after an instruction that wrote no flag and completed: RF is 0, the rest is kept. -/
theorem sameFlags_of_completed {s t : State} (ht : t.eflags = hardwireEflags (setFlag .rf false s.eflags)) :
    SameFlags s t [rfBit] ∧ getFlag t.eflags .rf = false := by
  refine ⟨⟨ht ▸ eflagsFixed_hardwireEflags _, ?_⟩, by simp [ht]⟩
  intro i hi hn h0 h1
  simp only [List.mem_singleton, rfBit] at hn
  rw [ht, getLsbD_hardwireEflags _ _ hi h0 h1, getLsbD_setFlag]
  simp only [Flag.pos, hn, if_false]

theorem sameRegs_of_set {s t : State} (d : Reg) (v : Word) (h : t.regs = s.regs.set d v) : SameRegs s t [d] := by
  intro r hr
  simp only [List.mem_singleton] at hr
  simp only [State.reg, h, Regs.get_set_ne _ _ _ _ hr]

theorem sameRegs_of_eq {s t : State} (h : t.regs = s.regs) : SameRegs s t [] := by
  intro r _
  simp only [State.reg, h]

theorem reg_of_set {t : State} {r : Regs} (d : Reg) (v : Word) (h : t.regs = r.set d v) : t.reg d = v := by
  simp only [State.reg, h, Regs.get_set_same]

theorem holds32_of_write32 {t : State} {m : Memory} (a : Nat) (v : Word) (h : Memory.wf m = true)
    (hm : t.mem = Memory.write32 m a v) : Holds32 t a v := by
  intro k hk
  rw [hm]
  exact Memory.readByte_write32 a k v h hk

theorem holds16_of_write16 {t : State} {m : Memory} (a : Nat) (v : Half) (h : Memory.wf m = true)
    (hm : t.mem = Memory.write16 m a v) : Holds16 t a v := by
  intro k hk
  rw [hm]
  exact Memory.readByte_write16 a k v h hk

theorem sameMemory_of_write32 {s t : State} (a : Nat) (v : Word) (h : Memory.wf s.mem = true)
    (hm : t.mem = Memory.write32 s.mem a v) : SameMemory s t a 4 := by
  intro x hx
  rw [hm]
  exact Memory.readByte_write32_of_ne a x v h hx

theorem sameMemory_of_write16 {s t : State} (a : Nat) (v : Half) (h : Memory.wf s.mem = true)
    (hm : t.mem = Memory.write16 s.mem a v) : SameMemory s t a 2 := by
  intro x hx
  rw [hm]
  exact Memory.readByte_write16_of_ne a x v h hx

/-- Whether an access is readable depends on CR0, the CS selector, the map and AC only (R65, R66). -/
theorem readable_congr {s t : State} {a : Word} {n : Nat} (h : Readable s a n) (h0 : t.cr0 = s.cr0)
    (hc : t.csSel = s.csSel) (hm : t.map = s.map) (hf : getFlag t.eflags .ac = getFlag s.eflags .ac) :
    Readable t a n := by
  obtain ⟨⟨h1, h2⟩, h3⟩ := h
  refine ⟨⟨fun ha => h1 ?_, h2⟩, by rwa [hm]⟩
  obtain ⟨a1, a2, a3, a4⟩ := ha
  exact ⟨h0 ▸ a1, by rw [State.cpl, ← hc]; exact a2, hf ▸ a3, h0 ▸ a4⟩

/-! ### Shared operations on admitted operands -/

theorem flagStackAdmitted_of {s : State} (h : FlagStackAdmitted s) : flagStackAdmitted s = .next () :=
  (flagStackAdmitted_next_iff s ()).2 h

theorem requireCpl0_of {s : State} (h : s.cpl = 0#2) : requireCpl0 s = .next () := (requireCpl0_next_iff s ()).2 h

theorem push32_of_writable {s : State} (v : Word) (h : Writable s (s.reg .esp - 4#32) 4) :
    push32 s v = .next (State.setReg { s with mem := Memory.write32 s.mem (s.reg .esp - 4#32).toNat v } .esp
      (s.reg .esp - 4#32)) :=
  (push32_next_iff s _ v).2 ⟨h, rfl⟩

theorem push16_of_writable {s : State} (v : Half) (h : Writable s (s.reg .esp - 2#32) 2) :
    push16 s v = .next (State.setReg { s with mem := Memory.write16 s.mem (s.reg .esp - 2#32).toNat v } .esp
      (s.reg .esp - 2#32)) :=
  (push16_next_iff s _ v).2 ⟨h, rfl⟩

/-- Everything MOV between operands can answer (R183 to R185). -/
theorem execMove_next_iff (dst : Rm) (src : Src) (n : Nat) (s t : State) :
    execMove dst src n s = .next t ↔
      ∃ v s1, srcRead s src = .next v ∧ rmWrite s v dst = .next s1 ∧ t = complete n s1 := by
  simp only [execMove, andThen_next_iff, Host.Outcome.next.injEq]
  constructor
  · rintro ⟨v, hv, s1, h1, h⟩; exact ⟨v, s1, hv, h1, h.symm⟩
  · rintro ⟨v, s1, hv, h1, rfl⟩; exact ⟨v, hv, s1, h1, rfl⟩

/-! ### When an access raises the alignment check -/

theorem memRead32_of_misaligned {s : State} (h : AlignmentActive s) {a : Word} (ha : a.toNat % 4 ≠ 0) :
    memRead32 s a = raise .alignmentCheck s := by
  rw [memRead32, checkRead, if_pos ((misaligned_eq_true_iff s a 4 (by decide)).2 ⟨h, ha⟩)]
  rfl

theorem memRead16_of_misaligned {s : State} (h : AlignmentActive s) {a : Word} (ha : a.toNat % 2 ≠ 0) :
    memRead16 s a = raise .alignmentCheck s := by
  rw [memRead16, checkRead, if_pos ((misaligned_eq_true_iff s a 2 (by decide)).2 ⟨h, ha⟩)]
  rfl

theorem memWrite32_of_misaligned {s : State} (h : AlignmentActive s) {a : Word} (v : Word) (ha : a.toNat % 4 ≠ 0) :
    memWrite32 s a v = raise .alignmentCheck s := by
  rw [memWrite32, checkWrite, if_pos ((misaligned_eq_true_iff s a 4 (by decide)).2 ⟨h, ha⟩)]
  rfl

theorem memWrite16_of_misaligned {s : State} (h : AlignmentActive s) {a : Word} (v : Half) (ha : a.toNat % 2 ≠ 0) :
    memWrite16 s a v = raise .alignmentCheck s := by
  rw [memWrite16, checkWrite, if_pos ((misaligned_eq_true_iff s a 2 (by decide)).2 ⟨h, ha⟩)]
  rfl

/-- A 4-byte read faults only by the alignment check (R66). -/
theorem memRead32_fault {s : State} {a : Word} {r : Fault} (h : memRead32 s a = .fault r) :
    AlignmentActive s ∧ (raise .alignmentCheck s : Res Unit) = .fault r := by
  rw [memRead32, andThen_fault_iff, checkRead_fault_iff _ _ _ (by decide)] at h
  rcases h with ⟨h, -, h'⟩ | ⟨u, -, h⟩
  · exact ⟨h, h'⟩
  · cases h

theorem memRead16_fault {s : State} {a : Word} {r : Fault} (h : memRead16 s a = .fault r) :
    AlignmentActive s ∧ (raise .alignmentCheck s : Res Unit) = .fault r := by
  rw [memRead16, andThen_fault_iff, checkRead_fault_iff _ _ _ (by decide)] at h
  rcases h with ⟨h, -, h'⟩ | ⟨u, -, h⟩
  · exact ⟨h, h'⟩
  · cases h

theorem memWrite32_fault {s : State} {a v : Word} {r : Fault} (h : memWrite32 s a v = .fault r) :
    AlignmentActive s ∧ (raise .alignmentCheck s : Res Unit) = .fault r := by
  rw [memWrite32, andThen_fault_iff, checkWrite_fault_iff _ _ _ (by decide)] at h
  rcases h with ⟨h, -, h'⟩ | ⟨u, -, h⟩
  · exact ⟨h, h'⟩
  · cases h

theorem memWrite16_fault {s : State} {a : Word} {v : Half} {r : Fault} (h : memWrite16 s a v = .fault r) :
    AlignmentActive s ∧ (raise .alignmentCheck s : Res Unit) = .fault r := by
  rw [memWrite16, andThen_fault_iff, checkWrite_fault_iff _ _ _ (by decide)] at h
  rcases h with ⟨h, -, h'⟩ | ⟨u, -, h⟩
  · exact ⟨h, h'⟩
  · cases h

end Sys2Proof.Machine
end

