-- ==== Sys2Proof/Tests/Slice0.lean ====
section
/-! SUPPORT. Tests: ill-formed terms are refused, words written out from the spec decode to what they stand for, one step of
each instruction on the vectors of 95_test_vectors.md, and for each statement that has hypotheses a state that meets them. -/

namespace Sys2Proof.Tests

open Sys2Proof Sys2Proof.Machine

/-! ### WellFormed: each check refuses an ill-formed term -/

theorem test_wellFormed_refuses_esp_base :
    [Instr.addMemReg .esp .eax, .addRegMem .eax .esp, .orMemReg .esp .eax, .orRegMem .eax .esp, .andMemReg .esp .eax,
      .andRegMem .eax .esp, .subMemReg .esp .eax, .subRegMem .eax .esp, .xorMemReg .esp .eax, .xorRegMem .eax .esp,
      .cmpMemReg .esp .eax, .cmpRegMem .eax .esp, .testMemReg .esp .eax, .movMemReg .esp .eax,
      .movRegMem .eax .esp].all (fun i => !i.wellFormed) = true := by decide

theorem test_wellFormed_refuses_ebp_base :
    [Instr.addMemReg .ebp .eax, .addRegMem .eax .ebp, .orMemReg .ebp .eax, .orRegMem .eax .ebp, .andMemReg .ebp .eax,
      .andRegMem .eax .ebp, .subMemReg .ebp .eax, .subRegMem .eax .ebp, .xorMemReg .ebp .eax, .xorRegMem .eax .ebp,
      .cmpMemReg .ebp .eax, .cmpRegMem .eax .ebp, .testMemReg .ebp .eax, .movMemReg .ebp .eax,
      .movRegMem .eax .ebp].all (fun i => !i.wellFormed) = true := by decide

/-- ESP and EBP are refused as bases only: as the other operand they stand. -/
theorem test_wellFormed_admits :
    Instr.wellFormed (.addMemReg .edi .esp) = true ∧ Instr.wellFormed (.movRegMem .ebp .esi) = true ∧
      Instr.wellFormed (.addRmReg .esp .ebp) = true := by decide

/-! ### Decoding: words written out from R111, R114 and R117, one for each constructor -/

theorem test_decode_add :
    decode [0x01, 0xD8] = .ok (.addRmReg .eax .ebx) [] ∧ decode [0x01, 0x0F] = .ok (.addMemReg .edi .ecx) [] ∧
      decode [0x03, 0xC1] = .ok (.addRegRm .eax .ecx) [] ∧ decode [0x03, 0x03] = .ok (.addRegMem .eax .ebx) [] ∧
      decode [0x05, 0x78, 0x56, 0x34, 0x12] = .ok (.addEaxImm 0x12345678) [] := by decide

theorem test_decode_or :
    decode [0x09, 0xC8] = .ok (.orRmReg .eax .ecx) [] ∧ decode [0x09, 0x11] = .ok (.orMemReg .ecx .edx) [] ∧
      decode [0x0B, 0xC8] = .ok (.orRegRm .ecx .eax) [] ∧ decode [0x0B, 0x16] = .ok (.orRegMem .edx .esi) [] ∧
      decode [0x0D, 0x0F, 0x00, 0x00, 0x00] = .ok (.orEaxImm 0x0000000F) [] := by decide

theorem test_decode_and :
    decode [0x21, 0xDA] = .ok (.andRmReg .edx .ebx) [] ∧ decode [0x21, 0x18] = .ok (.andMemReg .eax .ebx) [] ∧
      decode [0x23, 0xE5] = .ok (.andRegRm .esp .ebp) [] ∧ decode [0x23, 0x2F] = .ok (.andRegMem .ebp .edi) [] ∧
      decode [0x25, 0x00, 0x00, 0x20, 0x00] = .ok (.andEaxImm 0x00200000) [] := by decide

theorem test_decode_sub :
    decode [0x29, 0xC8] = .ok (.subRmReg .eax .ecx) [] ∧ decode [0x29, 0x32] = .ok (.subMemReg .edx .esi) [] ∧
      decode [0x2B, 0xF9] = .ok (.subRegRm .edi .ecx) [] ∧ decode [0x2B, 0x01] = .ok (.subRegMem .eax .ecx) [] ∧
      decode [0x2D, 0xFF, 0xFF, 0xFF, 0x7F] = .ok (.subEaxImm 0x7FFFFFFF) [] := by decide

theorem test_decode_xor :
    decode [0x31, 0xC8] = .ok (.xorRmReg .eax .ecx) [] ∧ decode [0x31, 0x03] = .ok (.xorMemReg .ebx .eax) [] ∧
      decode [0x33, 0xD6] = .ok (.xorRegRm .edx .esi) [] ∧ decode [0x33, 0x1E] = .ok (.xorRegMem .ebx .esi) [] ∧
      decode [0x35, 0x00, 0x00, 0x20, 0x00] = .ok (.xorEaxImm 0x00200000) [] := by decide

theorem test_decode_cmp :
    decode [0x39, 0xD8] = .ok (.cmpRmReg .eax .ebx) [] ∧ decode [0x39, 0x3E] = .ok (.cmpMemReg .esi .edi) [] ∧
      decode [0x3B, 0xC4] = .ok (.cmpRegRm .eax .esp) [] ∧ decode [0x3B, 0x20] = .ok (.cmpRegMem .esp .eax) [] ∧
      decode [0x3D, 0x01, 0x02, 0x03, 0x80] = .ok (.cmpEaxImm 0x80030201) [] := by decide

theorem test_decode_test_and_mov :
    decode [0x85, 0xC1] = .ok (.testRmReg .ecx .eax) [] ∧ decode [0x85, 0x0B] = .ok (.testMemReg .ebx .ecx) [] ∧
      decode [0x89, 0xC1] = .ok (.movRmReg .ecx .eax) [] ∧ decode [0x89, 0x03] = .ok (.movMemReg .ebx .eax) [] ∧
      decode [0x8B, 0xC1] = .ok (.movRegRm .eax .ecx) [] ∧ decode [0x8B, 0x0B] = .ok (.movRegMem .ecx .ebx) [] ∧
      decode [0xBB, 0x78, 0x56, 0x34, 0x12] = .ok (.movRegImm .ebx 0x12345678) [] := by decide

theorem test_decode_system :
    decode [0x0F, 0x20, 0xC1] = .ok (.movRegCr0 .ecx) [] ∧ decode [0x0F, 0x20, 0xE3] = .ok (.movRegCr4 .ebx) [] ∧
      decode [0x0F, 0x22, 0xE6] = .ok (.movCr4Reg .esi) [] ∧ decode [0x0F, 0x22, 0xC0] = .ok (.movCr0Reg .eax) [] ∧
      decode [0x0F, 0x30] = .ok .wrmsr [] ∧ decode [0x0F, 0x31] = .ok .rdtsc [] ∧ decode [0x0F, 0x32] = .ok .rdmsr [] ∧
      decode [0x0F, 0xA2] = .ok .cpuid [] := by decide

theorem test_decode_stack_and_flags :
    decode [0x41] = .ok (.incReg .ecx) [] ∧ decode [0x4F] = .ok (.decReg .edi) [] ∧
      decode [0x54] = .ok (.pushReg .esp) [] ∧ decode [0x58] = .ok (.popReg .eax) [] ∧
      decode [0x66, 0x9C] = .ok .pushf [] ∧ decode [0x66, 0x9D] = .ok .popf [] ∧ decode [0x9C] = .ok .pushfd [] ∧
      decode [0x9D] = .ok .popfd [] ∧ decode [0x9E] = .ok .sahf [] ∧ decode [0x9F] = .ok .lahf [] ∧
      decode [0xCF] = .ok .iretd [] := by decide

theorem test_decode_control :
    decode [0x90] = .ok .nop [] ∧ decode [0xC3] = .ok .ret [] ∧ decode [0xF4] = .ok .hlt [] ∧
      decode [0x75, 0xFE] = .ok (.jccRel8 .nz 0xFE) [] ∧ decode [0x7C, 0x10] = .ok (.jccRel8 .l 0x10) [] ∧
      decode [0xEB, 0x80] = .ok (.jmpRel8 0x80) [] ∧
      decode [0xE8, 0x05, 0x00, 0x00, 0x00] = .ok (.callRel32 0x00000005) [] ∧
      decode [0xE9, 0xFB, 0xFF, 0xFF, 0xFF] = .ok (.jmpRel32 0xFFFFFFFB) [] ∧
      decode [0xD9, 0xC9] = .ok (.fxch 1) [] ∧ decode [0xD9, 0xCF] = .ok (.fxch 7) [] := by decide

/-- The refused byte sequences of 95_test_vectors.md 2.1. -/
theorem test_decode_refuses :
    decode [0x66, 0x90] = .bad .prefixNotAdmitted ∧ decode [0x0F, 0x20, 0xD8] = .bad .controlRegisterNotAdmitted ∧
      decode [0x0F, 0x20, 0x20] = .bad .controlRegisterModField ∧ decode [0xD9, 0xC0] = .bad .opcodeNotAdmitted ∧
      decode [0x89, 0x04, 0x24] = .bad .modRmNotAdmitted ∧ decode [0x89, 0x05, 0x00] = .bad .modRmNotAdmitted ∧
      decode [0x89, 0x43, 0x00] = .bad .modRmNotAdmitted ∧ decode [0x0F, 0x22] = .bad .truncated ∧
      [0xF0, 0xF3, 0x2E, 0x67, 0xCC, 0xCD, 0xFA, 0xFB, 0xE4, 0xEE].all
        (fun b => decide (decode [b, 0x90] = .bad .opcodeNotAdmitted)) = true := by decide

/-- The table numbers the first byte most significant (R121; log 6). -/
theorem test_decodeTableWord :
    decodeTableWord 16 0x01C0 = some (.addRmReg .eax .eax) ∧ decodeTableWord 8 0x05 = some (.addEaxImm 0) ∧
      decodeTableWord 8 0x75 = some (.jccRel8 .nz 0) ∧ decodeTableWord 24 0x0F22E0 = some (.movCr4Reg .eax) ∧
      decodeTableWord 16 0x669C = some .pushf ∧ decodeTableWord 16 0x9C66 = some .pushfd := by decide

/-! ### One step of each instruction -/

/-- CPL 0, EIP 1000H, `MEM.code` 1000H to 10FFH, everything else `MEM.data`, ESP 2000H; TOP = 5, FPR 4, 5, 6 in use. -/
def ready : State :=
  { State.reset with
    regs := { State.reset.regs with edx := 0, esp := 0x2000 }
    eip := 0x1000
    cr0 := 0x00000011
    csSel := 0x0008
    map := [{ base := 0x1000, size := 0x100, kind := .code }, { base := 0, size := 4294967296, kind := .data }]
    fpu := { State.reset.fpu with
      fpr := ((State.reset.fpu.fpr.set 4 0xC).set 5 0xA).set 6 0xB
      fsw := 0x2800
      ftw := 0xC0FF } }

/-- `ready` at CPL 3 with CR0.AM = 1. -/
def user : State := { ready with csSel := 0x001B, cr0 := 0x00040011 }

/-- `user` with EFLAGS.AC = 1. -/
def checked : State := { user with eflags := 0x00040002 }

/-- Bytes placed in memory. -/
def withBytes (s : State) (a : Nat) (bs : List Byte) : State := { s with mem := Memory.writeBytes s.mem a bs }

/-- What `f` sees in the next state. -/
def after {α : Type} (r : Res State) (f : State → α) : Option α :=
  match r with
  | .next t => some (f t)
  | .fault _ => none
  | .refused _ => none

/-- The name of the exception that ends the run, with its error code. -/
def faultOf (r : Res State) : Option (Exception × Option Word) :=
  match r with
  | .next _ => none
  | .fault (.exception x c _ _) => some (x, c)
  | .refused _ => none

/-- The exception with everything it reports: its code, the address, the stored image. -/
def faultAt (r : Res State) : Option (Exception × Option Word × Word × Word) :=
  match r with
  | .next _ => none
  | .fault (.exception x c eip image) => some (x, c, eip, image)
  | .refused _ => none

/-- The refusal. -/
def refusalOf (r : Res State) : Option RefusalReason :=
  match r with
  | .next _ => none
  | .fault _ => none
  | .refused (.because x _) => some x
  | .refused (.notModelled _) => none

/-- `n` bytes of memory. -/
def bytesAt (s : State) (a n : Nat) : List Byte := (List.range n).map fun k => Memory.readByte s.mem (a + k)

/-- ADD 7FFF FFFFH + 1 (95_test_vectors.md 2.6), the destination also the only one written. -/
theorem test_add_overflows :
    after (exec (.addRmReg .eax .ebx) ((ready.setReg .eax 0x7FFFFFFF).setReg .ebx 1))
      (fun t => (t.reg .eax, t.reg .ebx, t.eflags, t.eip)) =
        some (0x80000000, 1, 0x00000896, 0x1002) := by decide

theorem test_add_carries_from_memory :
    after (exec (.addRegMem .eax .ebx) (withBytes ((ready.setReg .eax 0xFFFFFFFF).setReg .ebx 0x3000) 0x3000 [1]))
      (fun t => (t.reg .eax, t.eflags)) = some (0, 0x00000057) := by decide

theorem test_add_into_memory :
    after (exec (.addMemReg .ebx .ecx)
      (withBytes ((ready.setReg .ebx 0x3000).setReg .ecx 0x87654321) 0x3000 [0x78, 0x56, 0x34, 0x12]))
      (fun t => (bytesAt t 0x3000 4, t.eflags, t.reg .ebx)) =
        some ([0x99, 0x99, 0x99, 0x99], 0x00000086, 0x3000) := by decide

theorem test_add_regRm_same_register :
    after (exec (.addRegRm .eax .eax) (ready.setReg .eax 0x80000000)) (fun t => (t.reg .eax, t.eflags)) =
      some (0, 0x00000847) := by decide

theorem test_add_imm :
    after (exec (.addEaxImm 1) (ready.setReg .eax 0x0F)) (fun t => (t.reg .eax, t.eflags, t.eip)) =
      some (0x10, 0x00000012, 0x1005) := by decide

theorem test_sub_borrows :
    after (exec (.subRmReg .eax .ecx) (ready.setReg .ecx 1)) (fun t => (t.reg .eax, t.eflags)) =
      some (0xFFFFFFFF, 0x00000097) := by decide

theorem test_sub_overflows :
    after (exec (.subRegRm .eax .ecx) ((ready.setReg .eax 0x80000000).setReg .ecx 1))
      (fun t => (t.reg .eax, t.eflags)) = some (0x7FFFFFFF, 0x00000816) := by decide

theorem test_sub_memory_forms :
    after (exec (.subRegMem .eax .ebx) (withBytes ((ready.setReg .eax 0x10).setReg .ebx 0x3000) 0x3000 [1]))
      (fun t => (t.reg .eax, t.eflags)) = some (0x0F, 0x00000016) ∧
    after (exec (.subMemReg .ebx .eax) (withBytes ((ready.setReg .eax 2).setReg .ebx 0x3000) 0x3000 [1]))
      (fun t => (bytesAt t 0x3000 4, t.eflags)) = some ([0xFF, 0xFF, 0xFF, 0xFF], 0x00000097) := by decide

theorem test_sub_imm :
    after (exec (.subEaxImm 0xFFFFFFFF) (ready.setReg .eax 0x7FFFFFFF)) (fun t => (t.reg .eax, t.eflags)) =
      some (0x80000000, 0x00000887) := by decide

theorem test_cmp_register_forms :
    after (exec (.cmpRmReg .eax .ebx) ((ready.setReg .eax 5).setReg .ebx 5)) (fun t => (t.reg .eax, t.eflags)) =
      some (5, 0x00000046) ∧
    after (exec (.cmpRegRm .eax .ebx) ((ready.setReg .eax 1).setReg .ebx 2)) (fun t => (t.reg .eax, t.eflags)) =
      some (1, 0x00000097) := by decide

theorem test_cmp_memory_and_immediate_forms :
    after (exec (.cmpMemReg .ebx .ecx) (withBytes ((ready.setReg .ebx 0x1000).setReg .ecx 1) 0x1000 [0x10]))
      (fun t => (bytesAt t 0x1000 4, t.eflags)) = some ([0x10, 0, 0, 0], 0x00000016) ∧
    after (exec (.cmpRegMem .ecx .ebx) (withBytes ((ready.setReg .ebx 0x1000).setReg .ecx 1) 0x1000 [0x10]))
      (fun t => (t.reg .ecx, t.eflags)) = some (1, 0x00000083) ∧
    after (exec (.cmpEaxImm 0x7FFFFFFF) (ready.setReg .eax 0x80000000)) (fun t => t.eflags) = some 0x00000812 := by decide

/-- The flags of the logic rows of 95_test_vectors.md 2.6, whatever AF is drawn. -/
theorem test_logic_flags (af : Bool) :
    getFlag (flagsLogic 0xFF af 0x8D7) .pf = true ∧ getFlag (flagsLogic 0xFF af 0x8D7) .of = false ∧
      getFlag (flagsLogic 0xFF af 0x8D7) .cf = false ∧ getFlag (flagsLogic 0xFF af 0x8D7) .zf = false ∧
      getFlag (flagsLogic 0x80000001 af 2) .sf = true ∧ getFlag (flagsLogic 0x80000001 af 2) .pf = false ∧
      getFlag (flagsLogic 0 af 2) .zf = true ∧ getFlag (flagsLogic 0x246 af 2) .pf = false := by
  cases af <;> decide

theorem test_or_results :
    after (exec (.orRmReg .eax .ecx) ((ready.setReg .eax 0xF0).setReg .ecx 0x0F)) (fun t => t.reg .eax) = some 0xFF ∧
    after (exec (.orRegRm .eax .ecx) ((ready.setReg .eax 0x80000000).setReg .ecx 1)) (fun t => t.reg .eax) =
      some 0x80000001 ∧
    after (exec (.orEaxImm 0x0F) (ready.setReg .eax 0xF0)) (fun t => t.reg .eax) = some 0xFF := by decide

theorem test_or_memory_forms :
    after (exec (.orMemReg .ebx .ecx) (withBytes ((ready.setReg .ebx 0x3000).setReg .ecx 0x0F) 0x3000 [0xF0]))
      (fun t => bytesAt t 0x3000 4) = some [0xFF, 0, 0, 0] ∧
    after (exec (.orRegMem .ecx .ebx) (withBytes ((ready.setReg .ebx 0x3000).setReg .ecx 0x0F) 0x3000 [0xF0]))
      (fun t => (t.reg .ecx, bytesAt t 0x3000 1)) = some (0xFF, [0xF0]) := by decide

theorem test_and_results :
    after (exec (.andRmReg .eax .ecx) ((ready.setReg .eax 0x00200246).setReg .ecx 0x00200000)) (fun t => t.reg .eax) =
      some 0x00200000 ∧
    after (exec (.andRegRm .eax .ecx) ((ready.setReg .eax 0xF0).setReg .ecx 0x0F)) (fun t => t.reg .eax) = some 0 ∧
    after (exec (.andEaxImm 0x00200000) (ready.setReg .eax 0x00200246)) (fun t => t.reg .eax) = some 0x00200000 := by
  decide

theorem test_and_memory_forms :
    after (exec (.andMemReg .ebx .ecx) (withBytes ((ready.setReg .ebx 0x3000).setReg .ecx 0x3C) 0x3000 [0xF0, 1]))
      (fun t => bytesAt t 0x3000 2) = some [0x30, 0] ∧
    after (exec (.andRegMem .ecx .ebx) (withBytes ((ready.setReg .ebx 0x3000).setReg .ecx 0x3C) 0x3000 [0xF0, 1]))
      (fun t => t.reg .ecx) = some 0x30 := by decide

theorem test_xor_results :
    after (exec (.xorRmReg .eax .ecx) ((ready.setReg .eax 0x00200246).setReg .ecx 0x00200000)) (fun t => t.reg .eax) =
      some 0x246 ∧
    after (exec (.xorRegRm .eax .eax) (ready.setReg .eax 0xFFFFFFFF)) (fun t => t.reg .eax) = some 0 ∧
    after (exec (.xorEaxImm 0x00200000) (ready.setReg .eax 0x246)) (fun t => (t.reg .eax, t.eip)) =
      some (0x00200246, 0x1005) := by decide

theorem test_xor_memory_forms :
    after (exec (.xorMemReg .ebx .ecx) (withBytes ((ready.setReg .ebx 0x3000).setReg .ecx 0x0F) 0x3000 [0xFF]))
      (fun t => bytesAt t 0x3000 1) = some [0xF0] ∧
    after (exec (.xorRegMem .ecx .ebx) (withBytes ((ready.setReg .ebx 0x3000).setReg .ecx 0x0F) 0x3000 [0xFF]))
      (fun t => t.reg .ecx) = some 0xF0 := by decide

theorem test_test_writes_no_operand :
    after (exec (.testRmReg .eax .ecx) ((ready.setReg .eax 0xF0).setReg .ecx 0x0F)) (fun t => (t.reg .eax, t.reg .ecx)) =
      some (0xF0, 0x0F) ∧
    after (exec (.testMemReg .ebx .ecx) (withBytes ((ready.setReg .ebx 0x3000).setReg .ecx 0x0F) 0x3000 [0xF0]))
      (fun t => (bytesAt t 0x3000 1, t.reg .ecx, t.eip)) = some ([0xF0], 0x0F, 0x1002) := by decide

/-- INC keeps CF (95_test_vectors.md 2.6). -/
theorem test_inc :
    after (exec (.incReg .ecx) { ready.setReg .ecx 0x7FFFFFFF with eflags := 3 }) (fun t => (t.reg .ecx, t.eflags)) =
      some (0x80000000, 0x00000897) ∧
    after (exec (.incReg .ecx) (ready.setReg .ecx 0xFFFFFFFF)) (fun t => (t.reg .ecx, t.eflags)) =
      some (0, 0x00000056) := by decide

theorem test_dec :
    after (exec (.decReg .ecx) { ready with eflags := 3 }) (fun t => (t.reg .ecx, t.eflags)) =
      some (0xFFFFFFFF, 0x00000097) ∧
    after (exec (.decReg .ecx) (ready.setReg .ecx 0x80000000)) (fun t => (t.reg .ecx, t.eflags)) =
      some (0x7FFFFFFF, 0x00000816) := by decide

theorem test_mov_stores_little_endian :
    after (exec (.movMemReg .ebx .eax) ((ready.setReg .ebx 0x3000).setReg .eax 0x11223344))
      (fun t => (bytesAt t 0x3000 4, t.eflags)) = some ([0x44, 0x33, 0x22, 0x11], 2) ∧
    after (exec (.movMemReg .eax .eax) (ready.setReg .eax 0x3000)) (fun t => bytesAt t 0x3000 4) =
      some [0x00, 0x30, 0x00, 0x00] := by decide

theorem test_mov_into_register :
    after (exec (.movRegMem .ecx .ebx) (withBytes (ready.setReg .ebx 0x3000) 0x3000 [0x44, 0x33, 0x22, 0x11]))
      (fun t => t.reg .ecx) = some 0x11223344 ∧
    after (exec (.movRmReg .ecx .eax) (ready.setReg .eax 5)) (fun t => (t.reg .ecx, t.eip)) = some (5, 0x1002) ∧
    after (exec (.movRegRm .ecx .eax) (ready.setReg .eax 5)) (fun t => t.reg .ecx) = some 5 ∧
    after (exec (.movRegImm .ebx 0x12345678) ready) (fun t => (t.reg .ebx, t.eip)) = some (0x12345678, 0x1005) := by
  decide

theorem test_mov_refused_into_code :
    refusalOf (exec (.movMemReg .ebx .eax) (ready.setReg .ebx 0x1000)) = some .unmappedOrCodeWrite ∧
    refusalOf (exec (.movRegMem .eax .ebx) (ready.setReg .ebx 0xFFFFFFFE)) = some .addressWrap ∧
    faultOf (exec (.movRegMem .eax .ebx) (checked.setReg .ebx 0xFFFFFFFE)) = some (.alignmentCheck, some 0) := by decide

/-- The alignment rows of 95_test_vectors.md 2.7. -/
theorem test_alignment :
    faultOf (exec (.movRegMem .eax .ebx) (checked.setReg .ebx 0x3002)) = some (.alignmentCheck, some 0) ∧
    after (exec (.movRegMem .eax .ebx) (checked.setReg .ebx 0x3004)) (fun t => t.eip) = some 0x1002 ∧
    after (exec (.movRegMem .eax .ebx) (user.setReg .ebx 0x3001)) (fun t => t.eip) = some 0x1002 ∧
    after (exec (.movRegMem .eax .ebx) { checked.setReg .ebx 0x3001 with csSel := 0x001A }) (fun t => t.eip) =
      some 0x1002 ∧
    faultOf (exec .pushf (checked.setReg .esp 0x2001)) = some (.alignmentCheck, some 0) := by decide

theorem test_push :
    after (exec (.pushReg .eax) (ready.setReg .eax 1)) (fun t => (t.reg .esp, bytesAt t 0x1FFC 4)) =
      some (0x1FFC, [1, 0, 0, 0]) ∧
    after (exec (.pushReg .esp) ready) (fun t => (t.reg .esp, bytesAt t 0x1FFC 4)) =
      some (0x1FFC, [0x00, 0x20, 0, 0]) := by decide

theorem test_pop :
    after (exec (.popReg .eax) (withBytes (ready.setReg .esp 0x1FFC) 0x1FFC [0x46, 0x02, 0x20]))
      (fun t => (t.reg .eax, t.reg .esp)) = some (0x00200246, 0x2000) ∧
    after (exec (.popReg .esp) (withBytes (ready.setReg .esp 0x1FFC) 0x1FFC [0x00, 0x30])) (fun t => t.reg .esp) =
      some 0x3000 := by decide

theorem test_jumps :
    after (exec (.jmpRel8 0x80) ready) (fun t => t.eip) = some 0x0F82 ∧
    after (exec (.jmpRel32 0xFFFFFFFB) ready) (fun t => t.eip) = some 0x1000 ∧
    after (exec .nop ready) (fun t => t.eip) = some 0x1001 := by decide

/-- The rows of 95_test_vectors.md 2.6 on Jcc. -/
theorem test_jcc :
    after (exec (.jccRel8 .nz 0xFE) ready) (fun t => t.eip) = some 0x1000 ∧
    after (exec (.jccRel8 .l 0x10) { ready with eflags := 0x82 }) (fun t => t.eip) = some 0x1012 ∧
    after (exec (.jccRel8 .l 0x10) { ready with eflags := 0x882 }) (fun t => t.eip) = some 0x1002 ∧
    after (exec (.jccRel8 .g 0x10) ready) (fun t => t.eip) = some 0x1012 ∧
    after (exec (.jccRel8 .be 0x10) ready) (fun t => t.eip) = some 0x1002 ∧
    after (exec (.jccRel8 .p 0x10) { ready with eflags := 6 }) (fun t => t.eip) = some 0x1012 := by decide

theorem test_call_and_ret :
    after (exec (.callRel32 5) ready) (fun t => (t.eip, t.reg .esp, bytesAt t 0x1FFC 4)) =
      some (0x100A, 0x1FFC, [0x05, 0x10, 0, 0]) ∧
    after (exec .ret (withBytes (ready.setReg .esp 0x1FFC) 0x1FFC [0x05, 0x10])) (fun t => (t.eip, t.reg .esp)) =
      some (0x1005, 0x2000) := by decide

theorem test_hlt :
    after (exec .hlt ready) (fun t => (t.halted, t.eip)) = some (true, 0x1001) ∧
    faultAt (exec .hlt user) = some (.generalProtection, some 0, 0x1000, 0x00010002) := by decide

theorem test_sahf :
    after (exec .sahf (ready.setReg .eax 0xFF00)) (fun t => t.eflags) = some 0xD7 ∧
    after (exec .sahf { ready with eflags := 0x8D7 }) (fun t => t.eflags) = some 0x802 ∧
    after (exec .sahf (ready.setReg .eax 0x2A00)) (fun t => t.eflags) = some 2 := by decide

theorem test_lahf :
    after (exec .lahf (ready.setReg .eax 0x12345678)) (fun t => t.reg .eax) = some 0x12340278 ∧
    after (exec .lahf { ready with eflags := 0x8D7 }) (fun t => t.reg .eax) = some 0xD700 := by decide

theorem test_pushf :
    after (exec .pushf { ready with eflags := 0x246 }) (fun t => (t.reg .esp, bytesAt t 0x1FFE 2, t.eip)) =
      some (0x1FFE, [0x46, 0x02], 0x1002) := by decide

/-- RF is pushed as 0 and cleared afterwards (95_test_vectors.md 2.3). -/
theorem test_pushfd :
    after (exec .pushfd { ready with eflags := 0x00200246 }) (fun t => (t.reg .esp, bytesAt t 0x1FFC 4)) =
      some (0x1FFC, [0x46, 0x02, 0x20, 0x00]) ∧
    after (exec .pushfd { ready with eflags := 0x00010202 }) (fun t => (t.eflags, bytesAt t 0x1FFC 4)) =
      some (0x202, [0x02, 0x02, 0, 0]) := by decide

theorem test_popf :
    after (exec .popf (withBytes { user with eflags := 0x202 } 0x2000 [0xFF, 0xFF])) (fun t => (t.eflags, t.reg .esp)) =
      some (0x4FD7, 0x2002) ∧
    after (exec .popf (withBytes ready 0x2000 [0xFF, 0xFE])) (fun t => t.eflags) = some 0x7ED7 ∧
    after (exec .popf (withBytes { user with eflags := 0x3002 } 0x2000 [0x00, 0x02])) (fun t => t.eflags) =
      some 0x3202 := by decide

theorem test_popfd :
    after (exec .popfd (withBytes { user with eflags := 0x202 } 0x2000 [0x02, 0x00, 0x20])) (fun t => t.eflags) =
      some 0x00200202 ∧
    after (exec .popfd (withBytes ready 0x2000 [0xFF, 0xFF, 0xFF, 0xFF])) (fun t => (t.eflags, t.reg .esp)) =
      some (0x00247FD7, 0x2004) ∧
    after (exec .popfd (withBytes ready 0x2000 [0x02, 0x00, 0x1B])) (fun t => t.eflags) = some 2 := by decide

/-- The frame of 95_test_vectors.md 2.3 on the stack at 3000H. -/
def returning : State :=
  withBytes (ready.setReg .esp 0x3000) 0x3000 [0x34, 0x12, 0, 0, 0x08, 0, 0, 0, 0x02, 0x02, 0x01, 0]

theorem test_iretd :
    after (exec .iretd returning) (fun t => (t.eip, t.eflags, t.reg .esp)) = some (0x1234, 0x00010202, 0x300C) ∧
    after (exec .iretd (withBytes { user.setReg .esp 0x3000 with eflags := 0x202 } 0x3000
      [0x34, 0x12, 0, 0, 0x1B, 0, 0, 0, 0x02, 0x30, 0x01, 0])) (fun t => t.eflags) = some 0x00010202 := by decide

theorem test_iretd_refused :
    refusalOf (exec .iretd (withBytes returning 0x3004 [0x1B])) = some .farReturnNotAdmitted ∧
    refusalOf (exec .iretd { returning with eflags := 0x4002 }) = some .taskReturnNotAdmitted ∧
    refusalOf (exec .iretd (withBytes returning 0x300A [0x02])) = some .returnToVirtual8086NotAdmitted ∧
    refusalOf (exec .iretd { returning with cr4 := 2 }) = some .virtualInterruptsNotAdmitted := by decide

theorem test_cpuid :
    after (exec .cpuid (ready.setReg .eax 1)) (fun t => (t.reg .esp, t.eflags, t.eip)) = some (0x2000, 2, 0x1002) := by
  decide

theorem test_mov_from_control_registers :
    after (exec (.movRegCr4 .eax) { ready with cr4 := 0x44 }) (fun t => t.reg .eax) = some 0x44 ∧
    after (exec (.movRegCr0 .eax) { ready with cr0 := 0x00040011 }) (fun t => t.reg .eax) = some 0x00040011 ∧
    after (exec (.movRegCr0 .eax) { ready with cr0 := 0x00040001 }) (fun t => t.reg .eax) = some 0x00040011 ∧
    faultOf (exec (.movRegCr4 .eax) user) = some (.generalProtection, some 0) ∧
    faultOf (exec (.movRegCr0 .eax) user) = some (.generalProtection, some 0) := by decide

theorem test_mov_to_control_registers :
    after (exec (.movCr4Reg .eax) (ready.setReg .eax 0x7F)) (fun t => t.cr4) = some 0x7F ∧
    faultOf (exec (.movCr4Reg .eax) (ready.setReg .eax 0x80)) = some (.generalProtection, some 0) ∧
    faultOf (exec (.movCr4Reg .eax) user) = some (.generalProtection, some 0) ∧
    refusalOf (exec (.movCr0Reg .eax) ready) = some .cr0WriteNotAdmitted := by decide

theorem test_rdtsc :
    after (exec .rdtsc { user with cr4 := 0 }) (fun t => t.eip) = some 0x1002 ∧
    after (exec .rdtsc { ready with cr4 := 4 }) (fun t => t.eip) = some 0x1002 ∧
    faultOf (exec .rdtsc { user with cr4 := 4 }) = some (.generalProtection, some 0) := by decide

theorem test_rdmsr :
    after (exec .rdmsr (ready.setReg .ecx 0x10)) (fun t => (t.reg .ecx, t.eip)) = some (0x10, 0x1002) ∧
    refusalOf (exec .rdmsr (ready.setReg .ecx 0x03)) = some .reservedOrAbsentMsr ∧
    refusalOf (exec .rdmsr (ready.setReg .ecx 0x80000000)) = some .reservedOrAbsentMsr ∧
    faultOf (exec .rdmsr user) = some (.generalProtection, some 0) := by decide

theorem test_wrmsr :
    after (exec .wrmsr (ready.setReg .ecx 0x10)) (fun t => t) = some { ready.setReg .ecx 0x10 with eip := 0x1002 } ∧
    refusalOf (exec .wrmsr (ready.setReg .ecx 0x11)) = some .msrWriteNotAdmitted ∧
    refusalOf (exec .wrmsr (ready.setReg .ecx 0x14)) = some .reservedOrAbsentMsr := by decide

/-- The rows of 95_test_vectors.md 2.2: TOP = 5, so ST(1) is FPR 6 and ST(7) is FPR 4. -/
theorem test_fxch :
    after (exec (.fxch 1) ready) (fun t => (t.fpu.fpr[5], t.fpu.fpr[6], t.fpu.ftw, t.eip)) =
      some (0xB, 0xA, 0xC0FF, 0x1002) ∧
    after (exec (.fxch 7) ready) (fun t => (t.fpu.fpr[5], t.fpu.fpr[4])) = some (0xC, 0xA) := by decide

theorem test_fxch_stops :
    refusalOf (exec (.fxch 2) ready) = some .floatingPointStackUnderflow ∧
    faultOf (exec (.fxch 1) { ready with cr0 := 0x19 }) = some (.deviceNotAvailable, none) ∧
    faultOf (exec (.fxch 1) { ready with cr0 := 0x15 }) = some (.deviceNotAvailable, none) ∧
    refusalOf (exec (.fxch 1) { ready with fpu := { ready.fpu with fsw := 0x2880 } }) =
      some .pendingFloatingPointException := by decide

/-! ### The step -/

/-- A table word placed by `withFetchWord` right after reset is the instruction the next step runs. -/
theorem test_withFetchWord :
    after (step (State.reset.withFetchWord 16 0x29C0)) (fun t => (t.reg .eax, t.eip)) = some (0, 0xFFF2) ∧
    after (step (State.reset.withFetchWord 8 0xBB)) (fun t => (t.reg .ebx, t.eip)) = some (0, 0xFFF5) ∧
    refusalOf (step (State.reset.withFetchWord 24 0x0F22C0)) = some .cr0WriteNotAdmitted := by decide

theorem test_reset_is_real_mode : refusalOf (step State.reset) = some .realModeNotAdmitted := by decide

theorem test_fetch_past_the_code :
    refusalOf (step { ready with eip := 0x3000 }) = some .unmappedFetch ∧
    refusalOf (step (withBytes { ready with eip := 0x10FF } 0x10FF [0x01])) = some .unmappedFetch := by decide

/-! ### Witnesses: for each statement with hypotheses, a concrete state and operands that meet them together -/

/-- The operation answers a value. -/
def answers {α : Type} (r : Res α) : Bool :=
  match r with
  | .next _ => true
  | .fault _ => false
  | .refused _ => false

/-- An access, checked by evaluating it. -/
theorem readable_of_check {s : State} {a : Word} {n : Nat} (hn : 1 < n)
    (h : answers (checkRead s a n) = true) : Readable s a n := by
  cases hc : checkRead s a n with
  | next u => exact (checkRead_next_iff s a n hn u).1 hc
  | fault r => rw [hc] at h; cases h
  | refused r => rw [hc] at h; cases h

theorem writable_of_check {s : State} {a : Word} {n : Nat} (hn : 1 < n)
    (h : answers (checkWrite s a n) = true) : Writable s a n := by
  cases hc : checkWrite s a n with
  | next u => exact (checkWrite_next_iff s a n hn u).1 hc
  | fault r => rw [hc] at h; cases h
  | refused r => rw [hc] at h; cases h

theorem next_of_after {α : Type} {r : Res State} {f : State → α} {v : α} (h : after r f = some v) :
    ∃ t, r = .next t ∧ f t = v := by
  cases r with
  | next t => exact ⟨t, rfl, Option.some.inj h⟩
  | fault r => cases h
  | refused r => cases h

theorem fault_of_faultAt {r : Res State} {x : Exception} {c : Option Word} {e im : Word}
    (h : faultAt r = some (x, c, e, im)) : r = .fault (.exception x c e im) := by
  cases r with
  | next t => cases h
  | fault r => obtain ⟨y, c', e', im'⟩ := r; cases h; rfl
  | refused r => cases h

theorem witness_DecodeOfEncodeIsTheInstruction : Instr.wellFormed (.movRegMem .esp .edi) = true := by decide

theorem witness_DecodeAcceptsOnlyEncodings :
    decode [0x0F, 0x22, 0xE7, 0x90] = .ok (.movCr4Reg .edi) [0x90] := by decide

theorem witness_OtherPrefixesAreRefused :
    (0x9E#8 ≠ 0x9C#8 ∧ 0x9E#8 ≠ 0x9D#8) ∧
      0xF3#8 ∈ [0x67#8, 0x26#8, 0x2E#8, 0x36#8, 0x3E#8, 0x64#8, 0x65#8, 0xF0#8, 0xF2#8, 0xF3#8] := by decide

/-- A NOP launched right after reset. -/
def launched : State := launch State.reset [0x90]

theorem launched_invariant : RunInvariant launched :=
  (launch_of_launch (by unfold RunInvariant EflagsFixed VirtualFlagsForced; decide) (by decide)).1

theorem witness_EveryStepKeepsTheInvariant : ∃ t, RunInvariant launched ∧ step launched = .next t := by
  obtain ⟨t, h, -⟩ := next_of_after (r := step launched) (f := fun t => t.eip) (v := 0xFFF1) (by decide)
  exact ⟨t, launched_invariant, h⟩

theorem witness_RunConstantsAndCodeNeverChange :
    ∃ t, Memory.wf launched.mem = true ∧ launched.inputs.init = false ∧ step launched = .next t ∧
      inCode launched.map 0xFFF0 = true := by
  obtain ⟨t, h, -⟩ := next_of_after (r := step launched) (f := fun t => t.eip) (v := 0xFFF1) (by decide)
  exact ⟨t, by decide, rfl, h, by decide⟩

/-- `s` with a one-byte program at `eip`. -/
def oneByte (s : State) (eip : Word) (b : Byte) : State := launch { s with eip := eip } [b]

theorem test_fall_through_past_the_top_is_refused :
    step (oneByte ready 0xFFFFFFFF 0x90) = .refused (.because .addressWrap 0xFFFFFFFF) := rfl

/-- First clause: the last address below the top, and a transfer at the top. -/
theorem witness_StepRunsTheInstructionAtEip :
    (Instr.wellFormed .nop = true ∧ Running (oneByte ready 0xFFFFFFFE 0x90) ∧
      breakpointPins (oneByte ready 0xFFFFFFFE 0x90) = 0#4 ∧
      CodeAt (oneByte ready 0xFFFFFFFE 0x90) 0xFFFFFFFE (encode .nop) ∧
      0xFFFFFFFE + (encode .nop).length < 4294967296) ∧
    (Running (oneByte ready 0xFFFFFFFF 0xC3) ∧ CodeAt (oneByte ready 0xFFFFFFFF 0xC3) 0xFFFFFFFF (encode .ret) ∧
      Transfers .ret (oneByte ready 0xFFFFFFFF 0xC3)) := by
  refine ⟨⟨rfl, running_launch _ _, by decide, ?_, by decide⟩, running_launch _ _, ?_, .inr (.inr (.inr (.inl rfl)))⟩ <;>
    (unfold CodeAt; decide)

/-- Second clause: a NOP at the top, which would complete, and HLT outside CPL 0, which does not. -/
theorem witness_StepRunsTheInstructionAtEip_atTop :
    (Running (oneByte ready 0xFFFFFFFF 0x90) ∧ CodeAt (oneByte ready 0xFFFFFFFF 0x90) 0xFFFFFFFF (encode .nop) ∧
      0xFFFFFFFF + (encode .nop).length = 4294967296 ∧ ¬Transfers .nop (oneByte ready 0xFFFFFFFF 0x90) ∧
      answers (exec .nop (oneByte ready 0xFFFFFFFF 0x90)) = true) ∧
    (Running (oneByte user 0xFFFFFFFF 0xF4) ∧ CodeAt (oneByte user 0xFFFFFFFF 0xF4) 0xFFFFFFFF (encode .hlt) ∧
      ¬Transfers .hlt (oneByte user 0xFFFFFFFF 0xF4) ∧ answers (exec .hlt (oneByte user 0xFFFFFFFF 0xF4)) = false) := by
  refine ⟨⟨running_launch _ _, ?_, by decide, by simp [Transfers], by decide⟩, running_launch _ _, ?_, by simp [Transfers],
    by decide⟩ <;> (unfold CodeAt; decide)

/-- `ready` with DR2 programmed as a code breakpoint at EIP, and a NOP there. -/
def broken : State :=
  withBytes { ready with dregs := { ready.dregs with dr2 := 0x1000, code2 := true } } 0x1000 [0x90]

theorem witness_StepRunsTheInstructionAtEip_resumed :
    Running { broken with eflags := 0x00010002 } ∧ getFlag 0x00010002 .rf = true ∧
      CodeAt { broken with eflags := 0x00010002 } 0x1000 (encode .nop) := by
  unfold Running CodeAt
  decide

theorem witness_CodeBreakpointComesFirst :
    (Running broken ∧ (broken.dregs.code2, broken.dregs.dr2) = (true, broken.eip) ∧ getFlag broken.eflags .rf = false) ∧
      Running { broken with eflags := 0x00010002 } ∧ getFlag 0x00010002 .rf = true := by
  unfold Running
  decide

/-- Real mode (reset), paging, virtual-8086 mode, single-stepping. -/
theorem witness_ModesOutsideTheScopeAreRefused :
    (State.reset.inputs = { flush := 0, init := false, smi := false, rs := false } ∧ State.reset.halted = false ∧
      cr0Pe State.reset.cr0 = false) ∧
    (ready.inputs = { flush := 0, init := false, smi := false, rs := false } ∧ ready.halted = false) ∧
    (cr0Pe (State.cr0 { ready with cr0 := 0x80000011 }) = true ∧ cr0Pg (State.cr0 { ready with cr0 := 0x80000011 }) = true) ∧
    (cr0Pe ready.cr0 = true ∧ cr0Pg ready.cr0 = false ∧ getFlag (State.eflags { ready with eflags := 0x20002 }) .vm = true) ∧
    getFlag (State.eflags { ready with eflags := 0x102 }) .vm = false ∧
    getFlag (State.eflags { ready with eflags := 0x102 }) .tf = true := by decide

theorem witness_InitResetsAllButFloatingPoint :
    State.inputs { ready with inputs := { flush := 0, init := true, smi := false, rs := false } } =
      { flush := 0, init := true, smi := false, rs := false } := rfl

/-- FLUSH# pending on a halted processor together with INIT. -/
def flushing : State :=
  { ready with halted := true, inputs := { flush := 2, init := true, smi := false, rs := false } }

/-- Two falling edges latch two requests; the rising edge between them latches none. -/
theorem test_flush_counts_falling_edges :
    (flushPin true false (flushPin false true (flushPin true false ready))).inputs.flush = 2 := by decide

theorem witness_FlushIsTakenOnceAndInvisible :
    0 < flushing.inputs.flush ∧ flushing.inputs.smi = false ∧ flushing.inputs.rs = false := by decide

theorem witness_FaultsArePreciseAndCarryTheStoredImage :
    step (withBytes user 0x1000 [0xF4]) =
      .fault (.exception .generalProtection (some 0#32) 0x1000#32 0x00010002#32) :=
  fault_of_faultAt (by decide)

theorem witness_FaultsArePreciseAndCarryTheStoredImage_refused :
    step State.reset = .refused (.because .realModeNotAdmitted 0xFFF0) := rfl

theorem witness_AlignmentCheckOnlyAtLevelThree :
    exec (.movRegMem .eax .ebx) (checked.setReg .ebx 0x3001) =
      .fault (.exception .alignmentCheck (some 0#32) 0x1000#32 0x00050002#32) :=
  fault_of_faultAt (by decide)

/-- Every clause at once: a misaligned base, ESP odd, and room for three doublewords. -/
def crooked : State := (checked.setReg .ebx 0x3003).setReg .esp 0x2001

theorem witness_MisalignedAccessesRaiseAlignmentCheck :
    AlignmentActive crooked ∧ (crooked.reg .ebx).toNat % 4 ≠ 0 ∧ (crooked.reg .esp).toNat % 4 ≠ 0 ∧
      (crooked.reg .esp).toNat % 2 ≠ 0 ∧ FlagStackAdmitted crooked ∧ getFlag crooked.eflags .nt = false ∧
      (crooked.reg .esp).toNat + 12 ≤ 4294967296 := by
  unfold AlignmentActive FlagStackAdmitted
  decide

theorem witness_PrivilegedInstructionsFaultOutsideLevelZero :
    user.cpl ≠ 0#2 ∧ State.cpl { user with csSel := 0x0009 } ≠ 0#2 := by decide

/-- A handler at CPL 3 whose stack holds the frame of the fault of `crooked`. -/
def handler : State :=
  withBytes { user with eip := 0x1080 } 0x2000 [0x00, 0x10, 0, 0, 0x1B, 0, 0, 0, 0x02, 0x00, 0x05, 0x00]

theorem witness_HandlerReturnRestartsTheInstruction :
    exec (.movRegMem .eax .ebx) crooked =
      .fault (.exception .alignmentCheck (some 0#32) 0x1000#32 0x00050002#32) ∧
    getFlag crooked.eflags .vm = false ∧ FlagStackAdmitted handler ∧ getFlag handler.eflags .nt = false ∧
    handler.csSel = crooked.csSel ∧ (handler.reg .esp).toNat + 12 ≤ 4294967296 ∧ Readable handler (handler.reg .esp) 4 ∧
    Readable handler (handler.reg .esp + 4#32) 4 ∧ Readable handler (handler.reg .esp + 8#32) 4 ∧
    wordAt handler (handler.reg .esp) = 0x1000#32 ∧
    (wordAt handler (handler.reg .esp + 4#32)).extractLsb' 0 16 = crooked.csSel ∧
    wordAt handler (handler.reg .esp + 8#32) = 0x00050002#32 :=
  ⟨fault_of_faultAt (by decide), by decide, by unfold FlagStackAdmitted; decide, by decide, by decide, by decide,
    readable_of_check (by decide) (by decide), readable_of_check (by decide) (by decide),
    readable_of_check (by decide) (by decide), by decide, by decide, by decide⟩

/-- A base at the last four bytes of the address space, at CPL 3 with the alignment check active. -/
def edge : State := checked.setReg .ebx 0xFFFFFFFC

/-- The hypotheses of the statements on memory operands, at the highest address and, misaligned, at an unchecked one. -/
theorem witness_TestWritesFlagsOnly : Readable edge (edge.reg .ebx) 4 := readable_of_check (by decide) (by decide)
theorem witness_ArithmeticFromMemory : Readable edge (edge.reg .ebx) 4 := readable_of_check (by decide) (by decide)
theorem witness_LogicFromMemory : Readable (ready.setReg .ebx 0x1001) 0x1001 4 :=
  readable_of_check (by decide) (by decide)
theorem witness_ArithmeticIntoMemory :
    Memory.wf edge.mem = true ∧ Writable edge (edge.reg .ebx) 4 ∧ Readable edge (edge.reg .ebx) 4 :=
  ⟨by decide, writable_of_check (by decide) (by decide), readable_of_check (by decide) (by decide)⟩
theorem witness_LogicIntoMemory :
    Memory.wf (withBytes ready 0 [1]).mem = true ∧ Writable (withBytes ready 0 [1]) 0#32 4 :=
  ⟨by decide, writable_of_check (by decide) (by decide)⟩
theorem witness_MoveFromAndToMemory :
    Readable edge (edge.reg .ebx) 4 ∧ Memory.wf edge.mem = true ∧ Writable edge (edge.reg .ebx) 4 :=
  ⟨readable_of_check (by decide) (by decide), by decide, writable_of_check (by decide) (by decide)⟩
theorem witness_LoadAfterStoreGivesTheValue :
    Memory.wf ready.mem = true ∧ Writable (ready.setReg .ebx 0x3003) 0x3003#32 4 :=
  ⟨by decide, writable_of_check (by decide) (by decide)⟩

/-- A stack of which a push wraps below address 0: ESP = 0, so the push stores at FFFF FFFCH. -/
theorem witness_PushAndPop :
    Memory.wf (ready.setReg .esp 0).mem = true ∧
      Writable (ready.setReg .esp 0) (State.reg (ready.setReg .esp 0) .esp - 4#32) 4 ∧
      Readable (ready.setReg .esp 0) (State.reg (ready.setReg .esp 0) .esp) 4 :=
  ⟨by decide, writable_of_check (by decide) (by decide), readable_of_check (by decide) (by decide)⟩
theorem witness_StackRoundTrips :
    Memory.wf ready.mem = true ∧ Writable ready (ready.reg .esp - 4#32) 4 ∧ Reg.ebp ≠ Reg.esp :=
  ⟨by decide, writable_of_check (by decide) (by decide), by decide⟩
theorem witness_CallAndReturn :
    Memory.wf checked.mem = true ∧ Writable checked (checked.reg .esp - 4#32) 4 ∧ Readable checked (checked.reg .esp) 4 :=
  ⟨by decide, writable_of_check (by decide) (by decide), readable_of_check (by decide) (by decide)⟩

theorem witness_HaltEndsTheRunAtLevelZero :
    ready.cpl = 0#2 ∧ ready.inputs = { flush := 0, init := false, smi := false, rs := false } ∧ user.cpl ≠ 0#2 := by
  decide

theorem witness_OnlyHaltEndsARunAndOnlyItsMoveChangesCr4 :
    (∃ t, exec .hlt ready = .next t ∧ ready.halted = false ∧ Ended t) ∧
      ∃ t, exec (.movCr4Reg .eax) (ready.setReg .eax 4) = .next t ∧ t.cr4 ≠ (ready.setReg .eax 4).cr4 := by
  obtain ⟨t, h, ht⟩ := next_of_after (r := exec .hlt ready) (f := fun t => t.halted) (v := true) (by decide)
  obtain ⟨u, h', hu⟩ := next_of_after (r := exec (.movCr4Reg .eax) (ready.setReg .eax 4)) (f := fun t => t.cr4) (v := 4)
    (by decide)
  exact ⟨⟨t, h, rfl, ht⟩, u, h', by rw [hu]; decide⟩

theorem witness_ConditionalJumpFollowsTheTable :
    CondTable { ready with eflags := 0x42 } .z ∧ ¬CondTable { ready with eflags := 0x42 } .nz ∧
      CondTable { ready with eflags := 0x42 } .le ∧ ¬CondTable { ready with eflags := 0x42 } .l := by
  unfold CondTable
  decide

theorem witness_PushedFlagsHaveTheirFixedBits :
    FlagStackAdmitted checked ∧ Memory.wf checked.mem = true ∧ Writable checked (checked.reg .esp - 2#32) 2 ∧
      Writable checked (checked.reg .esp - 4#32) 4 :=
  ⟨by unfold FlagStackAdmitted; decide, by decide, writable_of_check (by decide) (by decide),
    writable_of_check (by decide) (by decide)⟩

/-- CPL 3 with IOPL 3: the pop writes IF and keeps IOPL. At CPL 3 with IOPL 0 (`checked`) it keeps both. -/
theorem witness_PoppedFlagsObeyThePrivilegeLevel :
    (FlagStackAdmitted checked ∧ Readable checked (checked.reg .esp) 2 ∧ Readable checked (checked.reg .esp) 4 ∧
      ¬checked.cpl ≤ checked.iopl) ∧
    State.cpl { user with eflags := 0x3002 } ≤ State.iopl { user with eflags := 0x3002 } ∧ ready.cpl = 0#2 :=
  ⟨⟨by unfold FlagStackAdmitted; decide, readable_of_check (by decide) (by decide),
    readable_of_check (by decide) (by decide), by decide⟩, by decide, by decide⟩

theorem witness_InterruptReturnLoadsTheFrame :
    FlagStackAdmitted returning ∧ getFlag returning.eflags .nt = false ∧
      (returning.reg .esp).toNat + 12 ≤ 4294967296 ∧ Readable returning (returning.reg .esp) 4 ∧
      Readable returning (returning.reg .esp + 4#32) 4 ∧ Readable returning (returning.reg .esp + 8#32) 4 ∧
      (wordAt returning (returning.reg .esp + 4#32)).extractLsb' 0 16 = returning.csSel ∧
      (wordAt returning (returning.reg .esp + 8#32)).getLsbD 17 = false :=
  ⟨by unfold FlagStackAdmitted; decide, by decide, by decide, readable_of_check (by decide) (by decide),
    readable_of_check (by decide) (by decide), readable_of_check (by decide) (by decide), by decide, by decide⟩

/-- The refusal clauses: PVI set; TF set; NT set; ESP = FFFF FFF5H, one past the last that fits; and with the frame readable
the VM image at CPL 0 and a foreign selector. -/
theorem witness_FlagStackRefusals :
    cr4Pvi (State.cr4 { ready with cr4 := 2 }) = true ∧
    (cr4Vme ready.cr4 = false ∧ cr4Pvi ready.cr4 = false ∧
      getFlag (State.eflags { ready with eflags := 0x102 }) .tf = true) ∧
    (FlagStackAdmitted { ready with eflags := 0x4002 } ∧
      getFlag (State.eflags { ready with eflags := 0x4002 }) .nt = true) ∧
    (FlagStackAdmitted (ready.setReg .esp 0xFFFFFFF5) ∧ getFlag (ready.setReg .esp 0xFFFFFFF5).eflags .nt = false ∧
      (State.reg (ready.setReg .esp 0xFFFFFFF5) .esp).toNat + 12 > 4294967296) := by
  unfold FlagStackAdmitted
  decide

/-- `returning` with the VM bit in its image. -/
def returningVm : State := withBytes returning 0x300A [0x02]

/-- `returning` with another selector on the stack. -/
def returningFar : State := withBytes returning 0x3004 [0x1B]

theorem witness_FlagStackRefusals_frame :
    (FlagStackAdmitted returningVm ∧ getFlag returningVm.eflags .nt = false ∧
      (returningVm.reg .esp).toNat + 12 ≤ 4294967296 ∧ Readable returningVm (returningVm.reg .esp) 4 ∧
      Readable returningVm (returningVm.reg .esp + 4#32) 4 ∧ Readable returningVm (returningVm.reg .esp + 8#32) 4 ∧
      (wordAt returningVm (returningVm.reg .esp + 8#32)).getLsbD 17 = true ∧ returningVm.cpl = 0#2) ∧
    FlagStackAdmitted returningFar ∧ getFlag returningFar.eflags .nt = false ∧
      (returningFar.reg .esp).toNat + 12 ≤ 4294967296 ∧ Readable returningFar (returningFar.reg .esp) 4 ∧
      Readable returningFar (returningFar.reg .esp + 4#32) 4 ∧ Readable returningFar (returningFar.reg .esp + 8#32) 4 ∧
      (wordAt returningFar (returningFar.reg .esp + 8#32)).getLsbD 17 = false ∧
      (wordAt returningFar (returningFar.reg .esp + 4#32)).extractLsb' 0 16 ≠ returningFar.csSel :=
  ⟨⟨by unfold FlagStackAdmitted; decide, by decide, by decide, readable_of_check (by decide) (by decide),
    readable_of_check (by decide) (by decide), readable_of_check (by decide) (by decide), by decide, by decide⟩,
    by unfold FlagStackAdmitted; decide, by decide, by decide, readable_of_check (by decide) (by decide),
    readable_of_check (by decide) (by decide), readable_of_check (by decide) (by decide), by decide, by decide⟩

theorem witness_RfIsClearAfterAllButInterruptReturn :
    ∃ t, exec .nop { ready with eflags := 0x00010002 } = .next t ∧ Instr.nop ≠ .iretd := ⟨_, rfl, by decide⟩

/-- `ready` with an image at ESP that has ID = 1; in `ready` itself the image has ID = 0. -/
def identified : State := withBytes ready 0x2002 [0x20]

theorem witness_IdentificationFlagCanBeToggled :
    (FlagStackAdmitted identified ∧ Memory.wf identified.mem = true ∧ Writable identified (identified.reg .esp) 4 ∧
      (identified.reg .esp).toNat % 4 = 0 ∧ (wordAt identified (identified.reg .esp)).getLsbD 8 = false ∧
      (wordAt identified (identified.reg .esp)).getLsbD 21 = true) ∧
    FlagStackAdmitted ready ∧ Memory.wf ready.mem = true ∧ Writable ready (ready.reg .esp) 4 ∧
      (ready.reg .esp).toNat % 4 = 0 ∧ (wordAt ready (ready.reg .esp)).getLsbD 8 = false ∧
      (wordAt ready (ready.reg .esp)).getLsbD 21 = false :=
  ⟨⟨by unfold FlagStackAdmitted; decide, by decide, writable_of_check (by decide) (by decide), by decide, by decide,
    by decide⟩, by unfold FlagStackAdmitted; decide, by decide, writable_of_check (by decide) (by decide), by decide,
    by decide, by decide⟩

theorem witness_ReadControlRegisters : ready.cpl = 0#2 := by decide

/-- Both clauses: 0 in bits 1:0, and 1 in one of them; 7FH is the largest value without a reserved bit. -/
theorem witness_WriteControlRegisterFour :
    (State.cpl (ready.setReg .eax 0x7F) = 0#2 ∧ State.reg (ready.setReg .eax 0x7F) .eax &&& cr4Reserved = 0#32 ∧
      (State.reg (ready.setReg .eax 0x7F) .eax).getLsbD 0 = true) ∧
    State.cpl (ready.setReg .eax 0x7C) = 0#2 ∧ State.reg (ready.setReg .eax 0x7C) .eax &&& cr4Reserved = 0#32 ∧
      (State.reg (ready.setReg .eax 0x7C) .eax).getLsbD 0 = false ∧
      (State.reg (ready.setReg .eax 0x7C) .eax).getLsbD 1 = false := by decide

theorem witness_ReservedBitOfControlRegisterFourFaults :
    (State.reg (ready.setReg .eax 0x80) .eax).getLsbD 7 = true ∧
      (State.reg (user.setReg .eax 0x80000000) .eax).getLsbD 31 = true := by decide

theorem witness_TimeStampDisable :
    ((State.cr4 { user with cr4 := 4 }).getLsbD 2 = true ∧ State.cpl { user with cr4 := 4 } ≠ 0#2) ∧
      user.cr4.getLsbD 2 = false := by decide

theorem witness_TimeStampCounterAccess :
    user.cr4.getLsbD 2 = false ∧ ready.cpl = 0#2 ∧ State.reg (ready.setReg .ecx 0x10) .ecx = 0x10#32 := by decide

theorem witness_ReadModelSpecificRegister :
    State.cpl (ready.setReg .ecx 0x13) = 0#2 ∧
      (State.reg (ready.setReg .ecx 0x13) .ecx).toNat ∈ [0x00, 0x01, 0x02, 0x04, 0x05, 0x06, 0x07, 0x08, 0x09, 0x0A, 0x0B,
        0x0C, 0x0D, 0x0E, 0x10, 0x11, 0x12, 0x13] := by decide

theorem witness_ModelSpecificRegisterRefusals :
    ready.cpl = 0#2 ∧ (State.reg (ready.setReg .ecx 0x03) .ecx).toNat = 0x03 ∧
      (State.reg (ready.setReg .ecx 0x0F) .ecx).toNat = 0x0F ∧ 0x14 ≤ (State.reg (ready.setReg .ecx 0x14) .ecx).toNat ∧
      (State.reg (ready.setReg .ecx 0x13) .ecx).toNat < 0x14 := by decide

theorem witness_UnprivilegedCodeCannotChangeSystemState :
    ∃ t, user.cpl ≠ 0#2 ∧ exec .popfd user = .next t ∧ user.iopl < user.cpl := by
  obtain ⟨t, h, -⟩ := next_of_after (r := exec .popfd user) (f := fun t => t.reg .esp) (v := 0x2004) (by decide)
  exact ⟨t, by decide, h, by decide⟩

/-- ST(7) with TOP = 5, so the physical registers 5 and 4. -/
theorem witness_FxchExchangesContentsAndTags :
    ready.cr0.getLsbD 2 = false ∧ ready.cr0.getLsbD 3 = false ∧ ready.fpu.fsw.getLsbD 7 = false ∧
      (5 : Fin 8).val = stackIndexOf ready 0 ∧ (4 : Fin 8).val = stackIndexOf ready 7 ∧
      tagValue ready.fpu.ftw 5 ≠ 3 ∧ tagValue ready.fpu.ftw 4 ≠ 3 := by decide

/-- The three stops: TS = 1; ES = 1; and ST(2), which is the empty register 7. -/
theorem witness_FxchStops :
    (5 : Fin 8).val = stackIndexOf ready 0 ∧ (7 : Fin 8).val = stackIndexOf ready 2 ∧ tagValue ready.fpu.ftw 7 = 3 ∧
      (State.cr0 { ready with cr0 := 0x19 }).getLsbD 3 = true ∧
      (State.fpu { ready with fpu := { ready.fpu with fsw := 0x2880 } }).fsw.getLsbD 7 = true := by decide

end Sys2Proof.Tests
end

section
/-! SUPPORT. The decoder answers what was encoded: the fields of an operand byte, each operand decoder on the bytes that the
encoder writes, and the round trip they give. -/

namespace Sys2Proof

@[simp] theorem Reg.ofNum_num (r : Reg) : Reg.ofNum r.num = r := by cases r <;> rfl

/-! The three fields of a ModRM byte are what it was put together from (R114). -/

@[simp] theorem modField_modRmByte (mod : BitVec 2) (reg rm : Reg) : modField (modRmByte mod reg rm) = mod := by
  unfold modField modRmByte
  rw [BitVec.extractLsb'_append_eq_of_le (by decide)]
  exact BitVec.extractLsb'_append_eq_left

@[simp] theorem regField_modRmByte (mod : BitVec 2) (reg rm : Reg) : regField (modRmByte mod reg rm) = reg.num := by
  unfold regField modRmByte
  rw [BitVec.extractLsb'_append_eq_of_le (by decide)]
  exact BitVec.extractLsb'_append_eq_right

@[simp] theorem rmField_modRmByte (mod : BitVec 2) (reg rm : Reg) : rmField (modRmByte mod reg rm) = rm.num :=
  BitVec.extractLsb'_append_eq_right

/-- With mod 11 the register form is answered. -/
theorem decodeModRm_regForm (rm reg : Reg) (rest : List Byte) (f g : Reg → Reg → Instr) :
    decodeModRm (modRmByte 3#2 reg rm :: rest) f g = .ok (f rm reg) rest := by
  simp [decodeModRm]

/-- With mod 00 and a base that R114 admits the memory form is answered. -/
theorem decodeModRm_memForm {rm : Reg} (h : baseAdmitted rm = true) (reg : Reg) (rest : List Byte) (f g : Reg → Reg → Instr) :
    decodeModRm (modRmByte 0#2 reg rm :: rest) f g = .ok (g rm reg) rest := by
  simp [decodeModRm, h]

/-- An immediate or displacement is answered as it was written. -/
theorem decodeImm32_imm32Bytes (v : Word) (rest : List Byte) (f : Word → Instr) :
    decodeImm32 (imm32Bytes v ++ rest) f = .ok (f v) rest :=
  congrArg (fun w => Decoded.ok (f w) rest) (le32_byteOf v)

/-- The encoding has as many bytes as the length column of the opcode table says (R111). -/
theorem length_encode (i : Instr) : (encode i).length = i.length := by cases i <;> rfl

/-- No encoding is longer than the window the fetch offers the decoder. -/
theorem length_encode_le_fetchLength (i : Instr) : (encode i).length ≤ fetchLength := by
  cases i <;> exact Nat.le_of_ble_eq_true rfl

/-- The decoder reads a well-formed instruction back from its own encoding, whatever follows (R111, R118): by the shape of the
encoding, a ModRM byte, an immediate, a number inside a byte, or fixed bytes. -/
theorem decode_encode (i : Instr) (rest : List Byte) (h : i.wellFormed = true) : decode (encode i ++ rest) = .ok i rest := by
  cases i with
  | addRmReg | addRegRm | orRmReg | orRegRm | andRmReg | andRegRm | subRmReg | subRegRm | xorRmReg | xorRegRm
  | cmpRmReg | cmpRegRm | testRmReg | movRmReg | movRegRm =>
    simp [encode, decode, decodeOperate, decodeModRm_regForm]
  | addMemReg | addRegMem | orMemReg | orRegMem | andMemReg | andRegMem | subMemReg | subRegMem | xorMemReg | xorRegMem
  | cmpMemReg | cmpRegMem | testMemReg | movMemReg | movRegMem =>
    simp [encode, decode, decodeOperate, decodeModRm_memForm h]
  | addEaxImm imm | orEaxImm imm | andEaxImm imm | subEaxImm imm | xorEaxImm imm | cmpEaxImm imm | callRel32 imm
  | jmpRel32 imm => exact decodeImm32_imm32Bytes imm rest _
  | movRegImm r imm => cases r <;> exact decodeImm32_imm32Bytes imm rest _
  | movRegCr0 r | movRegCr4 r | movCr4Reg r | movCr0Reg r | incReg r | decReg r | pushReg r | popReg r => cases r <;> rfl
  | jccRel8 cc _ => cases cc <;> rfl
  | fxch i => fin_cases i <;> rfl
  | _ => rfl

end Sys2Proof
end

section
/-! SUPPORT. A running step, when the encoding of an instruction stands at EIP, down to that instruction's meaning. -/

namespace Sys2Proof.Machine

/-- The code breakpoint check passes when no register matches or RF is 1 (R19, R225). -/
theorem codeBreakpointCheck_of {s : State} (h : breakpointPins s = 0#4 ∨ getFlag s.eflags .rf = true) :
    codeBreakpointCheck s = .next () := by
  refine if_neg fun ⟨hpins, hrf⟩ => ?_
  rcases h with h | h
  · exact hpins h
  · simp [h] at hrf

/-- The fetch answers the instruction whose encoding stands at EIP (R66, R118). -/
theorem fetch_of_codeAt {s : State} {i : Instr} (hi : i.wellFormed = true) (h : CodeAt s s.eip.toNat (encode i)) :
    fetch s = .next i := by
  obtain ⟨rest, hbytes⟩ := fetchBytes_of_codeAt s _ fetchLength _ (length_encode_le_fetchLength i) h
  simp [fetch, hbytes, decode_encode i rest hi]

/-- The step runs the instruction at EIP and then checks the address that follows it. -/
theorem step_of_codeAt {s : State} {i : Instr} (hi : i.wellFormed = true) (hs : Running s)
    (hb : breakpointPins s = 0#4 ∨ getFlag s.eflags .rf = true) (hc : CodeAt s s.eip.toNat (encode i)) :
    step s = andThen (exec i s) fun t => finish i s t := by
  rw [step_of_running hs, codeBreakpointCheck_of hb, andThen_next, fetch_of_codeAt hi hc, andThen_next]

/-- Where EIP would wrap, the end of an instruction is the refusal (R280; log 43). -/
theorem finish_of_wraps {i : Instr} {s t : State} (h : eipWraps i s = true) :
    finish i s t = .refused (.because .addressWrap s.eip) :=
  if_pos h

/-- Where EIP does not wrap, the check of the next address adds nothing. -/
theorem andThen_finish_of_not_wraps {i : Instr} {s : State} (h : eipWraps i s = false) (x : Res State) :
    (andThen x fun t => finish i s t) = x := by
  cases x with
  | next t => exact finish_of_not_wraps h
  | fault r => rfl
  | refused r => rfl

/-- What does not complete stays as it is, whatever would follow. -/
theorem andThen_eq_self_of_ne_next {α : Type} {x : Res α} (f : α → Res α) (h : ∀ a, x ≠ .next a) : andThen x f = x := by
  cases x with
  | next a => exact absurd rfl (h a)
  | fault r => rfl
  | refused r => rfl

/-- Settles O10: the step is the meaning followed by the check of the next address, which `eipWraps_eq_false_iff` splits at
2^32. -/
theorem stepRunsTheInstructionAtEip : Obligations.StepRunsTheInstructionAtEip := by
  intro s i hi hs hb hc
  rw [step_of_codeAt hi hs hb hc, length_encode, ← eipWraps_eq_false_iff]
  refine ⟨fun hno => andThen_finish_of_not_wraps hno _, fun htop hfall => ?_⟩
  have hwraps : eipWraps i s = true := by
    rw [← Bool.not_eq_false, eipWraps_eq_false_iff]
    rintro (hlt | htr)
    · omega
    · exact hfall htr
  refine ⟨fun t ht => ?_, andThen_eq_self_of_ne_next _⟩
  rw [ht, andThen_next, finish_of_wraps hwraps]

end Sys2Proof.Machine
end

section
/-! SUPPORT. What an instruction keeps: the parts of the state that no operation inside an instruction touches, one rule per
shared operation, and from them everything an instruction that completes can have done to the system state. -/

namespace Sys2Proof.Machine

/-- The flags of the virtual-8086 extensions, which only MOV CR4 writes (R16, R17, R140). -/
def systemFlags : List Flag := [.vm, .vif, .vip]

/-- What no instruction but MOV CR4 and HLT changes; memory in canonical form stays so, and no byte of `MEM.code` changes. -/
structure Kept (s t : State) : Prop where
  cr0 : t.cr0 = s.cr0
  cr4 : t.cr4 = s.cr4
  csSel : t.csSel = s.csSel
  map : t.map = s.map
  halted : t.halted = s.halted
  flags : ∀ f ∈ systemFlags, getFlag t.eflags f = getFlag s.eflags f
  wf : Memory.wf s.mem = true → Memory.wf t.mem = true
  code : Memory.wf s.mem = true → ∀ a, inCode s.map a = true → Memory.readByte t.mem a = Memory.readByte s.mem a

theorem Kept.refl (s : State) : Kept s s := ⟨rfl, rfl, rfl, rfl, rfl, fun _ _ => rfl, id, fun _ _ _ => rfl⟩

theorem Kept.trans {s t u : State} (h : Kept s t) (h' : Kept t u) : Kept s u where
  cr0 := h'.cr0.trans h.cr0
  cr4 := h'.cr4.trans h.cr4
  csSel := h'.csSel.trans h.csSel
  map := h'.map.trans h.map
  halted := h'.halted.trans h.halted
  flags f hf := (h'.flags f hf).trans (h.flags f hf)
  wf hs := h'.wf (h.wf hs)
  code hs a ha := (h'.code (h.wf hs) a (h.map ▸ ha)).trans (h.code hs a ha)

/-! ### Registers, EFLAGS and the floating-point state -/

theorem kept_setReg (s : State) (r : Reg) (v : Word) : Kept s (s.setReg r v) :=
  ⟨rfl, rfl, rfl, rfl, rfl, fun _ _ => rfl, id, fun _ _ _ => rfl⟩

theorem kept_popped (s : State) (n : Nat) : Kept s (s.popped n) := kept_setReg s .esp _

theorem kept_withEip (s : State) (v : Word) : Kept s { s with eip := v } :=
  ⟨rfl, rfl, rfl, rfl, rfl, fun _ _ => rfl, id, fun _ _ _ => rfl⟩

theorem kept_withFpu (s : State) (f : Fpu) : Kept s { s with fpu := f } :=
  ⟨rfl, rfl, rfl, rfl, rfl, fun _ _ => rfl, id, fun _ _ _ => rfl⟩

theorem kept_spend (s : State) (n : Nat) : Kept s (s.spend n) :=
  ⟨rfl, rfl, rfl, rfl, rfl, fun _ _ => rfl, id, fun _ _ _ => rfl⟩

theorem kept_deliver64 (v : BitVec 64) (s : State) : Kept s (deliver64 v s) :=
  ((kept_setReg s _ _).trans (kept_setReg _ _ _)).trans (kept_spend _ 1)

/-- A write of EFLAGS that leaves the flags of the virtual-8086 extensions alone. -/
theorem kept_setEflags {s : State} {v : Word} (h : ∀ f ∈ systemFlags, getFlag v f = getFlag s.eflags f) :
    Kept s (s.setEflags v) :=
  ⟨rfl, rfl, rfl, rfl, rfl, fun f hf => (getFlag_hardwireEflags v f).trans (h f hf), id, fun _ _ _ => rfl⟩

theorem Flag.pos_not_mem_statusBits {f : Flag} (hf : f ∈ systemFlags) : f.pos ∉ statusBits :=
  (by decide : ∀ f ∈ systemFlags, f.pos ∉ statusBits) f hf

/-- A write of the six status flags. -/
theorem kept_setEflags_of_statusBits {s : State} {v : Word} (h : ∀ i, i ∉ statusBits → v.getLsbD i = s.eflags.getLsbD i) :
    Kept s (s.setEflags v) :=
  kept_setEflags fun _ hf => h _ (Flag.pos_not_mem_statusBits hf)

/-- A masked write of EFLAGS whose mask has none of the flags of the virtual-8086 extensions. -/
theorem kept_setEflags_maskWrite {s : State} {v mask : Word} (h : ∀ f ∈ systemFlags, mask.getLsbD f.pos = false) :
    Kept s (s.setEflags (maskWrite s.eflags v mask)) :=
  kept_setEflags fun f hf => by rw [getFlag, getLsbD_maskWrite, h f hf]; rfl

/-- The privileged part of a pop's mask has none of these flags (R145 to R147). -/
theorem getLsbD_or_maskPrivileged {mask : Word} (cpl iopl : BitVec 2) (h : ∀ f ∈ systemFlags, mask.getLsbD f.pos = false) :
    ∀ f ∈ systemFlags, (mask ||| maskPrivileged cpl iopl).getLsbD f.pos = false := by
  intro f hf
  have hpos : f.pos ≠ 9 ∧ f.pos ≠ 12 ∧ f.pos ≠ 13 :=
    (by decide : ∀ f ∈ systemFlags, f.pos ≠ 9 ∧ f.pos ≠ 12 ∧ f.pos ≠ 13) f hf
  rw [BitVec.getLsbD_or, h f hf, getLsbD_maskPrivileged cpl iopl _ f.pos_lt]
  simp [hpos]

theorem kept_clearRf (s : State) : Kept s s.clearRf :=
  kept_setEflags fun f hf => by
    have hrf : f ≠ .rf := by rintro rfl; exact absurd hf (by decide)
    rw [getFlag_setFlag, if_neg hrf]

theorem kept_completeAt (target : Word) (s : State) : Kept s (completeAt target s) :=
  (kept_clearRf s).trans (kept_withEip _ target)

theorem kept_complete (n : Nat) (s : State) : Kept s (complete n s) := kept_completeAt _ s

theorem kept_scrambleStatus (s : State) : Kept s (scrambleStatus s) :=
  (kept_setEflags_of_statusBits (setStatus_of_not_mem _ _ _ _ _ _ _)).trans (kept_spend _ 6)

theorem kept_aluFlags (op : AluOp) (a b r : Word) (s : State) : Kept s (aluFlags op a b r s) := by
  have logic : Kept s (setLogicFlags r s) :=
    (kept_setEflags_of_statusBits (flagsLogic_of_not_mem r _ _)).trans (kept_spend _ 1)
  cases op with
  | add => exact kept_setEflags_of_statusBits (flagsAdd_of_not_mem a b r _)
  | sub | cmp => exact kept_setEflags_of_statusBits (flagsSub_of_not_mem a b r _)
  | or | and | xor | test => exact logic

/-! ### Memory -/

/-- A write of 4 bytes that the map admits touches no byte of `MEM.code` (R64, R66). -/
theorem kept_write32 {s : State} {a : Word} (v : Word) (h : Writable s a 4) :
    Kept s { s with mem := Memory.write32 s.mem a.toNat v } := by
  refine ⟨rfl, rfl, rfl, rfl, rfl, fun _ _ => rfl, Memory.wf_write32 _ v, fun hs x hx => ?_⟩
  refine Memory.readByte_write32_of_ne _ x v hs fun hin => ?_
  have hdata := h.2 (x - a.toNat) (by omega)
  rw [show a.toNat + (x - a.toNat) = x by omega] at hdata
  exact Bool.false_ne_true ((inCode_of_inData hdata).symm.trans hx)

/-- A write of 2 bytes that the map admits touches no byte of `MEM.code` (R64, R66). -/
theorem kept_write16 {s : State} {a : Word} (v : Half) (h : Writable s a 2) :
    Kept s { s with mem := Memory.write16 s.mem a.toNat v } := by
  refine ⟨rfl, rfl, rfl, rfl, rfl, fun _ _ => rfl, Memory.wf_write16 _ v, fun hs x hx => ?_⟩
  refine Memory.readByte_write16_of_ne _ x v hs fun hin => ?_
  have hdata := h.2 (x - a.toNat) (by omega)
  rw [show a.toNat + (x - a.toNat) = x by omega] at hdata
  exact Bool.false_ne_true ((inCode_of_inData hdata).symm.trans hx)

theorem kept_push32 {s t : State} {v : Word} (h : push32 s v = .next t) : Kept s t := by
  obtain ⟨hw, rfl⟩ := (push32_next_iff s t v).1 h
  exact (kept_write32 v hw).trans (kept_setReg _ _ _)

theorem kept_push16 {s t : State} {v : Half} (h : push16 s v = .next t) : Kept s t := by
  obtain ⟨hw, rfl⟩ := (push16_next_iff s t v).1 h
  exact (kept_write16 v hw).trans (kept_setReg _ _ _)

theorem kept_rmWrite {s t : State} {v : Word} {dst : Rm} (h : rmWrite s v dst = .next t) : Kept s t := by
  cases dst with
  | reg r =>
    cases h
    exact kept_setReg s r v
  | mem base =>
    obtain ⟨hw, rfl⟩ := (memWrite32_next_iff s t _ v).1 h
    exact kept_write32 v hw

theorem kept_aluStore {op : AluOp} {dst : Rm} {r : Word} {s t : State} (h : aluStore op dst r s = .next t) : Kept s t := by
  unfold aluStore at h
  split at h
  · exact kept_rmWrite h
  · cases h
    exact Kept.refl s

/-! ### The two-operand forms -/

/-- The operation, operands and length of a two-operand arithmetic or logic instruction (R188 to R194). -/
def aluForm : Instr → Option (AluOp × Rm × Src × Nat)
  | .addRmReg rm reg => some (.add, .reg rm, .rm (.reg reg), 2)
  | .addMemReg rm reg => some (.add, .mem rm, .rm (.reg reg), 2)
  | .addRegRm reg rm => some (.add, .reg reg, .rm (.reg rm), 2)
  | .addRegMem reg rm => some (.add, .reg reg, .rm (.mem rm), 2)
  | .addEaxImm imm => some (.add, .reg .eax, .imm imm, 5)
  | .orRmReg rm reg => some (.or, .reg rm, .rm (.reg reg), 2)
  | .orMemReg rm reg => some (.or, .mem rm, .rm (.reg reg), 2)
  | .orRegRm reg rm => some (.or, .reg reg, .rm (.reg rm), 2)
  | .orRegMem reg rm => some (.or, .reg reg, .rm (.mem rm), 2)
  | .orEaxImm imm => some (.or, .reg .eax, .imm imm, 5)
  | .andRmReg rm reg => some (.and, .reg rm, .rm (.reg reg), 2)
  | .andMemReg rm reg => some (.and, .mem rm, .rm (.reg reg), 2)
  | .andRegRm reg rm => some (.and, .reg reg, .rm (.reg rm), 2)
  | .andRegMem reg rm => some (.and, .reg reg, .rm (.mem rm), 2)
  | .andEaxImm imm => some (.and, .reg .eax, .imm imm, 5)
  | .subRmReg rm reg => some (.sub, .reg rm, .rm (.reg reg), 2)
  | .subMemReg rm reg => some (.sub, .mem rm, .rm (.reg reg), 2)
  | .subRegRm reg rm => some (.sub, .reg reg, .rm (.reg rm), 2)
  | .subRegMem reg rm => some (.sub, .reg reg, .rm (.mem rm), 2)
  | .subEaxImm imm => some (.sub, .reg .eax, .imm imm, 5)
  | .xorRmReg rm reg => some (.xor, .reg rm, .rm (.reg reg), 2)
  | .xorMemReg rm reg => some (.xor, .mem rm, .rm (.reg reg), 2)
  | .xorRegRm reg rm => some (.xor, .reg reg, .rm (.reg rm), 2)
  | .xorRegMem reg rm => some (.xor, .reg reg, .rm (.mem rm), 2)
  | .xorEaxImm imm => some (.xor, .reg .eax, .imm imm, 5)
  | .cmpRmReg rm reg => some (.cmp, .reg rm, .rm (.reg reg), 2)
  | .cmpMemReg rm reg => some (.cmp, .mem rm, .rm (.reg reg), 2)
  | .cmpRegRm reg rm => some (.cmp, .reg reg, .rm (.reg rm), 2)
  | .cmpRegMem reg rm => some (.cmp, .reg reg, .rm (.mem rm), 2)
  | .cmpEaxImm imm => some (.cmp, .reg .eax, .imm imm, 5)
  | .testRmReg rm reg => some (.test, .reg rm, .rm (.reg reg), 2)
  | .testMemReg rm reg => some (.test, .mem rm, .rm (.reg reg), 2)
  | _ => none

theorem exec_of_aluForm {i : Instr} {op : AluOp} {dst : Rm} {src : Src} {n : Nat} (s : State)
    (h : aluForm i = some (op, dst, src, n)) : exec i s = execAlu op dst src n s := by
  cases i <;> cases h <;> rfl

/-- The operands and length of a MOV between general registers, memory and an immediate (R183 to R185). -/
def moveForm : Instr → Option (Rm × Src × Nat)
  | .movRmReg rm reg => some (.reg rm, .rm (.reg reg), 2)
  | .movMemReg rm reg => some (.mem rm, .rm (.reg reg), 2)
  | .movRegRm reg rm => some (.reg reg, .rm (.reg rm), 2)
  | .movRegMem reg rm => some (.reg reg, .rm (.mem rm), 2)
  | .movRegImm r imm => some (.reg r, .imm imm, 5)
  | _ => none

theorem exec_of_moveForm {i : Instr} {dst : Rm} {src : Src} {n : Nat} (s : State)
    (h : moveForm i = some (dst, src, n)) : exec i s = execMove dst src n s := by
  cases i <;> cases h <;> rfl

/-! ### Instructions -/

/-- What every completed instruction but MOV CR4 and HLT gives: the system state is kept, and the reserved bits of EFLAGS hold
their constants (R15). -/
def KeptAndFixed (s t : State) : Prop := Kept s t ∧ EflagsFixed t.eflags

theorem keptAndFixed_completeAt {s s1 : State} (target : Word) (h : Kept s s1) : KeptAndFixed s (completeAt target s1) :=
  ⟨h.trans (kept_completeAt target s1), eflagsFixed_hardwireEflags _⟩

theorem keptAndFixed_complete {s s1 : State} (n : Nat) (h : Kept s s1) : KeptAndFixed s (complete n s1) :=
  keptAndFixed_completeAt _ h

theorem keptAndFixed_execAlu {op : AluOp} {dst : Rm} {src : Src} {n : Nat} {s t : State}
    (h : execAlu op dst src n s = .next t) : KeptAndFixed s t := by
  obtain ⟨a, b, s1, -, -, hstore, rfl⟩ := (execAlu_next_iff op dst src n s t).1 h
  exact keptAndFixed_complete n ((kept_aluStore hstore).trans (kept_aluFlags op a b _ s1))

theorem keptAndFixed_execMove {dst : Rm} {src : Src} {n : Nat} {s t : State} (h : execMove dst src n s = .next t) :
    KeptAndFixed s t := by
  obtain ⟨v, s1, -, hwrite, rfl⟩ := (execMove_next_iff dst src n s t).1 h
  exact keptAndFixed_complete n (kept_rmWrite hwrite)

theorem keptAndFixed_returnFromException {s t : State} (h : returnFromException s = .next t) : KeptAndFixed s t := by
  obtain ⟨-, -, -, -, -, -, -, -, -, -, rfl⟩ := (returnFromException_next_iff s t).1 h
  exact ⟨((kept_setEflags_maskWrite (getLsbD_or_maskPrivileged _ _ (by decide))).trans (kept_popped _ 12)).trans
    (kept_withEip _ _), eflagsFixed_hardwireEflags _⟩

/-- Everything POPF can answer (R145). -/
theorem execPopf_next_iff (s t : State) :
    execPopf s = .next t ↔ FlagStackAdmitted s ∧ Readable s (s.reg .esp) 2 ∧
      t = complete 2 ((s.setEflags (maskWrite s.eflags ((Memory.read16 s.mem (s.reg .esp).toNat).zeroExtend 32)
        (maskUser16.zeroExtend 32 ||| maskPrivileged s.cpl s.iopl))).popped 2) := by
  simp only [execPopf, andThen_next_iff, flagStackAdmitted_next_iff, memRead16_next_iff, Host.Outcome.next.injEq]
  constructor
  · rintro ⟨-, hadm, v, ⟨hread, rfl⟩, rfl⟩; exact ⟨hadm, hread, rfl⟩
  · rintro ⟨hadm, hread, rfl⟩; exact ⟨(), hadm, _, ⟨hread, rfl⟩, rfl⟩

/-- Everything POPFD can answer (R146). -/
theorem execPopfd_next_iff (s t : State) :
    execPopfd s = .next t ↔ FlagStackAdmitted s ∧ Readable s (s.reg .esp) 4 ∧
      t = complete 1 ((s.setEflags (maskWrite s.eflags (Memory.read32 s.mem (s.reg .esp).toNat)
        (maskUser32 ||| maskPrivileged s.cpl s.iopl))).popped 4) := by
  simp only [execPopfd, andThen_next_iff, flagStackAdmitted_next_iff, memRead32_next_iff, Host.Outcome.next.injEq]
  constructor
  · rintro ⟨-, hadm, v, ⟨hread, rfl⟩, rfl⟩; exact ⟨hadm, hread, rfl⟩
  · rintro ⟨hadm, hread, rfl⟩; exact ⟨(), hadm, _, ⟨hread, rfl⟩, rfl⟩

/-- Everything PUSHF can answer (R143). -/
theorem execPushf_next_iff (s t : State) :
    execPushf s = .next t ↔
      FlagStackAdmitted s ∧ ∃ s1, push16 s (s.flagsImage.extractLsb' 0 16) = .next s1 ∧ t = complete 2 s1 := by
  simp only [execPushf, andThen_next_iff, flagStackAdmitted_next_iff, Host.Outcome.next.injEq]
  constructor
  · rintro ⟨-, hadm, s1, hpush, rfl⟩; exact ⟨hadm, s1, hpush, rfl⟩
  · rintro ⟨hadm, s1, hpush, rfl⟩; exact ⟨(), hadm, s1, hpush, rfl⟩

/-- Everything PUSHFD can answer (R144). -/
theorem execPushfd_next_iff (s t : State) :
    execPushfd s = .next t ↔
      FlagStackAdmitted s ∧ ∃ s1, push32 s (s.flagsImage &&& maskPushfd) = .next s1 ∧ t = complete 1 s1 := by
  simp only [execPushfd, andThen_next_iff, flagStackAdmitted_next_iff, Host.Outcome.next.injEq]
  constructor
  · rintro ⟨-, hadm, s1, hpush, rfl⟩; exact ⟨hadm, s1, hpush, rfl⟩
  · rintro ⟨hadm, s1, hpush, rfl⟩; exact ⟨(), hadm, s1, hpush, rfl⟩

/-- The state after MOV CR4 has written `v` (R162). -/
def cr4Written (s : State) (v : Word) : State :=
  complete 3 (scrambleStatus (State.setEflags { s with cr4 := v } (forceVirtualFlags v s.eflags)))

/-- Everything MOV CR4, r32 can answer (R162, R28, R16, R17). -/
theorem execMovCr4Reg_next_iff (r : Reg) (s t : State) :
    execMovCr4Reg r s = .next t ↔ s.cpl = 0#2 ∧ s.reg r &&& cr4Reserved = 0#32 ∧ t = cr4Written s (s.reg r) := by
  simp only [execMovCr4Reg, andThen_next_iff, requireCpl0_next_iff]
  constructor
  · rintro ⟨-, hcpl, h⟩
    split at h
    · cases h
    · next hres => cases h; exact ⟨hcpl, by simpa using hres, rfl⟩
  · rintro ⟨hcpl, hres, rfl⟩
    exact ⟨(), hcpl, if_neg fun h => h hres⟩

/-- Everything HLT can answer (R182). -/
theorem execHlt_next_iff (s t : State) : execHlt s = .next t ↔ s.cpl = 0#2 ∧ t = { complete 1 s with halted := true } := by
  simp only [execHlt, andThen_next_iff, requireCpl0_next_iff, Host.Outcome.next.injEq]
  constructor
  · rintro ⟨-, hcpl, rfl⟩; exact ⟨hcpl, rfl⟩
  · rintro ⟨hcpl, rfl⟩; exact ⟨(), hcpl, rfl⟩

/-- Everything FXCH can answer (R131). -/
theorem execFxch_next_iff (i : Fin 8) (s t : State) :
    execFxch i s = .next t ↔ (cr0Em s.cr0 = false ∧ cr0Ts s.cr0 = false) ∧ fswEs s.fpu.fsw = false ∧
      tagOf s.fpu.ftw (physReg s.fpu.fsw 0) ≠ tagEmpty ∧ tagOf s.fpu.ftw (physReg s.fpu.fsw i) ≠ tagEmpty ∧
      t = complete 2 (scrambleConditionCodes
        { s with fpu := exchangeFp (physReg s.fpu.fsw 0) (physReg s.fpu.fsw i) s.fpu }) := by
  unfold execFxch
  constructor
  · intro h
    split at h
    · cases h
    next hdev =>
    split at h
    · cases h
    next hes =>
    dsimp only at h
    split at h
    · cases h
    next htag =>
    simp only [not_or, Bool.not_eq_true] at hdev hes htag
    exact ⟨hdev, hes, htag.1, htag.2, (Host.Outcome.next.inj h).symm⟩
  · rintro ⟨⟨hem, hts⟩, hes, hp, hq, rfl⟩
    simp [hem, hts, hes, hp, hq]

theorem execRdtsc_next_iff (s t : State) :
    execRdtsc s = .next t ↔ ¬(cr4Tsd s.cr4 = true ∧ s.cpl ≠ 0#2) ∧ t = complete 2 (deliver64 s.draw64 s) := by
  unfold execRdtsc
  split
  · next h => exact iff_of_false (raise_ne_next _ s t) fun ht => ht.1 h
  · next h => exact ⟨fun ht => ⟨h, (Host.Outcome.next.inj ht).symm⟩, fun ht => ht.2 ▸ rfl⟩

/-- Everything RDMSR can answer (R170, R172). -/
theorem execRdmsr_next_iff (s t : State) :
    execRdmsr s = .next t ↔
      s.cpl = 0#2 ∧ msrDefined (s.reg .ecx) = true ∧ t = complete 2 (deliver64 s.draw64 s) := by
  simp only [execRdmsr, andThen_next_iff, requireCpl0_next_iff]
  constructor
  · rintro ⟨-, hcpl, h⟩
    split at h
    · next hdef => exact ⟨hcpl, hdef, (Host.Outcome.next.inj h).symm⟩
    · cases h
  · rintro ⟨hcpl, hdef, rfl⟩
    exact ⟨(), hcpl, if_pos hdef⟩

/-- Everything WRMSR can answer (R171, R172). -/
theorem execWrmsr_next_iff (s t : State) :
    execWrmsr s = .next t ↔ s.cpl = 0#2 ∧ s.reg .ecx = msrTsc ∧ t = complete 2 s := by
  simp only [execWrmsr, andThen_next_iff, requireCpl0_next_iff]
  constructor
  · rintro ⟨-, hcpl, h⟩
    split at h
    · split at h
      · next htsc => exact ⟨hcpl, htsc, (Host.Outcome.next.inj h).symm⟩
      · cases h
    · cases h
  · rintro ⟨hcpl, htsc, rfl⟩
    exact ⟨(), hcpl, by rw [htsc, if_pos (by decide), if_pos rfl]⟩

/-- Everything an instruction that completes can have done to the system state: MOV CR4 at CPL 0 writes CR4, HLT at CPL 0 ends
the run, and every other instruction keeps it. -/
theorem exec_next_cases {i : Instr} {s t : State} (h : exec i s = .next t) :
    KeptAndFixed s t ∨
      (∃ r, i = .movCr4Reg r ∧ s.cpl = 0#2 ∧ s.reg r &&& cr4Reserved = 0#32 ∧
        t = cr4Written s (s.reg r)) ∨
      (i = .hlt ∧ s.cpl = 0#2 ∧ t = { complete 1 s with halted := true }) := by
  cases i with
  | movCr4Reg r =>
    obtain ⟨hcpl, hres, rfl⟩ := (execMovCr4Reg_next_iff r s t).1 h
    exact .inr (.inl ⟨r, rfl, hcpl, hres, rfl⟩)
  | hlt =>
    obtain ⟨hcpl, rfl⟩ := (execHlt_next_iff s t).1 h
    exact .inr (.inr ⟨rfl, hcpl, rfl⟩)
  | addRmReg | addMemReg | addRegRm | addRegMem | addEaxImm | orRmReg | orMemReg | orRegRm | orRegMem | orEaxImm
  | andRmReg | andMemReg | andRegRm | andRegMem | andEaxImm | subRmReg | subMemReg | subRegRm | subRegMem | subEaxImm
  | xorRmReg | xorMemReg | xorRegRm | xorRegMem | xorEaxImm | cmpRmReg | cmpMemReg | cmpRegRm | cmpRegMem | cmpEaxImm
  | testRmReg | testMemReg => exact .inl (keptAndFixed_execAlu ((exec_of_aluForm s rfl).symm.trans h))
  | movRmReg | movMemReg | movRegRm | movRegMem | movRegImm =>
    exact .inl (keptAndFixed_execMove ((exec_of_moveForm s rfl).symm.trans h))
  | movRegCr0 r | movRegCr4 r =>
    obtain ⟨-, -, h⟩ := (andThen_next_iff _ _ t).1 h
    cases h
    exact .inl (keptAndFixed_complete 3 ((kept_setReg s r _).trans (kept_scrambleStatus _)))
  | movCr0Reg r => cases h
  | wrmsr =>
    obtain ⟨-, -, rfl⟩ := (execWrmsr_next_iff s t).1 h
    exact .inl (keptAndFixed_complete 2 (Kept.refl s))
  | rdmsr =>
    obtain ⟨-, -, rfl⟩ := (execRdmsr_next_iff s t).1 h
    exact .inl (keptAndFixed_complete 2 (kept_deliver64 _ s))
  | rdtsc =>
    obtain ⟨-, rfl⟩ := (execRdtsc_next_iff s t).1 h
    exact .inl (keptAndFixed_complete 2 (kept_deliver64 _ s))
  | cpuid =>
    cases h
    exact .inl (keptAndFixed_complete 2
      ((((kept_setReg s _ _).trans (kept_setReg _ _ _)).trans (kept_setReg _ _ _)).trans (kept_setReg _ _ _)))
  | incReg r =>
    cases h
    refine .inl (keptAndFixed_complete 1 ((kept_setReg s r _).trans (kept_setEflags_of_statusBits fun k hk => ?_)))
    exact flagsInc_of_not_mem _ _ _ k fun hin => hk (List.mem_cons_of_mem 0 hin)
  | decReg r =>
    cases h
    refine .inl (keptAndFixed_complete 1 ((kept_setReg s r _).trans (kept_setEflags_of_statusBits fun k hk => ?_)))
    exact flagsDec_of_not_mem _ _ _ k fun hin => hk (List.mem_cons_of_mem 0 hin)
  | pushReg r =>
    obtain ⟨s1, hpush, h⟩ := (andThen_next_iff _ _ t).1 h
    cases h
    exact .inl (keptAndFixed_complete 1 (kept_push32 hpush))
  | callRel32 rel =>
    obtain ⟨s1, hpush, h⟩ := (andThen_next_iff _ _ t).1 h
    cases h
    exact .inl (keptAndFixed_completeAt _ (kept_push32 hpush))
  | popReg r =>
    obtain ⟨v, -, h⟩ := (andThen_next_iff _ _ t).1 h
    cases h
    exact .inl (keptAndFixed_complete 1 ((kept_popped s 4).trans (kept_setReg _ r v)))
  | ret =>
    obtain ⟨v, -, h⟩ := (andThen_next_iff _ _ t).1 h
    cases h
    exact .inl (keptAndFixed_completeAt v (kept_popped s 4))
  | pushf =>
    obtain ⟨-, s1, hpush, rfl⟩ := (execPushf_next_iff s t).1 h
    exact .inl (keptAndFixed_complete 2 (kept_push16 hpush))
  | pushfd =>
    obtain ⟨-, s1, hpush, rfl⟩ := (execPushfd_next_iff s t).1 h
    exact .inl (keptAndFixed_complete 1 (kept_push32 hpush))
  | popf =>
    obtain ⟨-, -, rfl⟩ := (execPopf_next_iff s t).1 h
    exact .inl (keptAndFixed_complete 2
      ((kept_setEflags_maskWrite (getLsbD_or_maskPrivileged _ _ (by decide))).trans (kept_popped _ 2)))
  | popfd =>
    obtain ⟨-, -, rfl⟩ := (execPopfd_next_iff s t).1 h
    exact .inl (keptAndFixed_complete 1
      ((kept_setEflags_maskWrite (getLsbD_or_maskPrivileged _ _ (by decide))).trans (kept_popped _ 4)))
  | iretd => exact .inl (keptAndFixed_returnFromException h)
  | sahf =>
    cases h
    exact .inl (keptAndFixed_complete 1 (kept_setEflags_maskWrite (by decide)))
  | lahf =>
    cases h
    exact .inl (keptAndFixed_complete 1 (kept_setReg s .eax _))
  | fxch k =>
    obtain ⟨-, -, -, -, rfl⟩ := (execFxch_next_iff k s t).1 h
    exact .inl (keptAndFixed_complete 2
      (((kept_withFpu s _).trans (kept_withFpu _ _)).trans (kept_spend _ 3)))
  | jccRel8 cc rel =>
    replace h : execJccRel8 cc rel s = .next t := h
    unfold execJccRel8 at h
    split at h <;> cases h
    · exact .inl (keptAndFixed_completeAt _ (Kept.refl s))
    · exact .inl (keptAndFixed_complete 2 (Kept.refl s))
  | jmpRel8 rel =>
    cases h
    exact .inl (keptAndFixed_completeAt _ (Kept.refl s))
  | jmpRel32 rel =>
    cases h
    exact .inl (keptAndFixed_completeAt _ (Kept.refl s))
  | nop =>
    cases h
    exact .inl (keptAndFixed_complete 1 (Kept.refl s))


/-! ### The invariant and the constants of a run -/

theorem runInvariant_of_keptAndFixed {s t : State} (hs : RunInvariant s) (h : KeptAndFixed s t) : RunInvariant t := by
  obtain ⟨hkept, hfixed⟩ := h
  obtain ⟨-, hcr4, hvirtual, hvm, het, hwf⟩ := hs
  refine ⟨hfixed, by rwa [hkept.cr4], fun hvme hpvi => ?_, by rwa [hkept.flags .vm (by decide)], by rwa [hkept.cr0],
    hkept.wf hwf⟩
  rw [hkept.cr4] at hvme hpvi
  rw [hkept.flags .vif (by decide), hkept.flags .vip (by decide)]
  exact hvirtual hvme hpvi

theorem getFlag_forceVirtualFlags (v e : Word) (f : Flag) :
    getFlag (forceVirtualFlags v e) f =
      if (cr4Vme v = false ∧ cr4Pvi v = false) ∧ (f = .vif ∨ f = .vip) then false else getFlag e f := by
  unfold forceVirtualFlags
  split
  · next h =>
    by_cases hvif : f = .vif <;> by_cases hvip : f = .vip <;> simp [h, hvif, hvip]
  · next h => simp [h]

/-- The flags of the virtual-8086 extensions after MOV CR4: VIF and VIP forced when both enables are written 0. -/
theorem getFlag_cr4Written (s : State) (v : Word) {f : Flag} (hf : f ∈ systemFlags) :
    getFlag (cr4Written s v).eflags f =
      if (cr4Vme v = false ∧ cr4Pvi v = false) ∧ (f = .vif ∨ f = .vip) then false else getFlag s.eflags f := by
  have hkept := (kept_scrambleStatus (State.setEflags { s with cr4 := v } (forceVirtualFlags v s.eflags))).trans
    (kept_complete 3 _)
  rw [cr4Written, hkept.flags f hf, State.setEflags_eflags, getFlag_hardwireEflags, getFlag_forceVirtualFlags]

/-- MOV CR4 forces VIF and VIP when it clears both their enables, so it keeps the invariant (R16, R17, R162). -/
theorem runInvariant_cr4Written {s : State} {v : Word} (hs : RunInvariant s) (hv : v &&& cr4Reserved = 0#32) :
    RunInvariant (cr4Written s v) := by
  obtain ⟨-, -, -, hvm, het, hwf⟩ := hs
  refine ⟨eflagsFixed_hardwireEflags _, hv, fun hvme hpvi => ?_, ?_, het, hwf⟩
  · constructor <;> rw [getFlag_cr4Written s v (by decide), if_pos ⟨⟨hvme, hpvi⟩, by decide⟩]
  · rw [getFlag_cr4Written s v (by decide), if_neg fun h => absurd h.2 (by decide), hvm]

/-- Settles O5: the reset value is the one R23 states. -/
theorem eflagsAfterReset : Obligations.EflagsAfterReset := rfl

/-- Settles O7: the reset values, evaluated. -/
theorem resetHasTheInvariant : Obligations.ResetHasTheInvariant := by
  unfold Obligations.ResetHasTheInvariant RunInvariant EflagsFixed VirtualFlagsForced
  decide

/-- INIT resets every part the invariant speaks of but memory, which it keeps (R271). -/
theorem runInvariant_initialise {s : State} (hs : RunInvariant s) : RunInvariant (initialise s) := by
  obtain ⟨-, -, -, -, -, hwf⟩ := hs
  obtain ⟨hfixed, hcr4, hvirtual, hvm, het, -⟩ := resetHasTheInvariant
  exact ⟨hfixed, hcr4, hvirtual, hvm, het, hwf⟩

theorem runInvariant_exec {i : Instr} {s t : State} (hs : RunInvariant s) (h : exec i s = .next t) : RunInvariant t := by
  rcases exec_next_cases h with hkept | ⟨r, -, -, hres, rfl⟩ | ⟨-, -, rfl⟩
  · exact runInvariant_of_keptAndFixed hs hkept
  · exact runInvariant_cr4Written hs hres
  · have hcompleted : RunInvariant (complete 1 s) :=
      runInvariant_of_keptAndFixed hs (keptAndFixed_complete 1 (Kept.refl s))
    exact hcompleted

/-- Settles O8: by what a step can have done, a request taken at the boundary or one instruction. -/
theorem everyStepKeepsTheInvariant : Obligations.EveryStepKeepsTheInvariant := by
  intro s t hs h
  rcases step_next_cases h with ⟨-, rfl⟩ | ⟨-, -, rfl⟩ | ⟨-, -, rfl⟩ | ⟨-, -, -, -, i, -, hexec, -⟩
  · exact hs
  · exact runInvariant_initialise hs
  · exact hs
  · exact runInvariant_exec hs hexec

/-- No instruction changes CR0, the CS selector, the map or a byte of `MEM.code` (R48, R78; logs 24, 36, 40). -/
theorem exec_keeps_runConstants {i : Instr} {s t : State} (h : exec i s = .next t) :
    t.cr0 = s.cr0 ∧ t.csSel = s.csSel ∧ t.map = s.map ∧
      (Memory.wf s.mem = true → ∀ a, inCode s.map a = true → Memory.readByte t.mem a = Memory.readByte s.mem a) := by
  rcases exec_next_cases h with ⟨hkept, -⟩ | ⟨r, -, -, -, rfl⟩ | ⟨-, -, rfl⟩
  · exact ⟨hkept.cr0, hkept.csSel, hkept.map, hkept.code⟩
  · exact ⟨rfl, rfl, rfl, fun _ _ _ => rfl⟩
  · exact ⟨rfl, rfl, rfl, fun _ _ _ => rfl⟩

/-- Settles O9: FLUSH# and idling change none of these, and no instruction does. -/
theorem runConstantsAndCodeNeverChange : Obligations.RunConstantsAndCodeNeverChange := by
  intro s t hwf hinit h
  rcases step_next_cases h with ⟨-, rfl⟩ | ⟨-, htaken, -⟩ | ⟨-, -, rfl⟩ | ⟨-, -, -, -, i, -, hexec, -⟩
  · exact ⟨rfl, rfl, rfl, rfl, fun _ _ => rfl⟩
  · rw [hinit] at htaken
    cases htaken
  · exact ⟨rfl, rfl, rfl, rfl, fun _ _ => rfl⟩
  · obtain ⟨hcr0, hcs, hmap, hcode⟩ := exec_keeps_runConstants hexec
    exact ⟨hcr0, hcs, by rw [State.cpl, State.cpl, hcs], hmap, hcode hwf⟩

/-- Settles O36: by what an instruction can have done to the system state. -/
theorem onlyHaltEndsARunAndOnlyItsMoveChangesCr4 : Obligations.OnlyHaltEndsARunAndOnlyItsMoveChangesCr4 := by
  intro i s t h
  rcases exec_next_cases h with ⟨hkept, -⟩ | ⟨r, rfl, hcpl, -, rfl⟩ | ⟨rfl, hcpl, rfl⟩
  · refine ⟨fun hrun hend => ?_, fun hne => absurd hkept.cr4 hne⟩
    rw [Ended, hkept.halted, hrun] at hend
    cases hend
  · exact ⟨fun hrun hend => absurd (hrun.symm.trans hend) Bool.false_ne_true, fun _ => ⟨r, rfl, hcpl, rfl⟩⟩
  · exact ⟨fun _ _ => ⟨rfl, hcpl⟩, fun hne => absurd rfl hne⟩

end Sys2Proof.Machine
end

section
/-! SUPPORT. How an instruction can stop: every exception and every refusal carries the address of the instruction, and which
exceptions occur, one rule per shared operation; from them the statements about faults. -/

namespace Sys2Proof.Machine

/-- The fault is an exception that instructions raise, with the code, address and image of `raise` (R239, R240); the alignment
check only under the conditions of R65. -/
def RaisedAt (s : State) (r : Fault) : Prop :=
  ∃ x, r = .exception x (exceptionCode x) s.eip (exceptionImage x s) ∧
    (x = .generalProtection ∨ x = .deviceNotAvailable ∨ x = .alignmentCheck ∧ AlignmentActive s)

/-- However the operation stops, it reports the address of the instruction, and what it raises an instruction may raise. -/
structure StopsAt {α : Type} (s : State) (x : Res α) : Prop where
  refused : RefusedAt s.eip x
  raised : ∀ r, x = .fault r → RaisedAt s r

theorem stopsAt_next {α : Type} (s : State) (a : α) : StopsAt s (.next a) := ⟨refusedAt_next _ a, nofun⟩

theorem stopsAt_refuse {α : Type} (reason : RefusalReason) (s : State) : StopsAt s (refuse reason s : Res α) :=
  ⟨refusedAt_refuse reason s, fun r h => absurd h (refuse_ne_fault reason s r)⟩

theorem stopsAt_raise {α : Type} {x : Exception} (s : State) (hx : x = .generalProtection ∨ x = .deviceNotAvailable) :
    StopsAt s (raise x s : Res α) :=
  ⟨refusedAt_raise x s _, fun r h => by cases h; exact ⟨x, rfl, hx.imp_right .inl⟩⟩

theorem stopsAt_andThen {α β : Type} {s : State} {x : Res α} {f : α → Res β} (hx : StopsAt s x)
    (hf : ∀ a, StopsAt s (f a)) : StopsAt s (andThen x f) := by
  refine ⟨refusedAt_andThen hx.refused fun a _ => (hf a).refused, fun r h => ?_⟩
  rcases (andThen_fault_iff x f r).1 h with h | ⟨a, -, h⟩
  · exact hx.raised r h
  · exact (hf a).raised r h

theorem raisedAt_of_alignmentCheck {s : State} {r : Fault}
    (h : AlignmentActive s ∧ (raise .alignmentCheck s : Res Unit) = .fault r) : RaisedAt s r := by
  obtain ⟨hactive, hr⟩ := h
  cases hr
  exact ⟨.alignmentCheck, rfl, .inr (.inr ⟨rfl, hactive⟩)⟩

/-! ### Shared operations -/

theorem stopsAt_memRead32 (s : State) (a : Word) : StopsAt s (memRead32 s a) :=
  ⟨refusedAt_memRead32 s a, fun _ h => raisedAt_of_alignmentCheck (memRead32_fault h)⟩

theorem stopsAt_memRead16 (s : State) (a : Word) : StopsAt s (memRead16 s a) :=
  ⟨refusedAt_memRead16 s a, fun _ h => raisedAt_of_alignmentCheck (memRead16_fault h)⟩

theorem stopsAt_memWrite32 (s : State) (a v : Word) : StopsAt s (memWrite32 s a v) :=
  ⟨refusedAt_memWrite32 s a v, fun _ h => raisedAt_of_alignmentCheck (memWrite32_fault h)⟩

theorem stopsAt_memWrite16 (s : State) (a : Word) (v : Half) : StopsAt s (memWrite16 s a v) :=
  ⟨refusedAt_memWrite16 s a v, fun _ h => raisedAt_of_alignmentCheck (memWrite16_fault h)⟩

theorem stopsAt_push32 (s : State) (v : Word) : StopsAt s (push32 s v) :=
  stopsAt_andThen (stopsAt_memWrite32 s _ v) fun _ => stopsAt_next s _

theorem stopsAt_push16 (s : State) (v : Half) : StopsAt s (push16 s v) :=
  stopsAt_andThen (stopsAt_memWrite16 s _ v) fun _ => stopsAt_next s _

theorem stopsAt_rmRead (s : State) (x : Rm) : StopsAt s (rmRead s x) := by
  cases x with
  | reg r => exact stopsAt_next s _
  | mem base => exact stopsAt_memRead32 s _

theorem stopsAt_rmWrite (s : State) (v : Word) (x : Rm) : StopsAt s (rmWrite s v x) := by
  cases x with
  | reg r => exact stopsAt_next s _
  | mem base => exact stopsAt_memWrite32 s _ v

theorem stopsAt_srcRead (s : State) (x : Src) : StopsAt s (srcRead s x) := by
  cases x with
  | rm x => exact stopsAt_rmRead s x
  | imm v => exact stopsAt_next s v

theorem stopsAt_requireCpl0 (s : State) : StopsAt s (requireCpl0 s) := by
  unfold requireCpl0
  split
  · exact stopsAt_next s ()
  · exact stopsAt_raise s (.inl rfl)

theorem stopsAt_requireNoTrapFlag (s : State) : StopsAt s (requireNoTrapFlag s) := by
  unfold requireNoTrapFlag
  split
  · exact stopsAt_refuse _ s
  · exact stopsAt_next s ()

theorem stopsAt_flagStackAdmitted (s : State) : StopsAt s (flagStackAdmitted s) := by
  unfold flagStackAdmitted
  split
  · exact stopsAt_refuse _ s
  · exact stopsAt_requireNoTrapFlag s

theorem stopsAt_execAlu (op : AluOp) (dst : Rm) (src : Src) (n : Nat) (s : State) : StopsAt s (execAlu op dst src n s) := by
  have hstore (r : Word) : StopsAt s (aluStore op dst r s) := by
    unfold aluStore
    split
    · exact stopsAt_rmWrite s r dst
    · exact stopsAt_next s s
  exact stopsAt_andThen (stopsAt_rmRead s dst) fun _ => stopsAt_andThen (stopsAt_srcRead s src) fun _ =>
    stopsAt_andThen (hstore _) fun _ => stopsAt_next s _

theorem stopsAt_execMove (dst : Rm) (src : Src) (n : Nat) (s : State) : StopsAt s (execMove dst src n s) :=
  stopsAt_andThen (stopsAt_srcRead s src) fun v =>
    stopsAt_andThen (stopsAt_rmWrite s v dst) fun _ => stopsAt_next s _

theorem stopsAt_returnFromException (s : State) : StopsAt s (returnFromException s) := by
  refine stopsAt_andThen (stopsAt_flagStackAdmitted s) fun _ => ?_
  split
  · exact stopsAt_refuse _ s
  split
  · exact stopsAt_refuse _ s
  refine stopsAt_andThen (stopsAt_memRead32 s _) fun _ => stopsAt_andThen (stopsAt_memRead32 s _) fun _ =>
    stopsAt_andThen (stopsAt_memRead32 s _) fun _ => ?_
  split
  · exact stopsAt_refuse _ s
  split
  · exact stopsAt_refuse _ s
  · exact stopsAt_next s _

/-! ### Instructions -/

/-- However an instruction stops, it reports its own address, and it raises general protection, device not available, or the
alignment check where that is active (R222, R223, R227, R240, R280). -/
theorem stopsAt_exec (i : Instr) (s : State) : StopsAt s (exec i s) := by
  cases i with
  | addRmReg | addMemReg | addRegRm | addRegMem | addEaxImm | orRmReg | orMemReg | orRegRm | orRegMem | orEaxImm
  | andRmReg | andMemReg | andRegRm | andRegMem | andEaxImm | subRmReg | subMemReg | subRegRm | subRegMem | subEaxImm
  | xorRmReg | xorMemReg | xorRegRm | xorRegMem | xorEaxImm | cmpRmReg | cmpMemReg | cmpRegRm | cmpRegMem | cmpEaxImm
  | testRmReg | testMemReg =>
    rw [exec_of_aluForm s rfl]
    exact stopsAt_execAlu _ _ _ _ s
  | movRmReg | movMemReg | movRegRm | movRegMem | movRegImm =>
    rw [exec_of_moveForm s rfl]
    exact stopsAt_execMove _ _ _ s
  | movRegCr0 | movRegCr4 | hlt => exact stopsAt_andThen (stopsAt_requireCpl0 s) fun _ => stopsAt_next s _
  | movCr4Reg =>
    refine stopsAt_andThen (stopsAt_requireCpl0 s) fun _ => ?_
    dsimp only
    split
    · exact stopsAt_raise s (.inl rfl)
    · exact stopsAt_next s _
  | movCr0Reg => exact stopsAt_refuse _ s
  | wrmsr =>
    refine stopsAt_andThen (stopsAt_requireCpl0 s) fun _ => ?_
    split
    · split
      · exact stopsAt_next s _
      · exact stopsAt_refuse _ s
    · exact stopsAt_refuse _ s
  | rdmsr =>
    refine stopsAt_andThen (stopsAt_requireCpl0 s) fun _ => ?_
    split
    · exact stopsAt_next s _
    · exact stopsAt_refuse _ s
  | rdtsc =>
    show StopsAt s (execRdtsc s)
    unfold execRdtsc
    split
    · exact stopsAt_raise s (.inl rfl)
    · exact stopsAt_next s _
  | pushReg | callRel32 => exact stopsAt_andThen (stopsAt_push32 s _) fun _ => stopsAt_next s _
  | popReg | ret => exact stopsAt_andThen (stopsAt_memRead32 s _) fun _ => stopsAt_next s _
  | pushf =>
    exact stopsAt_andThen (stopsAt_flagStackAdmitted s) fun _ => stopsAt_andThen (stopsAt_push16 s _) fun _ => stopsAt_next s _
  | pushfd =>
    exact stopsAt_andThen (stopsAt_flagStackAdmitted s) fun _ => stopsAt_andThen (stopsAt_push32 s _) fun _ => stopsAt_next s _
  | popf =>
    exact stopsAt_andThen (stopsAt_flagStackAdmitted s) fun _ => stopsAt_andThen (stopsAt_memRead16 s _) fun _ => stopsAt_next s _
  | popfd =>
    exact stopsAt_andThen (stopsAt_flagStackAdmitted s) fun _ => stopsAt_andThen (stopsAt_memRead32 s _) fun _ => stopsAt_next s _
  | iretd => exact stopsAt_returnFromException s
  | fxch k =>
    show StopsAt s (execFxch k s)
    unfold execFxch
    split
    · exact stopsAt_raise s (.inr rfl)
    split
    · exact stopsAt_refuse _ s
    dsimp only
    split
    · exact stopsAt_refuse _ s
    · exact stopsAt_next s _
  | jccRel8 cc rel =>
    show StopsAt s (execJccRel8 cc rel s)
    unfold execJccRel8
    split <;> exact stopsAt_next s _
  | cpuid | incReg | decReg | nop | sahf | lahf | jmpRel8 | jmpRel32 => exact stopsAt_next s _

/-- The image that an instruction's exception stores: EFLAGS with RF set and the reserved bits at their constants (R239). -/
theorem RaisedAt.image {s : State} {x : Exception} {code : Option Word} {eip image : Word}
    (h : RaisedAt s (.exception x code eip image)) :
    eip = s.eip ∧ code = exceptionCode x ∧ image = hardwireEflags (setFlag .rf true s.eflags) ∧
      (x = .generalProtection ∨ x = .deviceNotAvailable ∨ x = .alignmentCheck) := by
  obtain ⟨y, hr, hy⟩ := h
  cases hr
  rcases hy with rfl | rfl | ⟨rfl, -⟩
  · exact ⟨rfl, rfl, rfl, .inl rfl⟩
  · exact ⟨rfl, rfl, rfl, .inr (.inl rfl)⟩
  · exact ⟨rfl, rfl, rfl, .inr (.inr rfl)⟩

/-- Settles O16: an instruction raises the alignment check only where it is active. -/
theorem alignmentCheckOnlyAtLevelThree : Obligations.AlignmentCheckOnlyAtLevelThree := by
  intro i s code eip image h
  obtain ⟨x, hr, hx⟩ := (stopsAt_exec i s).raised _ h
  cases hr
  rcases hx with hx | hx | ⟨-, hactive⟩
  · cases hx
  · cases hx
  · exact hactive

/-! ### Steps -/

/-- The code breakpoint is the only thing its check answers besides passing (R225, R19). -/
theorem codeBreakpointCheck_fault_iff (s : State) (r : Fault) :
    codeBreakpointCheck s = .fault r ↔
      (breakpointPins s ≠ 0#4 ∧ getFlag s.eflags .rf = false) ∧ (raise .codeBreakpoint s : Res Unit) = .fault r := by
  unfold codeBreakpointCheck
  split
  · next h => exact ⟨fun hr => ⟨h, hr⟩, fun hr => hr.2⟩
  · next h => exact ⟨nofun, fun hr => absurd hr.1 h⟩

theorem refusedAt_codeBreakpointCheck (s : State) : RefusedAt s.eip (codeBreakpointCheck s) := by
  unfold codeBreakpointCheck
  split
  · exact refusedAt_raise _ _ _
  · exact refusedAt_next _ _

theorem modeAdmitted_ne_fault (s : State) (r : Fault) : modeAdmitted s ≠ .fault r := by
  unfold modeAdmitted requireNoTrapFlag
  repeat' split
  all_goals nofun

/-- What the instruction boundary takes is no fault, and a refusal there reports EIP (R231 to R234). -/
theorem stopsAt_of_boundaryEvent {s : State} {x : Res State} (h : boundaryEvent s = some x) : StopsAt s x := by
  unfold boundaryEvent at h
  repeat' split at h
  all_goals cases h
  · exact stopsAt_refuse _ s
  · exact stopsAt_refuse _ s
  all_goals exact stopsAt_next s _

/-- Every refusal of a step reports EIP (R280). -/
theorem refusedAt_step (s : State) : RefusedAt s.eip (step s) := by
  unfold step
  split
  · next hboundary => exact (stopsAt_of_boundaryEvent hboundary).refused
  · exact refusedAt_andThen (refusedAt_modeAdmitted s) fun _ _ =>
      refusedAt_andThen (refusedAt_codeBreakpointCheck s) fun _ _ => refusedAt_andThen (refusedAt_fetch s) fun i _ =>
        refusedAt_andThen (stopsAt_exec i s).refused fun t _ => refusedAt_finish i s t

/-- A step faults by the code breakpoint, when a register matches and RF is 0, or as an instruction does. -/
theorem step_fault_cases {s : State} {r : Fault} (h : step s = .fault r) :
    (getFlag s.eflags .rf = false ∧ (raise .codeBreakpoint s : Res Unit) = .fault r) ∨ RaisedAt s r := by
  unfold step at h
  split at h
  · next hboundary => exact .inr ((stopsAt_of_boundaryEvent hboundary).raised r h)
  · simp only [andThen_fault_iff, modeAdmitted_ne_fault, fetch_ne_fault, finish_ne_fault, false_or, and_false, exists_false,
      or_false, codeBreakpointCheck_fault_iff] at h
    obtain ⟨-, -, ⟨⟨-, hrf⟩, hr⟩ | ⟨-, -, i, -, hexec⟩⟩ := h
    · exact .inl ⟨hrf, hr⟩
    · exact .inr ((stopsAt_exec i s).raised r hexec)

/-- Settles O15: every refusal of a step reports EIP, and its faults are the code breakpoint or an instruction's. -/
theorem faultsArePreciseAndCarryTheStoredImage : Obligations.FaultsArePreciseAndCarryTheStoredImage := by
  refine ⟨fun s r h => refusedAt_step s r h, fun s x code eip image h => ?_⟩
  rcases step_fault_cases h with ⟨-, hraise⟩ | hraised
  · obtain ⟨rfl, rfl, rfl, rfl⟩ := (raise_eq_fault_iff _ x s code eip image).1 hraise
    exact ⟨rfl, eflagsFixed_hardwireEflags _, fun hx => absurd rfl hx, .inr (.inr (.inr ⟨rfl, rfl⟩))⟩
  · obtain ⟨rfl, rfl, rfl, hx⟩ := hraised.image
    refine ⟨rfl, eflagsFixed_hardwireEflags _, fun _ => by simp, ?_⟩
    rcases hx with rfl | rfl | rfl
    · exact .inl ⟨rfl, rfl⟩
    · exact .inr (.inr (.inl ⟨rfl, rfl⟩))
    · exact .inr (.inl ⟨rfl, rfl⟩)

theorem ofBool_and_beq_eq_zero_iff (on : Bool) (a b : Word) :
    BitVec.ofBool (on && a == b) = 0#1 ↔ ¬(on, a) = (true, b) := by
  cases on with
  | false => simp
  | true =>
    by_cases h : a = b
    · simp [h]
    · simp [h, beq_false_of_ne h]

/-- The outputs show a match exactly when a register programmed as a code breakpoint holds EIP (R43, R251; log 10). -/
theorem breakpointPins_ne_zero_iff (s : State) :
    breakpointPins s ≠ 0#4 ↔
      ∃ e ∈ [(s.dregs.code0, s.dregs.dr0), (s.dregs.code1, s.dregs.dr1), (s.dregs.code2, s.dregs.dr2),
        (s.dregs.code3, s.dregs.dr3)], e = (true, s.eip) := by
  have happend : ∀ p q r t : BitVec 1, p ++ q ++ r ++ t = 0#4 ↔ p = 0#1 ∧ q = 0#1 ∧ r = 0#1 ∧ t = 0#1 := by decide
  unfold breakpointPins
  rw [ne_eq, happend]
  simp only [ofBool_and_beq_eq_zero_iff, List.mem_cons, List.not_mem_nil, or_false, exists_eq_or_imp, exists_eq_left]
  tauto

/-- Settles O11: the check comes before the fetch and looks at RF; no instruction raises the code breakpoint. -/
theorem codeBreakpointComesFirst : Obligations.CodeBreakpointComesFirst := by
  intro s hrun
  refine ⟨fun hmatch hrf => ?_, fun hrf code eip image h => ?_⟩
  · refine ⟨hardwireEflags s.eflags, ?_, by simp [hrf], eflagsFixed_hardwireEflags _⟩
    have hcheck : codeBreakpointCheck s = raise .codeBreakpoint s := if_pos ⟨(breakpointPins_ne_zero_iff s).2 hmatch, hrf⟩
    rw [step_of_running hrun, hcheck, andThen_raise]
    rfl
  · rcases step_fault_cases h with ⟨hclear, -⟩ | hraised
    · exact absurd (hrf.symm.trans hclear) (by decide)
    · obtain ⟨-, -, -, hx | hx | hx⟩ := hraised.image <;> cases hx


/-- Settles O12: nothing is taken at the boundary, so the first test that fails answers. -/
theorem modesOutsideTheScopeAreRefused : Obligations.ModesOutsideTheScopeAreRefused := by
  intro s hinputs hrun
  have hboundary : boundaryEvent s = none := by simp [boundaryEvent, hinputs, hrun]
  have hstep {reason : RefusalReason} (h : modeAdmitted s = refuse reason s) :
      step s = .refused (.because reason s.eip) := by
    unfold step
    rw [hboundary]
    dsimp only
    rw [h]
    rfl
  refine ⟨fun hpe => ?_, fun hpe hpg => ?_, fun hpe hpg hvm => ?_, fun hpe hpg hvm htf => ?_⟩ <;> apply hstep
  · simp [modeAdmitted, hpe]
  · simp [modeAdmitted, hpe, hpg]
  · simp [modeAdmitted, hpe, hpg, hvm]
  · simp [modeAdmitted, requireNoTrapFlag, hpe, hpg, hvm, htf]

/-! ### The return from a fault -/

/-- IRETD on a frame that R147 admits. -/
theorem exec_iretd_of_frame {u : State} (hadm : FlagStackAdmitted u) (hnt : getFlag u.eflags .nt = false)
    (hfit : (u.reg .esp).toNat + 12 ≤ 4294967296) (h0 : Readable u (u.reg .esp) 4)
    (h4 : Readable u (u.reg .esp + 4#32) 4) (h8 : Readable u (u.reg .esp + 8#32) 4)
    (hvm : ¬(getFlag (wordAt u (u.reg .esp + 8#32)) .vm = true ∧ u.cpl = 0#2))
    (hcs : (wordAt u (u.reg .esp + 4#32)).extractLsb' 0 16 = u.csSel) :
    exec .iretd u = .next { (u.setEflags (maskWrite u.eflags (wordAt u (u.reg .esp + 8#32)) (iretMask u))).popped 12 with
      eip := wordAt u (u.reg .esp) } := by
  obtain ⟨hvme, hpvi, htf⟩ := hadm
  simp only [wordAt_eq] at hvm hcs ⊢
  exact (returnFromException_next_iff u _).2 ⟨hvme, hpvi, htf, hnt, hfit, h0, h4, h8, hvm, hcs, rfl⟩

theorem getLsbD_maskUser32 {i : Nat} (hi : i < 32) : maskUser32.getLsbD i = decide (i ∈ userBits32) :=
  (by decide : ∀ i, i < 32 → maskUser32.getLsbD i = decide (i ∈ userBits32)) i hi

/-- The bits every pop loads are flags, and none is RF. -/
theorem userBits32_spec {k : Nat} (hk : k ∈ userBits32) :
    k < 32 ∧ k ≠ Flag.rf.pos ∧ eflagsFixed0.getLsbD k = false ∧ eflagsFixed1.getLsbD k = false :=
  (by decide : ∀ k ∈ userBits32,
    k < 32 ∧ k ≠ Flag.rf.pos ∧ eflagsFixed0.getLsbD k = false ∧ eflagsFixed1.getLsbD k = false) k hk

/-- IRETD loads RF and the user flags at every privilege level (R147). -/
theorem getLsbD_iretMask_of_mem (u : State) {k : Nat} (hk : k ∈ rfBit :: userBits32) : (iretMask u).getLsbD k = true := by
  unfold iretMask
  rw [BitVec.getLsbD_or, BitVec.getLsbD_or]
  rcases List.mem_cons.1 hk with rfl | hk
  · rw [show maskRf.getLsbD rfBit = true from rfl]
    simp
  · rw [getLsbD_maskUser32 (userBits32_spec hk).1, decide_eq_true hk]
    simp

/-- Settles O19: the frame holds the fault's address and image; IRETD loads RF and the user flags from that image. -/
theorem handlerReturnRestartsTheInstruction : Obligations.HandlerReturnRestartsTheInstruction := by
  intro i s u x code eip image hfault hvm hadm hnt hcs hfit h0 h4 h8 hframe0 hframe4 hframe8
  obtain ⟨rfl, -, himage, -⟩ := ((stopsAt_exec i s).raised _ hfault).image
  have hvm8 : ¬(getFlag (wordAt u (u.reg .esp + 8#32)) .vm = true ∧ u.cpl = 0#2) := by
    simp [hframe8, himage, hvm]
  refine ⟨_, exec_iretd_of_frame hadm hnt hfit h0 h4 h8 hvm8 (hframe4.trans hcs.symm), hframe0, ?_, fun k hk => ?_⟩
  · show getFlag (hardwireEflags (maskWrite u.eflags (wordAt u (u.reg .esp + 8#32)) (iretMask u))) .rf = true
    rw [getFlag_hardwireEflags, getFlag, getLsbD_maskWrite, getLsbD_iretMask_of_mem u (by decide), if_pos rfl, ← getFlag,
      hframe8, himage]
    simp
  · obtain ⟨hk32, hkrf, hfixed0, hfixed1⟩ := userBits32_spec hk
    show (hardwireEflags (maskWrite u.eflags (wordAt u (u.reg .esp + 8#32)) (iretMask u))).getLsbD k = s.eflags.getLsbD k
    rw [getLsbD_hardwireEflags _ _ hk32 hfixed0 hfixed1, getLsbD_maskWrite,
      getLsbD_iretMask_of_mem u (List.mem_cons_of_mem _ hk), if_pos rfl, hframe8, himage,
      getLsbD_hardwireEflags _ _ hk32 hfixed0 hfixed1, getLsbD_setFlag, if_neg hkrf]

end Sys2Proof.Machine
end

section
/-! SUPPORT. The two-operand instructions on admitted operands: the frame of a completed instruction, the three kinds of result
(a register, a memory operand, flags only), and from them the statements about ADD, SUB and CMP. -/

namespace Sys2Proof.Machine

/-! ### The flags an operation writes, and what else it keeps -/

@[simp] theorem aluFlags_regs (op : AluOp) (a b r : Word) (s : State) : (aluFlags op a b r s).regs = s.regs := by
  cases op <;> rfl
@[simp] theorem aluFlags_eip (op : AluOp) (a b r : Word) (s : State) : (aluFlags op a b r s).eip = s.eip := by
  cases op <;> rfl
@[simp] theorem aluFlags_fpu (op : AluOp) (a b r : Word) (s : State) : (aluFlags op a b r s).fpu = s.fpu := by
  cases op <;> rfl
@[simp] theorem aluFlags_mem (op : AluOp) (a b r : Word) (s : State) : (aluFlags op a b r s).mem = s.mem := by
  cases op <;> rfl

theorem sameSystem_aluFlags (op : AluOp) (a b r : Word) (s : State) : SameSystem s (aluFlags op a b r s) := by
  cases op <;> exact ⟨rfl, rfl, rfl, rfl, rfl, rfl, rfl⟩

/-- Every operation writes the six status flags only (R180). -/
theorem aluFlags_eflags (op : AluOp) (a b r : Word) (s : State) :
    ∃ e, (aluFlags op a b r s).eflags = hardwireEflags e ∧ ∀ i, i ∉ statusBits → e.getLsbD i = s.eflags.getLsbD i := by
  cases op with
  | add => exact ⟨_, rfl, flagsAdd_of_not_mem a b r _⟩
  | sub | cmp => exact ⟨_, rfl, flagsSub_of_not_mem a b r _⟩
  | or | and | xor | test => exact ⟨_, rfl, flagsLogic_of_not_mem r _ _⟩

/-! ### Frames of completed instructions -/

theorem SameSystem.trans {s t u : State} (h : SameSystem s t) (h' : SameSystem t u) : SameSystem s u := by
  obtain ⟨h1, h2, h3, h4, h5, h6, h7⟩ := h
  obtain ⟨h1', h2', h3', h4', h5', h6', h7'⟩ := h'
  exact ⟨h1'.trans h1, h2'.trans h2, h3'.trans h3, h4'.trans h4, h5'.trans h5, h6'.trans h6, h7'.trans h7⟩

/-- The frame of an instruction that wrote the flags `e`, whose bits outside the list are as before, and completed. -/
theorem frame_completeAt {s s1 : State} {regs : List Reg} {bits : List Nat} {a n : Nat} {e : Word} (target : Word)
    (he : s1.eflags = hardwireEflags e) (hbits : ∀ i, i ∉ bits → e.getLsbD i = s.eflags.getLsbD i)
    (hregs : SameRegs s s1 regs) (hsys : SameSystem s s1) (hfpu : s1.fpu = s.fpu) (hmem : SameMemory s s1 a n) :
    Frame s (completeAt target s1) regs bits a n := by
  obtain ⟨hflags, hrf⟩ :=
    sameFlags_of_written (s := s) (t := completeAt target s1) bits e (by rw [completeAt_eflags, he]) hbits
  exact ⟨hregs, hflags, hrf, hsys, hfpu, hmem⟩

/-- The frame of an instruction that wrote no flag and completed. -/
theorem frame_completeAt_of_eflags_eq {s s1 : State} {regs : List Reg} {a n : Nat} (target : Word)
    (he : s1.eflags = s.eflags) (hregs : SameRegs s s1 regs) (hsys : SameSystem s s1) (hfpu : s1.fpu = s.fpu)
    (hmem : SameMemory s s1 a n) : Frame s (completeAt target s1) regs [] a n := by
  obtain ⟨hflags, hrf⟩ := sameFlags_of_completed (s := s) (t := completeAt target s1) (by rw [completeAt_eflags, he])
  exact ⟨hregs, hflags, hrf, hsys, hfpu, hmem⟩

theorem frame_complete_aluFlags {op : AluOp} {u v r : Word} {s s0 : State} {n : Nat} {regs : List Reg} {a k : Nat}
    (he : s0.eflags = s.eflags) (hregs : SameRegs s s0 regs) (hsys : SameSystem s s0) (hfpu : s0.fpu = s.fpu)
    (hmem : SameMemory s s0 a k) : Frame s (complete n (aluFlags op u v r s0)) regs statusBits a k := by
  obtain ⟨e, hflags, hbits⟩ := aluFlags_eflags op u v r s0
  refine frame_completeAt _ hflags (fun i hi => by rw [hbits i hi, he]) (fun q hq => ?_)
    (hsys.trans (sameSystem_aluFlags op u v r s0)) ((aluFlags_fpu op u v r s0).trans hfpu) (fun x hx => ?_)
  · rw [State.reg, aluFlags_regs]
    exact hregs q hq
  · rw [aluFlags_mem]
    exact hmem x hx

theorem sameSystem_refl (s : State) : SameSystem s s := ⟨rfl, rfl, rfl, rfl, rfl, rfl, rfl⟩

theorem sameMemory_refl (s : State) (a n : Nat) : SameMemory s s a n := fun _ _ => rfl

/-! ### The three kinds of result -/

theorem rmRead_mem_of_readable {s : State} {m : Reg} (h : Readable s (s.reg m) 4) :
    rmRead s (.mem m) = .next (wordAt s (s.reg m)) := by
  rw [wordAt_eq]
  exact memRead32_of_readable h

/-- An instruction whose destination is a register and whose source can be read. -/
theorem registerResult_of_aluForm {i : Instr} {op : AluOp} {d : Reg} {src : Src} {n : Nat} {s : State} {b v : Word}
    {flags : State → Prop} (hi : aluForm i = some (op, .reg d, src, n)) (hw : aluWrites op = true)
    (hb : srcRead s src = .next b) (hv : aluResult op (s.reg d) b = v)
    (hflags : flags (complete n (aluFlags op (s.reg d) b v (s.setReg d v)))) :
    RegisterResult i n s d v statusBits flags := by
  subst hv
  have hexec : exec i s = .next (complete n (aluFlags op (s.reg d) b (aluResult op (s.reg d) b)
      (s.setReg d (aluResult op (s.reg d) b)))) :=
    (exec_of_aluForm s hi).trans ((execAlu_next_iff _ _ _ _ _ _).2 ⟨_, b, _, rfl, hb, if_pos hw, rfl⟩)
  refine ⟨_, hexec, ?_, hflags, by simp, frame_complete_aluFlags rfl (sameRegs_of_set d _ rfl) (sameSystem_refl s) rfl
    (sameMemory_refl s 0 0)⟩
  exact reg_of_set d _ (aluFlags_regs _ _ _ _ _)

/-- An instruction that writes no operand, when both its operands can be read. -/
theorem flagsResult_of_aluForm {i : Instr} {op : AluOp} {dst : Rm} {src : Src} {n : Nat} {s : State} {a b : Word}
    {flags : State → Prop} (hi : aluForm i = some (op, dst, src, n)) (hw : aluWrites op = false)
    (ha : rmRead s dst = .next a) (hb : srcRead s src = .next b)
    (hflags : flags (complete n (aluFlags op a b (aluResult op a b) s))) : FlagsResult i n s flags := by
  have hstore : aluStore op dst (aluResult op a b) s = .next s := if_neg (by rw [hw]; decide)
  have hexec : exec i s = .next (complete n (aluFlags op a b (aluResult op a b) s)) :=
    (exec_of_aluForm s hi).trans ((execAlu_next_iff _ _ _ _ _ _).2 ⟨a, b, s, ha, hb, hstore, rfl⟩)
  exact ⟨_, hexec, hflags, by simp, frame_complete_aluFlags rfl (sameRegs_of_eq rfl) (sameSystem_refl s) rfl
    (sameMemory_refl s 0 0)⟩

/-- An instruction whose destination is a memory operand that can be written. -/
theorem memoryResult_of_aluForm {i : Instr} {op : AluOp} {m : Reg} {src : Src} {n : Nat} {s : State} {b v : Word}
    {flags : State → Prop} (hi : aluForm i = some (op, .mem m, src, n)) (hw : aluWrites op = true)
    (hwf : Memory.wf s.mem = true) (hm : Writable s (s.reg m) 4) (hb : srcRead s src = .next b)
    (hv : aluResult op (wordAt s (s.reg m)) b = v)
    (hflags : flags (complete n (aluFlags op (wordAt s (s.reg m)) b v
      { s with mem := Memory.write32 s.mem (s.reg m).toNat v }))) :
    MemoryResult i n s (s.reg m) v statusBits flags := by
  subst hv
  have hstore : aluStore op (.mem m) (aluResult op (wordAt s (s.reg m)) b) s = .next
      { s with mem := Memory.write32 s.mem (s.reg m).toNat (aluResult op (wordAt s (s.reg m)) b) } :=
    (if_pos hw).trans (memWrite32_of_writable _ hm)
  have hexec := (exec_of_aluForm s hi).trans ((execAlu_next_iff _ _ _ _ _ _).2
    ⟨_, b, _, rmRead_mem_of_readable (readable_of_writable hm), hb, hstore, rfl⟩)
  refine ⟨_, hexec, ?_, hflags, by simp, frame_complete_aluFlags rfl (sameRegs_of_eq rfl)
    ⟨rfl, rfl, rfl, rfl, rfl, rfl, rfl⟩ rfl (sameMemory_of_write32 _ _ hwf rfl)⟩
  exact holds32_of_write32 _ _ hwf (by simp)

/-! ### ADD, SUB and CMP -/

theorem registerResult_add {i : Instr} {d : Reg} {src : Src} {n : Nat} {s : State} {b : Word}
    (hi : aluForm i = some (.add, .reg d, src, n)) (hb : srcRead s src = .next b) :
    RegisterResult i n s d (sumOf (s.reg d) b) statusBits fun t => AddFlags t (s.reg d) b (sumOf (s.reg d) b) :=
  registerResult_of_aluForm hi rfl hb (sumOf_eq _ _).symm (addFlags_of_eflags (by rw [sumOf_eq]; rfl))

theorem registerResult_sub {i : Instr} {d : Reg} {src : Src} {n : Nat} {s : State} {b : Word}
    (hi : aluForm i = some (.sub, .reg d, src, n)) (hb : srcRead s src = .next b) :
    RegisterResult i n s d (differenceOf (s.reg d) b) statusBits fun t =>
      SubFlags t (s.reg d) b (differenceOf (s.reg d) b) :=
  registerResult_of_aluForm hi rfl hb (differenceOf_eq _ _).symm (subFlags_of_eflags (by rw [differenceOf_eq]; rfl))

theorem flagsResult_cmp {i : Instr} {dst : Rm} {src : Src} {n : Nat} {s : State} {a b : Word}
    (hi : aluForm i = some (.cmp, dst, src, n)) (ha : rmRead s dst = .next a) (hb : srcRead s src = .next b) :
    FlagsResult i n s fun t => SubFlags t a b (differenceOf a b) :=
  flagsResult_of_aluForm hi rfl ha hb (subFlags_of_eflags rfl)

theorem memoryResult_add {i : Instr} {m : Reg} {src : Src} {n : Nat} {s : State} {b : Word}
    (hi : aluForm i = some (.add, .mem m, src, n)) (hwf : Memory.wf s.mem = true) (hm : Writable s (s.reg m) 4)
    (hb : srcRead s src = .next b) :
    MemoryResult i n s (s.reg m) (sumOf (wordAt s (s.reg m)) b) statusBits fun t =>
      AddFlags t (wordAt s (s.reg m)) b (sumOf (wordAt s (s.reg m)) b) :=
  memoryResult_of_aluForm hi rfl hwf hm hb (sumOf_eq _ _).symm (addFlags_of_eflags (by rw [sumOf_eq]; rfl))

theorem memoryResult_sub {i : Instr} {m : Reg} {src : Src} {n : Nat} {s : State} {b : Word}
    (hi : aluForm i = some (.sub, .mem m, src, n)) (hwf : Memory.wf s.mem = true) (hm : Writable s (s.reg m) 4)
    (hb : srcRead s src = .next b) :
    MemoryResult i n s (s.reg m) (differenceOf (wordAt s (s.reg m)) b) statusBits fun t =>
      SubFlags t (wordAt s (s.reg m)) b (differenceOf (wordAt s (s.reg m)) b) :=
  memoryResult_of_aluForm hi rfl hwf hm hb (differenceOf_eq _ _).symm
    (subFlags_of_eflags (by rw [differenceOf_eq]; rfl))

/-- Settles O20: each form is the addition of what its source reads. -/
theorem addToRegister : Obligations.AddToRegister := fun _ _ _ _ =>
  ⟨registerResult_add rfl rfl, registerResult_add rfl rfl, registerResult_add rfl rfl⟩

/-- Settles O21: each form is the subtraction of what its source reads. -/
theorem subtractFromRegister : Obligations.SubtractFromRegister := fun _ _ _ _ =>
  ⟨registerResult_sub rfl rfl, registerResult_sub rfl rfl, registerResult_sub rfl rfl⟩

/-- Settles O22: each form is a subtraction that writes no operand. -/
theorem compareRegisters : Obligations.CompareRegisters := fun _ _ _ _ =>
  ⟨flagsResult_cmp rfl rfl rfl, flagsResult_cmp rfl rfl rfl, flagsResult_cmp rfl rfl rfl⟩

/-- Settles O25: the register forms with the memory operand as source. -/
theorem arithmeticFromMemory : Obligations.ArithmeticFromMemory := fun _ _ _ hread =>
  have hsrc := rmRead_mem_of_readable hread
  ⟨registerResult_add rfl hsrc, registerResult_sub rfl hsrc, flagsResult_cmp rfl rfl hsrc⟩

/-- Settles O27: the forms with the memory operand as destination, which CMP only reads. -/
theorem arithmeticIntoMemory : Obligations.ArithmeticIntoMemory := fun _ _ _ =>
  ⟨fun hwf hwrite => ⟨memoryResult_add rfl hwf hwrite rfl, memoryResult_sub rfl hwf hwrite rfl⟩,
    fun hread => flagsResult_cmp rfl (rmRead_mem_of_readable hread) rfl⟩

end Sys2Proof.Machine
end

section
/-! SUPPORT. The flag-stack instructions on admitted operands: what a push leaves, which bits a pop loads, and from them the
statements about PUSHF, PUSHFD, POPF and POPFD. -/

namespace Sys2Proof.Machine

/-! ### Pushes -/

/-- The state after a 4-byte push: the value below the stack, ESP at it (R144, R186, R200). -/
def pushed32 (s : State) (v : Word) : State :=
  State.setReg { s with mem := Memory.write32 s.mem (s.reg .esp - 4#32).toNat v } .esp (s.reg .esp - 4#32)

/-- The state after a 2-byte push (R143). -/
def pushed16 (s : State) (v : Half) : State :=
  State.setReg { s with mem := Memory.write16 s.mem (s.reg .esp - 2#32).toNat v } .esp (s.reg .esp - 2#32)

theorem push32_eq_pushed32 {s : State} (v : Word) (h : Writable s (s.reg .esp - 4#32) 4) :
    push32 s v = .next (pushed32 s v) := push32_of_writable v h

theorem push16_eq_pushed16 {s : State} (v : Half) (h : Writable s (s.reg .esp - 2#32) 2) :
    push16 s v = .next (pushed16 s v) := push16_of_writable v h

/-- An instruction that pushed 4 bytes and completed: the value at the new ESP, and nothing else changed. -/
theorem completeAt_pushed32 {s : State} (target v : Word) (hwf : Memory.wf s.mem = true) :
    Holds32 (completeAt target (pushed32 s v)) (s.reg .esp - 4#32).toNat v ∧
      (completeAt target (pushed32 s v)).reg .esp = s.reg .esp - 4#32 ∧
      Frame s (completeAt target (pushed32 s v)) [.esp] [] (s.reg .esp - 4#32).toNat 4 :=
  ⟨holds32_of_write32 _ v hwf rfl, reg_of_set .esp _ rfl,
    frame_completeAt_of_eflags_eq target rfl (sameRegs_of_set .esp _ rfl) ⟨rfl, rfl, rfl, rfl, rfl, rfl, rfl⟩ rfl
      (sameMemory_of_write32 _ v hwf rfl)⟩

/-- An instruction that pushed 2 bytes and completed. -/
theorem completeAt_pushed16 {s : State} (target : Word) (v : Half) (hwf : Memory.wf s.mem = true) :
    Holds16 (completeAt target (pushed16 s v)) (s.reg .esp - 2#32).toNat v ∧
      (completeAt target (pushed16 s v)).reg .esp = s.reg .esp - 2#32 ∧
      Frame s (completeAt target (pushed16 s v)) [.esp] [] (s.reg .esp - 2#32).toNat 2 :=
  ⟨holds16_of_write16 _ v hwf rfl, reg_of_set .esp _ rfl,
    frame_completeAt_of_eflags_eq target rfl (sameRegs_of_set .esp _ rfl) ⟨rfl, rfl, rfl, rfl, rfl, rfl, rfl⟩ rfl
      (sameMemory_of_write16 _ v hwf rfl)⟩

theorem exec_pushf_of_writable {s : State} (hadm : FlagStackAdmitted s) (h : Writable s (s.reg .esp - 2#32) 2) :
    exec .pushf s = .next (complete 2 (pushed16 s (s.flagsImage.extractLsb' 0 16))) :=
  (execPushf_next_iff s _).2 ⟨hadm, _, push16_eq_pushed16 _ h, rfl⟩

theorem exec_pushfd_of_writable {s : State} (hadm : FlagStackAdmitted s) (h : Writable s (s.reg .esp - 4#32) 4) :
    exec .pushfd s = .next (complete 1 (pushed32 s (s.flagsImage &&& maskPushfd))) :=
  (execPushfd_next_iff s _).2 ⟨hadm, _, push32_eq_pushed32 _ h, rfl⟩

/-! ### The images pushed -/

theorem getLsbD_hardwireEflags_one (v : Word) : (hardwireEflags v).getLsbD 1 = true := by
  rw [hardwireEflags, BitVec.getLsbD_or, show eflagsFixed1.getLsbD 1 = true from rfl, Bool.or_true]

/-- The fixed bits of the 16-bit image (R15, R143). -/
theorem extractLsb'_hardwireEflags_and (v : Word) : (hardwireEflags v).extractLsb' 0 16 &&& 0x8028#16 = 0#16 := by
  have h := congrArg (BitVec.extractLsb' 0 16) (hardwireEflags_fixed0 v)
  rw [BitVec.extractLsb'_and] at h
  exact h

theorem getLsbD_pushfImage {e : Word} {k : Nat} (hk : k < 16) :
    ((hardwireEflags e).extractLsb' 0 16).getLsbD k = (hardwireEflags e).getLsbD k := by
  rw [BitVec.getLsbD_extractLsb', Nat.zero_add, decide_eq_true hk, Bool.true_and]

/-- The fixed bits of the 32-bit image, which PUSHFD's mask keeps (R15, R144). -/
theorem eflagsFixed_pushfdImage (e : Word) : EflagsFixed (hardwireEflags e &&& maskPushfd) := by
  have hcomm (f : Word) : hardwireEflags e &&& maskPushfd &&& f = (hardwireEflags e &&& f) &&& maskPushfd := by
    rw [BitVec.and_assoc, BitVec.and_comm maskPushfd, BitVec.and_assoc]
  constructor
  · rw [hcomm, hardwireEflags_fixed0, BitVec.zero_and]
  · rw [hcomm, hardwireEflags_fixed1]
    rfl

theorem getLsbD_pushfdImage (e : Word) {k : Nat} (hk : maskPushfd.getLsbD k = true) :
    (hardwireEflags e &&& maskPushfd).getLsbD k = (hardwireEflags e).getLsbD k := by
  rw [BitVec.getLsbD_and, hk, Bool.and_true]

/-- The bits of EFLAGS that an image delivers are the flags. -/
theorem getLsbD_hardwireEflags_of_mem (e : Word) {k : Nat}
    (hk : k ∈ [0, 2, 4, 6, 7, 8, 9, 10, 11, 12, 13, 14, 18, 19, 20, 21]) : (hardwireEflags e).getLsbD k = e.getLsbD k := by
  obtain ⟨hk32, hfixed0, hfixed1⟩ : k < 32 ∧ eflagsFixed0.getLsbD k = false ∧ eflagsFixed1.getLsbD k = false :=
    (by decide : ∀ k ∈ [0, 2, 4, 6, 7, 8, 9, 10, 11, 12, 13, 14, 18, 19, 20, 21],
      k < 32 ∧ eflagsFixed0.getLsbD k = false ∧ eflagsFixed1.getLsbD k = false) k hk
  exact getLsbD_hardwireEflags e k hk32 hfixed0 hfixed1

/-- Settles O43: the images are EFLAGS with its fixed bits, cut to 16 bits or masked. -/
theorem pushedFlagsHaveTheirFixedBits : Obligations.PushedFlagsHaveTheirFixedBits := by
  intro s hadm hwf
  refine ⟨fun hwrite => ?_, fun hwrite => ?_⟩
  · obtain ⟨hheld, hesp, hframe⟩ := completeAt_pushed16 (s.nextEip 2) (s.flagsImage.extractLsb' 0 16) hwf
    refine ⟨_, exec_pushf_of_writable hadm hwrite, ⟨_, hheld, extractLsb'_hardwireEflags_and _, ?_, fun k hk => ?_⟩, hesp,
      rfl, hframe⟩
    · exact (getLsbD_pushfImage (by decide)).trans (getLsbD_hardwireEflags_one _)
    · have hk16 : k < 16 := (by decide : ∀ k ∈ [0, 2, 4, 6, 7, 8, 9, 10, 11, 12, 13, 14], k < 16) k hk
      exact (getLsbD_pushfImage hk16).trans (getLsbD_hardwireEflags_of_mem _ (List.mem_append_left [18, 19, 20, 21] hk))
  · obtain ⟨hheld, hesp, hframe⟩ := completeAt_pushed32 (s.nextEip 1) (s.flagsImage &&& maskPushfd) hwf
    refine ⟨_, exec_pushfd_of_writable hadm hwrite, ⟨_, hheld, eflagsFixed_pushfdImage _, ?_, ?_, fun k hk => ?_⟩, hesp,
      rfl, hframe⟩
    · rw [BitVec.getLsbD_and, show maskPushfd.getLsbD 16 = false from rfl, Bool.and_false]
    · rw [BitVec.getLsbD_and, show maskPushfd.getLsbD 17 = false from rfl, Bool.and_false]
    · have hmask : maskPushfd.getLsbD k = true :=
        (by decide : ∀ k ∈ [0, 2, 4, 6, 7, 8, 9, 10, 11, 12, 13, 14, 18, 19, 20, 21], maskPushfd.getLsbD k = true) k hk
      exact (getLsbD_pushfdImage _ hmask).trans (getLsbD_hardwireEflags_of_mem _ hk)

/-! ### Pops -/

/-- EFLAGS after a masked write and the end of an instruction: the mask is the bits listed and the privileged part (R145, R146,
R149). -/
theorem poppedFlags_of_eflags {s t : State} {v mask : Word} {always : List Nat} (hrf : rfBit ∉ always)
    (hmask : ∀ i, i < 32 → mask.getLsbD i = decide (i ∈ always))
    (ht : t.eflags = hardwireEflags (setFlag .rf false
      (hardwireEflags (maskWrite s.eflags v (mask ||| maskPrivileged s.cpl s.iopl))))) :
    PoppedFlags s t v.toNat always := by
  refine ⟨ht ▸ eflagsFixed_hardwireEflags _, fun i hi h0 h1 => ?_⟩
  rw [ht, getLsbD_hardwireEflags _ _ hi h0 h1, getLsbD_setFlag, getLsbD_hardwireEflags _ _ hi h0 h1, getLsbD_maskWrite,
    BitVec.getLsbD_or, hmask i hi, getLsbD_maskPrivileged _ _ i hi, show v.toNat.testBit i = v.getLsbD i from rfl]
  by_cases hin : i ∈ always
  · have hne : i ≠ Flag.rf.pos := by rintro rfl; exact hrf hin
    simp [hin, hne]
  · by_cases hif : i = 9 ∧ s.cpl ≤ s.iopl
    · obtain ⟨rfl, hle⟩ := hif
      simp [hin, hle, Flag.pos]
    · by_cases hiopl : (i = 12 ∨ i = 13) ∧ s.cpl = 0#2
      · have hne : i ≠ Flag.rf.pos := by rintro rfl; simp [Flag.pos] at hiopl
        simp [hin, hiopl, hne]
      · simp only [hin, hif, hiopl, decide_false, Bool.or_self, Bool.false_eq_true, if_false, Flag.pos, rfBit]
        rfl

theorem getLsbD_maskUser16 {i : Nat} (hi : i < 32) :
    (maskUser16.zeroExtend 32).getLsbD i = decide (i ∈ userBits16) :=
  (by decide : ∀ i, i < 32 → (maskUser16.zeroExtend 32).getLsbD i = decide (i ∈ userBits16)) i hi

/-- The state after POPF's and POPFD's masked write of EFLAGS from the `n` bytes popped. -/
def flagsPopped (s : State) (v mask : Word) (n : Nat) : State :=
  (s.setEflags (maskWrite s.eflags v (mask ||| maskPrivileged s.cpl s.iopl))).popped n

theorem exec_popf_of_readable {s : State} (hadm : FlagStackAdmitted s) (h : Readable s (s.reg .esp) 2) :
    exec .popf s = .next (complete 2 (flagsPopped s ((Memory.read16 s.mem (s.reg .esp).toNat).zeroExtend 32)
      (maskUser16.zeroExtend 32) 2)) :=
  (execPopf_next_iff s _).2 ⟨hadm, h, rfl⟩

theorem exec_popfd_of_readable {s : State} (hadm : FlagStackAdmitted s) (h : Readable s (s.reg .esp) 4) :
    exec .popfd s = .next (complete 1 (flagsPopped s (wordAt s (s.reg .esp)) maskUser32 4)) := by
  rw [wordAt_eq]
  exact (execPopfd_next_iff s _).2 ⟨hadm, h, rfl⟩

/-- Outside EFLAGS a pop of `n` bytes changes ESP only. -/
theorem complete_flagsPopped (s : State) (v mask : Word) (k n : Nat) :
    (complete k (flagsPopped s v mask n)).reg .esp = s.reg .esp + BitVec.ofNat 32 n ∧
      SameRegs s (complete k (flagsPopped s v mask n)) [.esp] ∧
      (complete k (flagsPopped s v mask n)).eip = s.eip + BitVec.ofNat 32 k ∧
      SameSystem s (complete k (flagsPopped s v mask n)) ∧ (complete k (flagsPopped s v mask n)).fpu = s.fpu ∧
      SameMemory s (complete k (flagsPopped s v mask n)) 0 0 :=
  ⟨reg_of_set .esp _ rfl, sameRegs_of_set .esp _ rfl, rfl, ⟨rfl, rfl, rfl, rfl, rfl, rfl, rfl⟩, rfl, fun _ _ => rfl⟩

theorem poppedFlags_popfd (s : State) (v : Word) (k n : Nat) :
    PoppedFlags s (complete k (flagsPopped s v maskUser32 n)) v.toNat userBits32 :=
  poppedFlags_of_eflags (by decide) (fun _ hi => getLsbD_maskUser32 hi) rfl

/-- Settles O44: the two masks are the user bits and the privileged part. -/
theorem poppedFlagsObeyThePrivilegeLevel : Obligations.PoppedFlagsObeyThePrivilegeLevel := by
  intro s hadm
  refine ⟨fun hread => ⟨_, exec_popf_of_readable hadm hread, ?_, complete_flagsPopped s _ _ 2 2⟩,
    fun hread => ⟨_, exec_popfd_of_readable hadm hread, ?_, complete_flagsPopped s _ _ 1 4⟩⟩
  · rw [memValue_two, ← BitVec.toNat_setWidth_of_le (show 16 ≤ 32 by decide)]
    exact poppedFlags_of_eflags (by decide) (fun _ hi => getLsbD_maskUser16 hi) rfl
  · rw [memValue_four, ← wordAt_eq]
    exact poppedFlags_popfd s _ 1 4

/-! ### The identification flag -/

/-- After POPFD every user bit is that of the value popped (R146). -/
theorem getLsbD_eflags_popfd (s : State) (v : Word) {k : Nat} (hk : k ∈ userBits32) :
    (complete 1 (flagsPopped s v maskUser32 4)).eflags.getLsbD k = v.getLsbD k := by
  obtain ⟨hk32, -, hfixed0, hfixed1⟩ := userBits32_spec hk
  rw [(poppedFlags_popfd s v 1 4).2 k hk32 hfixed0 hfixed1, if_pos hk]
  rfl

/-- An aligned address that could be written can be written in a state with the same map. -/
theorem writable_of_aligned {s t : State} {a : Word} {n : Nat} (h : Writable s a n) (ha : a.toNat % n = 0)
    (hmap : t.map = s.map) : Writable t a n := by
  obtain ⟨⟨-, hfit⟩, hdata⟩ := h
  exact ⟨⟨fun _ => ha, hfit⟩, hmap ▸ hdata⟩

/-- Settles O48: POPFD loads bit 21, which PUSHFD's image delivers. -/
theorem identificationFlagCanBeToggled : Obligations.IdentificationFlagCanBeToggled := by
  intro s b hadm hwf hwrite halign htf hid
  have hpop := exec_popfd_of_readable hadm (readable_of_writable hwrite)
  have hbits := fun k => getLsbD_eflags_popfd s (wordAt s (s.reg .esp)) (k := k)
  obtain ⟨hesp, -⟩ := complete_flagsPopped s (wordAt s (s.reg .esp)) maskUser32 1 4
  have hcr4 : (complete 1 (flagsPopped s (wordAt s (s.reg .esp)) maskUser32 4)).cr4 = s.cr4 := rfl
  have hmem : (complete 1 (flagsPopped s (wordAt s (s.reg .esp)) maskUser32 4)).mem = s.mem := rfl
  have hmap : (complete 1 (flagsPopped s (wordAt s (s.reg .esp)) maskUser32 4)).map = s.map := rfl
  generalize complete 1 (flagsPopped s (wordAt s (s.reg .esp)) maskUser32 4) = t at *
  refine ⟨t, hpop, hesp, ?_⟩
  have hbelow : t.reg .esp - 4#32 = s.reg .esp := by rw [hesp]; exact BitVec.add_sub_cancel _ _
  have hadmt : FlagStackAdmitted t := ⟨hcr4 ▸ hadm.1, hcr4 ▸ hadm.2.1, (hbits 8 (by decide)).trans htf⟩
  have hpush := exec_pushfd_of_writable hadmt (by rw [hbelow]; exact writable_of_aligned hwrite halign hmap)
  refine ⟨_, hpush, (reg_of_set .esp _ rfl).trans hbelow, ?_⟩
  rw [wordAt_eq]
  show (Memory.read32 (Memory.write32 t.mem (t.reg .esp - 4#32).toNat _) _).getLsbD 21 = b
  rw [hbelow, Memory.read32_write32 _ _ (hmem ▸ hwf), State.flagsImage, getLsbD_pushfdImage _ rfl,
    getLsbD_hardwireEflags_of_mem _ (by decide), hbits 21 (by decide), hid]

end Sys2Proof.Machine
end

section
/-! SUPPORT. Control-register access, RDTSC and the model-specific registers: where each completes, faults or is refused, and what
it leaves unchanged. -/

namespace Sys2Proof.Machine

/-! ### Reading a control register -/

/-- The frame of a read of a control register: the six status flags are free (R160, R161, U12). -/
theorem frame_complete_scrambleStatus (s : State) (r : Reg) (v : Word) (n : Nat) :
    Frame s (complete n (scrambleStatus (s.setReg r v))) [r] statusBits 0 0 :=
  frame_completeAt _ rfl (setStatus_of_not_mem _ _ _ _ _ _ _) (sameRegs_of_set r v rfl)
    ⟨rfl, rfl, rfl, rfl, rfl, rfl, rfl⟩ rfl fun _ _ => rfl

theorem exec_movRegCr0_of_cpl0 {s : State} (r : Reg) (h : s.cpl = 0#2) :
    exec (.movRegCr0 r) s = .next (complete 3 (scrambleStatus (s.setReg r s.cr0Image))) := by
  show execMovRegCr0 r s = _
  rw [execMovRegCr0, requireCpl0_of h, andThen_next]

theorem exec_movRegCr4_of_cpl0 {s : State} (r : Reg) (h : s.cpl = 0#2) :
    exec (.movRegCr4 r) s = .next (complete 3 (scrambleStatus (s.setReg r (s.cr4 &&& ~~~cr4Reserved)))) := by
  show execMovRegCr4 r s = _
  rw [execMovRegCr4, requireCpl0_of h, andThen_next]

theorem getLsbD_cr4Reserved {k : Nat} (hk : k < 32) : cr4Reserved.getLsbD k = decide (7 ≤ k) :=
  (by decide : ∀ k, k < 32 → cr4Reserved.getLsbD k = decide (7 ≤ k)) k hk

/-- Settles O50: CR0 is read with ET set, CR4 with its reserved bits masked away. -/
theorem readControlRegisters : Obligations.ReadControlRegisters := by
  intro s r hcpl
  have hreg (v : Word) : (complete 3 (scrambleStatus (s.setReg r v))).reg r = v := reg_of_set r v rfl
  refine ⟨⟨_, exec_movRegCr0_of_cpl0 r hcpl, hreg _, trivial, rfl, frame_complete_scrambleStatus s r _ 3⟩,
    ⟨_, exec_movRegCr4_of_cpl0 r hcpl, ?_, fun k hk => ?_, rfl, frame_complete_scrambleStatus s r _ 3⟩⟩
  · rw [hreg, BitVec.and_assoc, BitVec.and_comm (~~~cr4Reserved), BitVec.and_not_self]
    exact BitVec.and_zero
  · have hk32 : k < 32 := by omega
    rw [hreg, BitVec.getLsbD_and, BitVec.getLsbD_not, getLsbD_cr4Reserved hk32]
    simp [hk32, hk]

/-! ### Writing CR4 -/

/-- Unchanged flags compose: what either step may change, both together may. -/
theorem SameFlags.trans {s t u : State} {bits bits' both : List Nat} (h : SameFlags s t bits) (h' : SameFlags t u bits')
    (hboth : ∀ i, i ∉ both → i ∉ bits ∧ i ∉ bits') : SameFlags s u both :=
  ⟨h'.1, fun i hi hn h0 h1 => (h'.2 i hi (hboth i hn).2 h0 h1).trans (h.2 i hi (hboth i hn).1 h0 h1)⟩

/-- A write of EFLAGS keeps the flags that the value written has as before. -/
theorem sameFlags_of_setEflags {s t : State} {v : Word} {bits : List Nat} (ht : t.eflags = hardwireEflags v)
    (hv : ∀ i, i ∉ bits → v.getLsbD i = s.eflags.getLsbD i) : SameFlags s t bits := by
  refine ⟨ht ▸ eflagsFixed_hardwireEflags v, fun i hi hn h0 h1 => ?_⟩
  rw [ht, getLsbD_hardwireEflags v i hi h0 h1, hv i hn]

/-- Forcing the virtual flags writes VIF and VIP only (R16, R17). -/
theorem forceVirtualFlags_of_not_mem (v e : Word) (i : Nat) (h : i ∉ [19, 20]) :
    (forceVirtualFlags v e).getLsbD i = e.getLsbD i := by
  simp only [List.mem_cons, not_or] at h
  unfold forceVirtualFlags
  split
  · simp [getLsbD_setFlag, Flag.pos, h]
  · rfl

theorem sameFlags_cr4Written (s : State) (v : Word) :
    SameFlags s (cr4Written s v) ([rfBit, 19, 20] ++ statusBits) ∧ getFlag (cr4Written s v).eflags .rf = false := by
  have hforced : SameFlags s (State.setEflags { s with cr4 := v } (forceVirtualFlags v s.eflags)) [19, 20] :=
    sameFlags_of_setEflags rfl (forceVirtualFlags_of_not_mem v s.eflags)
  obtain ⟨hcompleted, hrf⟩ := sameFlags_of_written
    (s := State.setEflags { s with cr4 := v } (forceVirtualFlags v s.eflags)) (t := cr4Written s v) statusBits _ rfl
    (setStatus_of_not_mem _ _ _ _ _ _ _)
  refine ⟨hforced.trans hcompleted fun i hi => ?_, hrf⟩
  simp only [List.mem_append, List.mem_cons, not_or] at hi ⊢
  tauto

/-- Settles O51: CR4 is written, the virtual flags are forced when both their enables are, the status flags are free. -/
theorem writeControlRegisterFour : Obligations.WriteControlRegisterFour := by
  intro s r hcpl hres
  obtain ⟨hflags, hrf⟩ := sameFlags_cr4Written s (s.reg r)
  refine ⟨cr4Written s (s.reg r), (execMovCr4Reg_next_iff r s _).2 ⟨hcpl, hres, rfl⟩, rfl, fun hoff => ?_,
    fun hon => ?_, rfl, fun _ _ => rfl, hflags, hrf, ⟨rfl, rfl, rfl, rfl, rfl, rfl, rfl⟩, rfl, fun _ _ => rfl⟩
  · constructor <;> rw [getFlag_cr4Written s _ (by decide), if_pos ⟨hoff, by decide⟩]
  · have henabled : ¬(cr4Vme (s.reg r) = false ∧ cr4Pvi (s.reg r) = false) := by
      rintro ⟨hvme, hpvi⟩
      rcases hon with hon | hon
      · exact Bool.false_ne_true (hvme.symm.trans hon)
      · exact Bool.false_ne_true (hpvi.symm.trans hon)
    constructor <;> rw [getFlag_cr4Written s _ (by decide), if_neg fun h => henabled h.1]

/-- Settles O52: outside CPL 0 the instruction is privileged, at CPL 0 its reserved-bit test fails. -/
theorem reservedBitOfControlRegisterFourFaults : Obligations.ReservedBitOfControlRegisterFourFaults := by
  intro s r k hk hbit
  have hk32 : k < 32 := BitVec.lt_of_getLsbD hbit
  have hres : s.reg r &&& cr4Reserved ≠ 0#32 := by
    intro hzero
    have hset : (s.reg r &&& cr4Reserved).getLsbD k = true := by
      rw [BitVec.getLsbD_and, hbit, getLsbD_cr4Reserved hk32, decide_eq_true hk, Bool.and_self]
    rw [hzero, BitVec.getLsbD_zero] at hset
    cases hset
  refine ⟨exceptionImage .generalProtection s, ?_⟩
  show execMovCr4Reg r s = raise .generalProtection s
  unfold execMovCr4Reg requireCpl0
  split
  · rw [andThen_next]
    exact if_pos hres
  · rfl

/-! ### RDTSC -/

theorem exec_rdtsc_of_admitted {s : State} (h : ¬(cr4Tsd s.cr4 = true ∧ s.cpl ≠ 0#2)) :
    exec .rdtsc s = .next (complete 2 (deliver64 s.draw64 s)) :=
  (execRdtsc_next_iff s _).2 ⟨h, rfl⟩

/-- Settles O53: RDTSC's one test is TSD with the privilege level. -/
theorem timeStampDisable : Obligations.TimeStampDisable := by
  refine fun s => ⟨fun htsd hcpl => ?_, fun htsd => ?_⟩
  · have hexec : exec .rdtsc s = raise .generalProtection s := if_pos ⟨htsd, hcpl⟩
    exact ⟨_, hexec⟩
  · exact ⟨_, exec_rdtsc_of_admitted fun h => Bool.false_ne_true (htsd.symm.trans h.1), trivial⟩

/-- Settles O6: CR4 is 0 after reset, so TSD is, whatever the selector. -/
theorem controlRegisterFourAfterReset : Obligations.ControlRegisterFourAfterReset :=
  ⟨rfl, rfl, rfl, fun sel => (timeStampDisable { State.reset with csSel := sel }).2 BitVec.getLsbD_zero⟩

/-! ### Model-specific registers -/

theorem exec_rdmsr_of_defined {s : State} (hcpl : s.cpl = 0#2) (h : msrDefined (s.reg .ecx) = true) :
    exec .rdmsr s = .next (complete 2 (deliver64 s.draw64 s)) :=
  (execRdmsr_next_iff s _).2 ⟨hcpl, h, rfl⟩

/-- The 18 indices of Table 1 are those below 14H but 03H and 0FH (R39, R172). -/
theorem msrDefined_iff (i : Word) : msrDefined i = true ↔ i.toNat < 0x14 ∧ i.toNat ≠ 0x03 ∧ i.toNat ≠ 0x0F := by
  have hne (v : Word) : i ≠ v ↔ i.toNat ≠ v.toNat := not_congr BitVec.toNat_inj.symm
  simp only [msrDefined, Bool.and_eq_true, decide_eq_true_eq, hne, BitVec.toNat_ofNat]
  omega

/-- A 64-bit value delivered and the instruction completed: EDX:EAX is the value, one free value is used, and nothing else
changes (R165, R170). -/
theorem complete_deliver64 (n : Nat) (v : BitVec 64) (s : State) :
    (complete n (deliver64 v s)).reg .edx ++ (complete n (deliver64 v s)).reg .eax = v ∧
      s.draws < (complete n (deliver64 v s)).draws ∧ (complete n (deliver64 v s)).eip = s.eip + BitVec.ofNat 32 n ∧
      Frame s (complete n (deliver64 v s)) [.eax, .edx] [] 0 0 := by
  refine ⟨?_, Nat.lt_succ_self _, rfl, frame_completeAt_of_eflags_eq _ rfl (fun r hr => ?_)
    ⟨rfl, rfl, rfl, rfl, rfl, rfl, rfl⟩ rfl fun _ _ => rfl⟩
  · show v.extractLsb' 32 32 ++ v.extractLsb' 0 32 = v
    exact BitVec.extractLsb'_append_extractLsb'
  · simp only [List.mem_cons, List.not_mem_nil, or_false, not_or] at hr
    simp [deliver64, hr]

/-- Settles O55: a defined index is read as a free value. -/
theorem readModelSpecificRegister : Obligations.ReadModelSpecificRegister := by
  intro s hcpl hmem
  have hdef : msrDefined (s.reg .ecx) = true := by
    rw [msrDefined_iff]
    simp only [List.mem_cons, List.not_mem_nil, or_false] at hmem
    omega
  exact ⟨_, exec_rdmsr_of_defined hcpl hdef, complete_deliver64 2 s.draw64 s⟩

/-- Settles O56: the tests of RDMSR and WRMSR on the index, in their order. -/
theorem modelSpecificRegisterRefusals : Obligations.ModelSpecificRegisterRefusals := by
  intro s hcpl
  refine ⟨fun hundef => ?_, fun hlt h3 hF h10 => ?_⟩
  · have hdef : ¬msrDefined (s.reg .ecx) = true := by
      rw [msrDefined_iff]
      omega
    constructor
    · show execRdmsr s = refuse .reservedOrAbsentMsr s
      rw [execRdmsr, requireCpl0_of hcpl, andThen_next, if_neg hdef]
    · show execWrmsr s = refuse .reservedOrAbsentMsr s
      rw [execWrmsr, requireCpl0_of hcpl, andThen_next, if_neg hdef]
  · have hdef : msrDefined (s.reg .ecx) = true := (msrDefined_iff _).2 ⟨hlt, h3, hF⟩
    have htsc : s.reg .ecx ≠ msrTsc := fun h => h10 (by rw [h]; rfl)
    show execWrmsr s = refuse .msrWriteNotAdmitted s
    rw [execWrmsr, requireCpl0_of hcpl, andThen_next, if_pos hdef, if_neg htsc]

end Sys2Proof.Machine
end

section
/-! SUPPORT. FXCH: the registers that TOP names, the tags in the tag word, and the exchange. -/

namespace Sys2Proof.Machine

/-! ### Registers and tags -/

/-- The physical register of `ST(i)` is counted from TOP modulo 8 (R47). -/
theorem val_physReg (s : State) (i : Fin 8) : (physReg s.fpu.fsw i).val = stackIndexOf s i.val := by
  simp only [physReg, fswTop, stackIndexOf, Fin.ofNat, BitVec.extractLsb'_toNat, Nat.shiftRight_eq_div_pow]

theorem physReg_eq_of_val {s : State} {i p : Fin 8} (h : p.val = stackIndexOf s i.val) : physReg s.fpu.fsw i = p :=
  Fin.ext ((val_physReg s i).trans h.symm)

/-- The tag of a register as a number (R47; log 41). -/
theorem toNat_tagOf (ftw : Half) (p : Fin 8) : (tagOf ftw p).toNat = tagValue ftw p.val := by
  rw [tagOf, tagValue, BitVec.extractLsb'_toNat, Nat.shiftRight_eq_div_pow, Nat.pow_mul]

theorem tagOf_eq_tagEmpty_iff (ftw : Half) (p : Fin 8) : tagOf ftw p = tagEmpty ↔ tagValue ftw p.val = 3 := by
  rw [← toNat_tagOf, ← BitVec.toNat_inj]
  rfl

/-- A tag written is read back, and the tags of the other registers are kept. -/
theorem tagOf_setTag (ftw : Half) (p r : Fin 8) (t : BitVec 2) :
    tagOf (setTag ftw p t) r = if r = p then t else tagOf ftw r := by
  have hlow : 2 * p.val < 16 := by omega
  have hhigh : 2 * p.val + 1 < 16 := by omega
  apply BitVec.eq_of_getLsbD_eq
  intro k hk
  have hbit : (tagOf (setTag ftw p t) r).getLsbD k =
      if 2 * r.val + k = 2 * p.val + 1 then t.getLsbD 1
      else if 2 * r.val + k = 2 * p.val then t.getLsbD 0 else ftw.getLsbD (2 * r.val + k) := by
    rw [tagOf, BitVec.getLsbD_extractLsb', decide_eq_true hk, Bool.true_and, setTag, getLsbD_setBit _ _ _ _ hhigh,
      getLsbD_setBit _ _ _ _ hlow]
  rw [hbit]
  by_cases hrp : r = p
  · subst hrp
    obtain rfl | rfl : k = 0 ∨ k = 1 := by omega
    · simp
    · simp
  · have hval : r.val ≠ p.val := fun h => hrp (Fin.ext h)
    rw [if_neg (by omega), if_neg (by omega), if_neg hrp, tagOf, BitVec.getLsbD_extractLsb', decide_eq_true hk,
      Bool.true_and]

/-! ### The exchange -/

/-- The tags after the exchange (R131). -/
theorem tagOf_exchangeFp (p q r : Fin 8) (f : Fpu) :
    tagOf (exchangeFp p q f).ftw r = if r = q then tagOf f.ftw p else if r = p then tagOf f.ftw q else tagOf f.ftw r := by
  rw [exchangeFp, tagOf_setTag, tagOf_setTag]

theorem tagValue_exchangeFp (p q r : Fin 8) (f : Fpu) :
    tagValue (exchangeFp p q f).ftw r.val =
      if r = q then tagValue f.ftw p.val else if r = p then tagValue f.ftw q.val else tagValue f.ftw r.val := by
  simp only [← toNat_tagOf, tagOf_exchangeFp, apply_ite BitVec.toNat]

/-- The contents after the exchange (R131). -/
theorem fpr_exchangeFp (p q r : Fin 8) (f : Fpu) :
    (exchangeFp p q f).fpr[r.val] = if r = q then f.fpr[p.val] else if r = p then f.fpr[q.val] else f.fpr[r.val] := by
  simp only [exchangeFp, Vector.getElem_set, Fin.val_inj, eq_comm (a := q), eq_comm (a := p)]

/-- What the exchange leaves at its first register. -/
theorem exchangeFp_left (p q : Fin 8) (f : Fpu) :
    (exchangeFp p q f).fpr[p.val] = f.fpr[q.val] ∧ tagValue (exchangeFp p q f).ftw p.val = tagValue f.ftw q.val := by
  rw [fpr_exchangeFp, tagValue_exchangeFp]
  by_cases hpq : p = q
  · subst hpq
    simp
  · simp [hpq]

/-- The condition codes replaced are bits 8, 10 and 14; bit 9 is cleared (R131, U8). -/
theorem getLsbD_setConditionCodes (c0 c2 c3 : Bool) (fsw : Half) (k : Nat) :
    (setConditionCodes c0 c2 c3 fsw).getLsbD k =
      if k = 14 then c3 else if k = 10 then c2 else if k = 8 then c0 else if k = 9 then false else fsw.getLsbD k := by
  rw [setConditionCodes, getLsbD_setBit _ _ _ _ (by decide), getLsbD_setBit _ _ _ _ (by decide),
    getLsbD_setBit _ _ _ _ (by decide), getLsbD_setBit _ _ _ _ (by decide)]

/-- The floating-point state after FXCH: the exchange with the condition codes scrambled. -/
theorem fpu_fxch (p q : Fin 8) (s : State) :
    (complete 2 (scrambleConditionCodes { s with fpu := exchangeFp p q s.fpu })).fpu =
      { exchangeFp p q s.fpu with fsw := setConditionCodes (s.draw1 0) (s.draw1 1) (s.draw1 2) s.fpu.fsw } := rfl

/-- Settles O59: TOP names the two registers, and the exchange swaps their contents and tags. -/
theorem fxchExchangesContentsAndTags : Obligations.FxchExchangesContentsAndTags := by
  intro s i p q hem hts hes hp hq htagp htagq
  have hphysp : physReg s.fpu.fsw 0 = p := physReg_eq_of_val hp
  have hphysq : physReg s.fpu.fsw i = q := physReg_eq_of_val hq
  have hexec : exec (.fxch i) s = .next (complete 2 (scrambleConditionCodes { s with fpu := exchangeFp p q s.fpu })) := by
    refine (execFxch_next_iff i s _).2 ⟨⟨hem, hts⟩, hes, ?_, ?_, by rw [hphysp, hphysq]⟩
    · rwa [hphysp, ne_eq, tagOf_eq_tagEmpty_iff]
    · rwa [hphysq, ne_eq, tagOf_eq_tagEmpty_iff]
  obtain ⟨hfprp, htagp'⟩ := exchangeFp_left p q s.fpu
  obtain ⟨hflags, hrf⟩ := sameFlags_of_completed (s := s)
    (t := complete 2 (scrambleConditionCodes { s with fpu := exchangeFp p q s.fpu })) rfl
  refine ⟨_, hexec, hfprp, ?_, htagp', ?_, fun r hrp hrq => ⟨?_, ?_⟩, rfl, ?_, fun k hk => ?_, rfl, fun _ _ => rfl, hflags,
    hrf, ⟨rfl, rfl, rfl, rfl, rfl, rfl, rfl⟩, fun _ _ => rfl⟩
  · exact (fpr_exchangeFp p q q s.fpu).trans (if_pos rfl)
  · exact (tagValue_exchangeFp p q q s.fpu).trans (if_pos rfl)
  · exact (fpr_exchangeFp p q r s.fpu).trans ((if_neg hrq).trans (if_neg hrp))
  · exact (tagValue_exchangeFp p q r s.fpu).trans ((if_neg hrq).trans (if_neg hrp))
  · rw [fpu_fxch, getLsbD_setConditionCodes]
    rfl
  · simp only [List.mem_cons, List.not_mem_nil, or_false, not_or] at hk
    obtain ⟨h8, h9, h10, h14⟩ := hk
    rw [fpu_fxch, getLsbD_setConditionCodes, if_neg h14, if_neg h10, if_neg h8, if_neg h9]

/-- Settles O60: FXCH's three tests, in their order. -/
theorem fxchStops : Obligations.FxchStops := by
  intro s i p q hp hq
  have hexec : exec (.fxch i) s = execFxch i s := rfl
  unfold Faults Refuses
  rw [hexec, execFxch]
  split
  · next hdevice => exact ⟨_, if_pos hdevice⟩
  next hdevice =>
  split
  · next hes => exact (if_neg hdevice).trans (if_pos hes)
  next hes =>
  intro hempty
  refine (if_neg hdevice).trans ((if_neg hes).trans (if_pos ?_))
  rwa [physReg_eq_of_val hp, physReg_eq_of_val hq, tagOf_eq_tagEmpty_iff, tagOf_eq_tagEmpty_iff]

end Sys2Proof.Machine
end

section
/-! SUPPORT. What a step takes at the instruction boundary instead of an instruction: INIT and FLUSH#. -/

namespace Sys2Proof.Machine

/-- What the boundary takes is the whole step (R231 to R234). -/
theorem step_of_boundaryEvent {s : State} {r : Res State} (h : boundaryEvent s = some r) : step s = r := by
  rw [step, h]

theorem boundaryEvent_of_init {s : State} (h : s.inputs = { flush := 0, init := true, smi := false, rs := false }) :
    boundaryEvent s = some (.next (initialise s)) := by
  simp [boundaryEvent, h]

theorem boundaryEvent_of_flush {s : State} (hflush : 0 < s.inputs.flush) (hsmi : s.inputs.smi = false)
    (hrs : s.inputs.rs = false) : boundaryEvent s = some (.next (recogniseFlush s)) := by
  simp [boundaryEvent, hsmi, hrs, Nat.ne_of_gt hflush]

/-- Settles O13: the step is INIT, which takes all but the floating-point state and memory from reset. -/
theorem initResetsAllButFloatingPoint : Obligations.InitResetsAllButFloatingPoint := fun _ h =>
  ⟨_, step_of_boundaryEvent (boundaryEvent_of_init h), rfl, rfl, rfl, rfl, rfl, rfl, fun _ => rfl, rfl, rfl, rfl,
    fun _ => rfl⟩

/-- Settles O14: the step takes one request off the count, which no register or byte of memory shows. -/
theorem flushIsTakenOnceAndInvisible : Obligations.FlushIsTakenOnceAndInvisible :=
  ⟨fun s before after => flushPin_eq before after s, fun _ hflush hsmi hrs =>
    ⟨_, step_of_boundaryEvent (boundaryEvent_of_flush hflush hsmi hrs), Nat.sub_add_cancel hflush, rfl, rfl, rfl, rfl, rfl,
      rfl, rfl, rfl, fun _ => rfl⟩⟩

end Sys2Proof.Machine
end

section
/-! SUPPORT. OR, AND, XOR and TEST on admitted operands: the flags that the four share, and with them the three kinds of
result. -/

namespace Sys2Proof.Machine

/-- The operations whose flags are `FlagsLogic` (R180). -/
def logicOps : List AluOp := [.or, .and, .xor, .test]

theorem aluFlags_of_logicOps {op : AluOp} (hop : op ∈ logicOps) (a b r : Word) (s : State) :
    aluFlags op a b r s = setLogicFlags r s := by
  cases op with
  | or | and | xor | test => rfl
  | add | sub | cmp => exact absurd hop (by decide)

theorem logicFlags_complete_aluFlags {op : AluOp} (hop : op ∈ logicOps) (n : Nat) (a b r : Word) (s : State) :
    LogicFlags (complete n (aluFlags op a b r s)) r := by
  rw [aluFlags_of_logicOps hop]
  exact logicFlags_of_eflags rfl

theorem registerResult_logic {i : Instr} {op : AluOp} {d : Reg} {src : Src} {n : Nat} {s : State} {b : Word}
    (hi : aluForm i = some (op, .reg d, src, n)) (hop : op ∈ logicOps) (hw : aluWrites op = true)
    (hb : srcRead s src = .next b) :
    RegisterResult i n s d (aluResult op (s.reg d) b) statusBits fun t => LogicFlags t (aluResult op (s.reg d) b) :=
  registerResult_of_aluForm hi hw hb rfl (logicFlags_complete_aluFlags hop n _ _ _ _)

theorem flagsResult_test {i : Instr} {dst : Rm} {src : Src} {n : Nat} {s : State} {a b : Word}
    (hi : aluForm i = some (.test, dst, src, n)) (ha : rmRead s dst = .next a) (hb : srcRead s src = .next b) :
    FlagsResult i n s fun t => LogicFlags t (a &&& b) :=
  flagsResult_of_aluForm hi rfl ha hb (logicFlags_complete_aluFlags (by decide) n _ _ _ _)

theorem memoryResult_logic {i : Instr} {op : AluOp} {m : Reg} {src : Src} {n : Nat} {s : State} {b : Word}
    (hi : aluForm i = some (op, .mem m, src, n)) (hop : op ∈ logicOps) (hw : aluWrites op = true)
    (hwf : Memory.wf s.mem = true) (hm : Writable s (s.reg m) 4) (hb : srcRead s src = .next b) :
    MemoryResult i n s (s.reg m) (aluResult op (wordAt s (s.reg m)) b) statusBits fun t =>
      LogicFlags t (aluResult op (wordAt s (s.reg m)) b) :=
  memoryResult_of_aluForm hi hw hwf hm hb rfl (logicFlags_complete_aluFlags hop n _ _ _ _)

/-- Settles O24: TEST is the AND that writes no operand, of two registers or of memory and a register. -/
theorem testWritesFlagsOnly : Obligations.TestWritesFlagsOnly := fun _ _ _ _ =>
  ⟨flagsResult_test rfl rfl rfl, fun hread => flagsResult_test rfl (rmRead_mem_of_readable hread) rfl⟩

/-- Settles O26: the register forms with the memory operand as source. -/
theorem logicFromMemory : Obligations.LogicFromMemory := by
  intro s d m hread
  have hsrc : srcRead s (.rm (.mem m)) = .next (wordAt s (s.reg m)) := rmRead_mem_of_readable hread
  simp only [List.forall_mem_cons]
  exact ⟨registerResult_logic (op := .or) rfl (by decide) rfl hsrc,
    registerResult_logic (op := .and) rfl (by decide) rfl hsrc,
    registerResult_logic (op := .xor) rfl (by decide) rfl hsrc, List.forall_mem_nil _⟩

/-- Settles O28: the forms with the memory operand as destination. -/
theorem logicIntoMemory : Obligations.LogicIntoMemory := by
  intro s m q hwf hwrite
  simp only [List.forall_mem_cons]
  exact ⟨memoryResult_logic (op := .or) rfl (by decide) rfl hwf hwrite rfl,
    memoryResult_logic (op := .and) rfl (by decide) rfl hwf hwrite rfl,
    memoryResult_logic (op := .xor) rfl (by decide) rfl hwf hwrite rfl, List.forall_mem_nil _⟩

end Sys2Proof.Machine
end

section
/-! SUPPORT. MOV and the stack on admitted operands, and the round trips: what a store or a push leaves behind can be read
back. -/

namespace Sys2Proof.Machine

/-! ### MOV -/

/-- A MOV whose destination is a register and whose source can be read (R183, R185). -/
theorem registerResult_of_moveForm {i : Instr} {d : Reg} {src : Src} {n : Nat} {s : State} {v : Word}
    (hi : moveForm i = some (.reg d, src, n)) (hv : srcRead s src = .next v) :
    RegisterResult i n s d v [] fun _ => True := by
  have hexec : exec i s = .next (complete n (s.setReg d v)) :=
    (exec_of_moveForm s hi).trans ((execMove_next_iff _ _ _ _ _).2 ⟨v, _, hv, rfl, rfl⟩)
  exact ⟨_, hexec, reg_of_set d v rfl, trivial, rfl,
    frame_completeAt_of_eflags_eq _ rfl (sameRegs_of_set d v rfl) (sameSystem_refl s) rfl (sameMemory_refl s 0 0)⟩

/-- A MOV whose destination is a memory operand that can be written (R184). -/
theorem memoryResult_of_moveForm {i : Instr} {m : Reg} {src : Src} {n : Nat} {s : State} {v : Word}
    (hi : moveForm i = some (.mem m, src, n)) (hwf : Memory.wf s.mem = true) (hm : Writable s (s.reg m) 4)
    (hv : srcRead s src = .next v) : MemoryResult i n s (s.reg m) v [] fun _ => True := by
  have hexec : exec i s = .next (complete n { s with mem := Memory.write32 s.mem (s.reg m).toNat v }) :=
    (exec_of_moveForm s hi).trans ((execMove_next_iff _ _ _ _ _).2 ⟨v, _, hv, memWrite32_of_writable v hm, rfl⟩)
  exact ⟨_, hexec, holds32_of_write32 _ v hwf rfl, trivial, rfl,
    frame_completeAt_of_eflags_eq _ rfl (sameRegs_of_eq rfl) ⟨rfl, rfl, rfl, rfl, rfl, rfl, rfl⟩ rfl
      (sameMemory_of_write32 _ v hwf rfl)⟩

/-- Settles O31: the load is a register result, the store a memory result. -/
theorem moveFromAndToMemory : Obligations.MoveFromAndToMemory := fun _ _ _ =>
  ⟨fun hread => registerResult_of_moveForm rfl (rmRead_mem_of_readable hread),
    fun hwf hwrite => memoryResult_of_moveForm rfl hwf hwrite rfl⟩

/-! ### Reading back -/

/-- Four bytes that hold a value read as that value (R62). -/
theorem wordAt_of_holds32 {t : State} {a v : Word} (h : Holds32 t a.toNat v) : wordAt t a = v := by
  have hbyte (k : Nat) (hk : k < 4) : Memory.readByte t.mem (a.toNat + k) = byteOf v k := h k hk
  rw [wordAt_eq, Memory.read32, hbyte 1 (by decide), hbyte 2 (by decide), hbyte 3 (by decide),
    show Memory.readByte t.mem a.toNat = byteOf v 0 from hbyte 0 (by decide), le32_byteOf]

/-- An instruction that keeps AC keeps what can be read (R65, R66). -/
theorem Frame.readable {s t : State} {regs : List Reg} {bits : List Nat} {a n : Nat} (h : Frame s t regs bits a n)
    (hac : 18 ∉ bits) {x : Word} {k : Nat} (hread : Readable s x k) : Readable t x k := by
  obtain ⟨-, ⟨-, hflags⟩, -, ⟨hcr0, -, hcs, -, hmap, -⟩, -⟩ := h
  refine readable_congr hread hcr0 hcs hmap (hflags 18 (by decide) ?_ (by decide) (by decide))
  exact List.not_mem_cons_of_ne_of_not_mem (by decide) hac

/-- Settles O32: after the store the base register is the same, its four bytes can be read, and they hold the value. -/
theorem loadAfterStoreGivesTheValue : Obligations.LoadAfterStoreGivesTheValue := by
  intro s m q d hwf hwrite
  obtain ⟨t, hstore, hheld, -, -, hframe⟩ := (moveFromAndToMemory s q m).2 hwf hwrite
  have hbase : t.reg m = s.reg m := hframe.1 m List.not_mem_nil
  have hread : Readable t (t.reg m) 4 := hbase ▸ hframe.readable List.not_mem_nil (readable_of_writable hwrite)
  obtain ⟨u, hload, hvalue, -⟩ := (moveFromAndToMemory t d m).1 hread
  exact ⟨t, hstore, u, hload, hvalue.trans (by rw [hbase, wordAt_of_holds32 hheld])⟩

/-! ### PUSH and POP, CALL and RET -/

theorem exec_pushReg_of_writable {s : State} (r : Reg) (h : Writable s (s.reg .esp - 4#32) 4) :
    exec (.pushReg r) s = .next (complete 1 (pushed32 s (s.reg r))) :=
  (andThen_next_iff _ _ _).2 ⟨_, push32_eq_pushed32 _ h, rfl⟩

theorem exec_callRel32_of_writable {s : State} (rel : Word) (h : Writable s (s.reg .esp - 4#32) 4) :
    exec (.callRel32 rel) s = .next (completeAt (s.eip + 5#32 + rel) (pushed32 s (s.eip + 5#32))) :=
  (andThen_next_iff _ _ _).2 ⟨_, push32_eq_pushed32 _ h, rfl⟩

theorem exec_popReg_of_readable {s : State} (r : Reg) (h : Readable s (s.reg .esp) 4) :
    exec (.popReg r) s = .next (complete 1 ((s.popped 4).setReg r (wordAt s (s.reg .esp)))) :=
  (andThen_next_iff _ _ _).2 ⟨_, rmRead_mem_of_readable h, rfl⟩

theorem exec_ret_of_readable {s : State} (h : Readable s (s.reg .esp) 4) :
    exec .ret s = .next (completeAt (wordAt s (s.reg .esp)) (s.popped 4)) :=
  (andThen_next_iff _ _ _).2 ⟨_, rmRead_mem_of_readable h, rfl⟩

theorem sameRegs_popped (s : State) (n : Nat) : SameRegs s (s.popped n) [.esp] := sameRegs_of_set .esp _ rfl

theorem SameRegs.setReg {s t : State} {regs : List Reg} (h : SameRegs s t regs) (r : Reg) (v : Word) :
    SameRegs s (t.setReg r v) (r :: regs) := by
  intro q hq
  rw [List.mem_cons, not_or] at hq
  rw [State.reg_setReg, if_neg hq.1, h q hq.2]

/-- Settles O33: a push is the shared one; a pop writes its register after ESP. -/
theorem pushAndPop : Obligations.PushAndPop := by
  intro s r
  refine ⟨fun hwf hwrite => ?_, fun hread => ?_⟩
  · obtain ⟨hheld, hesp, hframe⟩ := completeAt_pushed32 (s.nextEip 1) (s.reg r) hwf
    exact ⟨_, exec_pushReg_of_writable r hwrite, hheld, hesp, rfl, hframe⟩
  · refine ⟨_, exec_popReg_of_readable r hread, reg_of_set r _ rfl, fun hr => ?_, rfl, ?_⟩
    · rw [reg_complete, State.reg_setReg, if_neg hr.symm, State.reg_popped, if_pos rfl]
    · exact frame_completeAt_of_eflags_eq _ rfl ((sameRegs_popped s 4).setReg r _) (sameSystem_refl s) rfl
        (sameMemory_refl s 0 0)

/-- Settles O39: CALL pushes its next address, RET completes at the value popped. -/
theorem callAndReturn : Obligations.CallAndReturn := by
  intro s rel
  refine ⟨fun hwf hwrite => ?_, fun hread => ?_⟩
  · obtain ⟨hheld, hesp, hframe⟩ := completeAt_pushed32 (s.eip + 5#32 + rel) (s.eip + 5#32) hwf
    exact ⟨_, exec_callRel32_of_writable rel hwrite, hheld, hesp, rfl, hframe⟩
  · exact ⟨_, exec_ret_of_readable hread, rfl, reg_of_set .esp _ rfl,
      frame_completeAt_of_eflags_eq _ rfl (sameRegs_popped s 4) (sameSystem_refl s) rfl (sameMemory_refl s 0 0)⟩

/-- After an instruction that pushed a value, that value can be read at ESP, and adding 4 to ESP undoes the push. -/
theorem popped_after_push {s t : State} {v : Word} {a n : Nat} (hwrite : Writable s (s.reg .esp - 4#32) 4)
    (hheld : Holds32 t (s.reg .esp - 4#32).toNat v) (hesp : t.reg .esp = s.reg .esp - 4#32)
    (hframe : Frame s t [.esp] [] a n) :
    Readable t (t.reg .esp) 4 ∧ wordAt t (t.reg .esp) = v ∧ t.reg .esp + 4#32 = s.reg .esp := by
  rw [hesp]
  exact ⟨hframe.readable List.not_mem_nil (readable_of_writable hwrite), wordAt_of_holds32 hheld,
    BitVec.sub_add_cancel _ _⟩

/-- Settles O40: POP and RET read what PUSH and CALL pushed. -/
theorem stackRoundTrips : Obligations.StackRoundTrips := by
  intro s q d rel hwf hwrite
  constructor
  · intro hd
    obtain ⟨t, hpush, hheld, hesp, -, hframe⟩ := (pushAndPop s q).1 hwf hwrite
    obtain ⟨hread, hvalue, hback⟩ := popped_after_push hwrite hheld hesp hframe
    obtain ⟨u, hpop, hreg, huesp, -⟩ := (pushAndPop t d).2 hread
    exact ⟨t, hpush, u, hpop, hreg.trans hvalue, (huesp hd).trans hback⟩
  · obtain ⟨t, hcall, hheld, hesp, -, hframe⟩ := (callAndReturn s rel).1 hwf hwrite
    obtain ⟨hread, hvalue, hback⟩ := popped_after_push hwrite hheld hesp hframe
    obtain ⟨u, hret, heip, huesp, -⟩ := (callAndReturn t rel).2 hread
    exact ⟨t, hcall, u, hret, heip.trans hvalue, huesp.trans hback⟩

/-! ### IRETD -/

/-- The bits IRETD loads: RF and the user flags, and the privileged part (R147). -/
theorem getLsbD_iretMask (s : State) {i : Nat} (hi : i < 32) :
    (iretMask s).getLsbD i = (decide (i ∈ rfBit :: userBits32) ||
      (decide (i = 9 ∧ s.cpl ≤ s.iopl) || decide ((i = 12 ∨ i = 13) ∧ s.cpl = 0#2))) := by
  have hrf : maskRf.getLsbD i = decide (i = rfBit) :=
    (by decide : ∀ i, i < 32 → maskRf.getLsbD i = decide (i = rfBit)) i hi
  rw [iretMask, BitVec.getLsbD_or, BitVec.getLsbD_or, getLsbD_maskUser32 hi, hrf, getLsbD_maskPrivileged _ _ i hi,
    Bool.or_comm (decide (i ∈ userBits32)), ← Bool.decide_or]
  simp only [List.mem_cons]

/-- EFLAGS after IRETD's masked write, which does not clear RF (R147). -/
theorem poppedFlags_iretd {s t : State} {v : Word} (ht : t.eflags = hardwireEflags (maskWrite s.eflags v (iretMask s))) :
    PoppedFlags s t v.toNat (rfBit :: userBits32) := by
  refine ⟨ht ▸ eflagsFixed_hardwireEflags _, fun i hi h0 h1 => ?_⟩
  rw [ht, getLsbD_hardwireEflags _ _ hi h0 h1, getLsbD_maskWrite, getLsbD_iretMask s hi,
    show v.toNat.testBit i = v.getLsbD i from rfl]
  by_cases hin : i ∈ rfBit :: userBits32
  · simp only [hin, decide_true, Bool.true_or, if_true]
  · have hne : i ≠ rfBit := List.ne_of_not_mem_cons hin
    simp only [hin, hne, decide_false, Bool.false_or, if_false, Bool.or_eq_true, decide_eq_true_eq]
    by_cases hif : i = 9 ∧ s.cpl ≤ s.iopl
    · simp only [hif, and_self, true_or, if_true]
    · simp only [hif, false_or, if_false]

/-- Settles O45: the three doublewords of an admitted frame are EIP, the selector and the EFLAGS image. -/
theorem interruptReturnLoadsTheFrame : Obligations.InterruptReturnLoadsTheFrame := by
  intro s hadm hnt hfit h0 h4 h8 hcs hvm
  have hvm8 : ¬(getFlag (wordAt s (s.reg .esp + 8#32)) .vm = true ∧ s.cpl = 0#2) := by
    rintro ⟨himage, hcpl⟩
    rcases hvm with hclear | hcpl'
    · exact Bool.false_ne_true (hclear.symm.trans himage)
    · exact hcpl' hcpl
  exact ⟨_, exec_iretd_of_frame hadm hnt hfit h0 h4 h8 hvm8 hcs, rfl, poppedFlags_iretd rfl, reg_of_set .esp _ rfl,
    sameRegs_of_set .esp _ rfl, ⟨rfl, rfl, rfl, rfl, rfl, rfl, rfl⟩, rfl, sameMemory_refl s 0 0⟩

end Sys2Proof.Machine
end

section
/-! SUPPORT. Where a misaligned access stops an instruction: the operand forms and the stack operations under an active
check. -/

namespace Sys2Proof.Machine

/-- An instruction that comes to the alignment exception faults with code 0 (R223). -/
theorem faults_of_exec_eq_raise {i : Instr} {s : State} (h : exec i s = raise .alignmentCheck s) :
    Faults i s .alignmentCheck (some 0#32) := ⟨_, h⟩

/-- An instruction whose first access, or whose only one, is misaligned ends there. -/
theorem faults_of_andThen {α : Type} {i : Instr} {s : State} {x : Res α} {f : α → Res State} (hi : exec i s = andThen x f)
    (hx : x = raise .alignmentCheck s) : Faults i s .alignmentCheck (some 0#32) :=
  faults_of_exec_eq_raise (by rw [hi, hx, andThen_raise])

/-! ### Memory operands -/

section
variable {i : Instr} {s : State} {m : Reg} {n : Nat} (hact : AlignmentActive s) (hm : (s.reg m).toNat % 4 ≠ 0)
include hact hm

theorem faults_aluForm_of_misaligned_dst {op : AluOp} {src : Src} (hi : aluForm i = some (op, .mem m, src, n)) :
    Faults i s .alignmentCheck (some 0#32) :=
  faults_of_andThen (exec_of_aluForm s hi) (memRead32_of_misaligned hact hm)

theorem faults_aluForm_of_misaligned_src {op : AluOp} {d : Reg} (hi : aluForm i = some (op, .reg d, .rm (.mem m), n)) :
    Faults i s .alignmentCheck (some 0#32) := by
  apply faults_of_exec_eq_raise
  rw [exec_of_aluForm s hi, execAlu, rmRead, andThen_next, srcRead, rmRead, memRead32_of_misaligned hact hm, andThen_raise]

theorem faults_moveForm_of_misaligned_dst {r : Reg} (hi : moveForm i = some (.mem m, .rm (.reg r), n)) :
    Faults i s .alignmentCheck (some 0#32) := by
  apply faults_of_exec_eq_raise
  rw [exec_of_moveForm s hi, execMove, srcRead, rmRead, andThen_next, rmWrite, memWrite32_of_misaligned hact _ hm,
    andThen_raise]

theorem faults_moveForm_of_misaligned_src {dst : Rm} (hi : moveForm i = some (dst, .rm (.mem m), n)) :
    Faults i s .alignmentCheck (some 0#32) :=
  faults_of_andThen (exec_of_moveForm s hi) (memRead32_of_misaligned hact hm)

end

/-! ### The stack -/

theorem push32_of_misaligned {s : State} (hact : AlignmentActive s) (v : Word) (hesp : (s.reg .esp).toNat % 4 ≠ 0) :
    push32 s v = raise .alignmentCheck s := by
  have haddr : (s.pushAddr 4).toNat % 4 ≠ 0 := by
    simp only [State.pushAddr, BitVec.toNat_sub, BitVec.toNat_ofNat]
    omega
  rw [push32, memWrite32_of_misaligned hact v haddr, andThen_raise]

theorem push16_of_misaligned {s : State} (hact : AlignmentActive s) (v : Half) (hesp : (s.reg .esp).toNat % 2 ≠ 0) :
    push16 s v = raise .alignmentCheck s := by
  have haddr : (s.pushAddr 2).toNat % 2 ≠ 0 := by
    simp only [State.pushAddr, BitVec.toNat_sub, BitVec.toNat_ofNat]
    omega
  rw [push16, memWrite16_of_misaligned hact v haddr, andThen_raise]

/-- A flag-stack instruction, once admitted, does its access (R140). -/
theorem faults_of_flagStack {α : Type} {i : Instr} {s : State} {x : Res α} {f : α → Res State}
    (hi : exec i s = andThen (flagStackAdmitted s) fun _ => andThen x f) (hadm : FlagStackAdmitted s)
    (hx : x = raise .alignmentCheck s) : Faults i s .alignmentCheck (some 0#32) :=
  faults_of_andThen (by rw [hi, flagStackAdmitted_of hadm, andThen_next]) hx

theorem faults_iretd_of_misaligned {s : State} (hact : AlignmentActive s) (hesp : (s.reg .esp).toNat % 4 ≠ 0)
    (hadm : FlagStackAdmitted s) (hnt : getFlag s.eflags .nt = false) (hfit : (s.reg .esp).toNat + 12 ≤ 4294967296) :
    Faults .iretd s .alignmentCheck (some 0#32) := by
  have hroom : ¬(s.reg .esp).toNat + 12 > Config.addrSpace := Nat.not_lt.2 hfit
  apply faults_of_exec_eq_raise
  show returnFromException s = _
  rw [returnFromException, flagStackAdmitted_of hadm, andThen_next, if_neg (by simp [hnt]), if_neg hroom,
    memRead32_of_misaligned hact hesp, andThen_raise]

/-- Settles O17: the first access of every form is at the base register, at ESP, or below it by the size of the push. -/
theorem misalignedAccessesRaiseAlignmentCheck : Obligations.MisalignedAccessesRaiseAlignmentCheck := by
  intro s m r rel hact
  refine ⟨fun hm => ?_, fun hesp => ⟨?_, fun hadm => ?_, faults_iretd_of_misaligned hact hesp⟩, fun hesp hadm => ?_⟩ <;>
    simp only [List.forall_mem_cons]
  · have intoMemory {i : Instr} {op : AluOp} {src : Src} {n : Nat} (hi : aluForm i = some (op, .mem m, src, n)) :=
      faults_aluForm_of_misaligned_dst hact hm hi
    have fromMemory {i : Instr} {op : AluOp} {d : Reg} {n : Nat} (hi : aluForm i = some (op, .reg d, .rm (.mem m), n)) :=
      faults_aluForm_of_misaligned_src hact hm hi
    exact ⟨intoMemory rfl, fromMemory rfl, intoMemory rfl, fromMemory rfl, intoMemory rfl, fromMemory rfl, intoMemory rfl,
      fromMemory rfl, intoMemory rfl, fromMemory rfl, intoMemory rfl, fromMemory rfl, intoMemory rfl,
      faults_moveForm_of_misaligned_dst hact hm rfl, faults_moveForm_of_misaligned_src hact hm rfl, List.forall_mem_nil _⟩
  · exact ⟨faults_of_andThen rfl (push32_of_misaligned hact _ hesp),
      faults_of_andThen rfl (memRead32_of_misaligned hact hesp),
      faults_of_andThen rfl (push32_of_misaligned hact _ hesp),
      faults_of_andThen rfl (memRead32_of_misaligned hact hesp), List.forall_mem_nil _⟩
  · exact ⟨faults_of_flagStack rfl hadm (push32_of_misaligned hact _ hesp),
      faults_of_flagStack rfl hadm (memRead32_of_misaligned hact hesp), List.forall_mem_nil _⟩
  · exact ⟨faults_of_flagStack rfl hadm (push16_of_misaligned hact _ hesp),
      faults_of_flagStack rfl hadm (memRead16_of_misaligned hact hesp), List.forall_mem_nil _⟩

end Sys2Proof.Machine
end

section
/-! SUPPORT. What the decoder answers is what was there: each part of the decoder, when it answers an instruction, has read
that instruction's own bytes; and with the round trip above the statements about the encoding. -/

namespace Sys2Proof

/-! ### Bytes put together again from their fields -/

@[simp] theorem Reg.num_ofNum : ∀ n : BitVec 3, (Reg.ofNum n).num = n := by decide

@[simp] theorem Cond.num_ofNum : ∀ n : BitVec 4, (Cond.ofNum n).num = n := by decide

/-- A ModRM byte is put together from its three fields (R114). -/
theorem modRmByte_fields (m : Byte) : modRmByte (modField m) (Reg.ofNum (regField m)) (Reg.ofNum (rmField m)) = m := by
  have hhigh : modField m ++ regField m = m.extractLsb' 3 5 := BitVec.extractLsb'_append_extractLsb'_eq_extractLsb' rfl
  rw [modRmByte, Reg.num_ofNum, Reg.num_ofNum]
  exact (congrArg (· ++ rmField m) hhigh).trans BitVec.extractLsb'_append_extractLsb'

/-- A value is its high bits, kept by a mask, with its low bits put back. -/
theorem or_zero_append_low {hi lo : Nat} {v base : BitVec (hi + lo)} (h : v &&& (BitVec.allOnes hi ++ 0#lo) = base) :
    base ||| (0#hi ++ v.extractLsb' 0 lo) = v := by
  subst h
  ext i hi
  by_cases hlow : i < lo <;> simp [BitVec.getElem_append, hlow, BitVec.getLsbD_eq_getElem hi]

/-- An opcode byte of an `OP_R` row is its base with the register that its low bits number (R111). -/
theorem opcodeReg_rmField {b base : Byte} (h : b &&& 0xF8#8 = base) : opcodeReg base (Reg.ofNum (rmField b)) = b := by
  rw [opcodeReg, Reg.num_ofNum]
  exact or_zero_append_low (hi := 5) (lo := 3) h

/-- The opcode byte of a conditional jump is 70H with the code of the condition that its low bits number (R197). -/
theorem opcodeCond_low {b : Byte} (h : b &&& 0xF0#8 = 0x70#8) :
    0x70#8 ||| (0#4 ++ (Cond.ofNum (b.extractLsb' 0 4)).num) = b := by
  rw [Cond.num_ofNum]
  exact or_zero_append_low (hi := 4) (lo := 4) h

/-- The second byte of FXCH is C8H with the stack index that its low bits number (R111). -/
theorem opcodeStack_stIndex {b : Byte} (h : b &&& 0xF8#8 = 0xC8#8) : 0xC8#8 ||| BitVec.ofNat 8 (stIndex b).val = b := by
  have hindex : ∀ n : BitVec 3, BitVec.ofNat 8 (Fin.ofNat 8 n.toNat).val = 0#5 ++ n := by decide
  rw [stIndex, hindex]
  exact or_zero_append_low (hi := 5) (lo := 3) h

/-- The byte after `0F 20` or `0F 22`, with mod 11, for the two control registers that are admitted (R111, R114). -/
theorem controlByte_fields {m : Byte} (hmod : modField m = 3#2) :
    (regField m = 0#3 → 0xC0#8 ||| (0#5 ++ (Reg.ofNum (rmField m)).num) = m) ∧
    (regField m = 4#3 → 0xE0#8 ||| (0#5 ++ (Reg.ofNum (rmField m)).num) = m) := by
  constructor <;> intro hreg
  all_goals
    conv_rhs => rw [← modRmByte_fields m, hmod, hreg]
    cases Reg.ofNum (rmField m) <;> rfl

/-- The bytes of a 32-bit value put together from four bytes are those four (R62, R116). -/
theorem imm32Bytes_le32 (b1 b2 b3 b4 : Byte) : imm32Bytes (le32 b1 b2 b3 b4) = [b1, b2, b3, b4] := by
  have h0 : byteOf (le32 b1 b2 b3 b4) 0 = b1 := BitVec.extractLsb'_append_eq_right
  have h1 : byteOf (le32 b1 b2 b3 b4) 1 = b2 :=
    (BitVec.extractLsb'_append_eq_of_le (by decide)).trans BitVec.extractLsb'_append_eq_right
  have h2 : byteOf (le32 b1 b2 b3 b4) 2 = b3 :=
    (BitVec.extractLsb'_append_eq_of_le (by decide)).trans <|
      (BitVec.extractLsb'_append_eq_of_le (by decide)).trans BitVec.extractLsb'_append_eq_right
  have h3 : byteOf (le32 b1 b2 b3 b4) 3 = b4 :=
    (BitVec.extractLsb'_append_eq_of_le (by decide)).trans <|
      (BitVec.extractLsb'_append_eq_of_le (by decide)).trans BitVec.extractLsb'_append_eq_left
  rw [imm32Bytes, h0, h1, h2, h3]

/-! ### Verdicts that answer only what was read -/

/-- If the verdict is an instruction, that instruction is well-formed and `bytes` is its encoding and the rest answered. -/
def AnswersEncoding (bytes : List Byte) (d : Decoded) : Prop :=
  ∀ (i : Instr) (rest : List Byte), d = .ok i rest → i.wellFormed = true ∧ bytes = encode i ++ rest

namespace AnswersEncoding

variable {b0 : Byte} {bytes bs : List Byte} {d e : Decoded}

theorem bad (err : DecodeError) : AnswersEncoding bytes (.bad err) := nofun

theorem ok {i : Instr} {rest : List Byte} (hwf : i.wellFormed = true) (hbytes : bytes = encode i ++ rest) :
    AnswersEncoding bytes (.ok i rest) := by
  rintro _ _ ⟨⟩
  exact ⟨hwf, hbytes⟩

theorem ite {c : Prop} [Decidable c] (hd : c → AnswersEncoding bytes d) (he : AnswersEncoding bytes e) :
    AnswersEncoding bytes (if c then d else e) := by
  split
  · exact hd ‹c›
  · exact he

/-- A row with a fixed opcode byte is judged with that byte in front. -/
theorem opcodeRow {b : Byte} (hd : AnswersEncoding (b :: bs) d) (he : AnswersEncoding (b0 :: bs) e) :
    AnswersEncoding (b0 :: bs) (if b0 = b then d else e) :=
  ite (fun h => h ▸ hd) he

/-- A row with a fixed second byte is judged with both bytes in front. -/
theorem secondByteRow {b1 b : Byte} (hd : AnswersEncoding (b0 :: b :: bs) d) (he : AnswersEncoding (b0 :: b1 :: bs) e) :
    AnswersEncoding (b0 :: b1 :: bs) (if b1 = b then d else e) :=
  ite (fun h => h ▸ hd) he

/-- An operand byte: each form must be encoded by the opcode byte and a ModRM byte of its own mod field (R114). -/
theorem modRm {f g : Reg → Reg → Instr}
    (hf : ∀ rm reg, (f rm reg).wellFormed = true ∧ encode (f rm reg) = [b0, modRmByte 3#2 reg rm])
    (hg : ∀ rm reg, (g rm reg).wellFormed = baseAdmitted rm ∧ encode (g rm reg) = [b0, modRmByte 0#2 reg rm]) :
    AnswersEncoding (b0 :: bs) (decodeModRm bs f g) := by
  cases bs with
  | nil => exact bad _
  | cons m rest =>
    have hm := modRmByte_fields m
    refine ite (fun hmod => ok (hf _ _).1 ?_) (ite (fun ⟨hmod, hbase⟩ => ok ((hg _ _).1.trans hbase) ?_) (bad _))
    · rw [(hf _ _).2, ← hmod, hm]; rfl
    · rw [(hg _ _).2, ← hmod, hm]; rfl

/-- A 4-byte operand: the instruction must be encoded by the opcode byte and that operand (R116). -/
theorem imm32 {f : Word → Instr} (hf : ∀ v, (f v).wellFormed = true ∧ encode (f v) = b0 :: imm32Bytes v) :
    AnswersEncoding (b0 :: bs) (decodeImm32 bs f) := by
  rcases bs with _ | ⟨b1, _ | ⟨b2, _ | ⟨b3, _ | ⟨b4, rest⟩⟩⟩⟩
  case cons.cons.cons.cons => exact ok (hf _).1 (by rw [(hf _).2, imm32Bytes_le32]; rfl)
  all_goals exact bad _

/-- A 1-byte operand: the instruction must be encoded by the opcode byte and that operand (R116). -/
theorem rel8 {f : BitVec 8 → Instr} (hf : ∀ v, (f v).wellFormed = true ∧ encode (f v) = [b0, v]) :
    AnswersEncoding (b0 :: bs) (decodeRel8 bs f) := by
  cases bs with
  | nil => exact bad _
  | cons b1 rest => exact ok (hf _).1 (by rw [(hf _).2]; rfl)

/-- An `OP_R` row of one byte: the instruction must be encoded by its base with the register (R111). -/
theorem registerRow {base : Byte} {f : Reg → Instr}
    (hf : ∀ r, (f r).wellFormed = true ∧ encode (f r) = [opcodeReg base r])
    (he : AnswersEncoding (b0 :: bs) e) :
    AnswersEncoding (b0 :: bs) (if b0 &&& 0xF8#8 = base then .ok (f (Reg.ofNum (rmField b0))) bs else e) :=
  ite (fun h => ok (hf _).1 (by rw [(hf _).2, opcodeReg_rmField h]; rfl)) he

end AnswersEncoding

/-! ### The parts of the decoder -/

theorem decodeAfter66_answersEncoding (bs : List Byte) : AnswersEncoding (0x66#8 :: bs) (decodeAfter66 bs) := by
  cases bs with
  | nil => exact .bad _
  | cons b1 rest =>
    exact .secondByteRow (.ok rfl rfl) <| .secondByteRow (.ok rfl rfl) (.bad _)

theorem decodeControl_answersEncoding {b : Byte} {f g : Reg → Instr}
    (hf : ∀ r, (f r).wellFormed = true ∧ encode (f r) = [0x0F#8, b, 0xC0#8 ||| (0#5 ++ r.num)])
    (hg : ∀ r, (g r).wellFormed = true ∧ encode (g r) = [0x0F#8, b, 0xE0#8 ||| (0#5 ++ r.num)]) (bs : List Byte) :
    AnswersEncoding (0x0F#8 :: b :: bs) (decodeControl bs f g) := by
  cases bs with
  | nil => exact .bad _
  | cons m rest =>
    refine .ite (fun hmod => ?_) (.bad _)
    obtain ⟨hcr0, hcr4⟩ := controlByte_fields hmod
    refine .ite (fun hreg => .ok (hf _).1 ?_) (.ite (fun hreg => .ok (hg _).1 ?_) (.bad _))
    · rw [(hf _).2, hcr0 hreg]; rfl
    · rw [(hg _).2, hcr4 hreg]; rfl

theorem decodeAfter0F_answersEncoding (bs : List Byte) : AnswersEncoding (0x0F#8 :: bs) (decodeAfter0F bs) := by
  cases bs with
  | nil => exact .bad _
  | cons b1 rest =>
    exact .secondByteRow (.ok rfl rfl) <| .secondByteRow (.ok rfl rfl) <|
      .secondByteRow (.ok rfl rfl) <| .secondByteRow (.ok rfl rfl) <|
      .secondByteRow (decodeControl_answersEncoding (fun _ => ⟨rfl, rfl⟩) (fun _ => ⟨rfl, rfl⟩) rest) <|
      .secondByteRow (decodeControl_answersEncoding (fun _ => ⟨rfl, rfl⟩) (fun _ => ⟨rfl, rfl⟩) rest) (.bad _)

theorem decodeAfterD9_answersEncoding (bs : List Byte) : AnswersEncoding (0xD9#8 :: bs) (decodeAfterD9 bs) := by
  cases bs with
  | nil => exact .bad _
  | cons b1 rest => exact .ite (fun h => .ok rfl (by rw [encode, opcodeStack_stIndex h]; rfl)) (.bad _)

theorem decodeOperate_answersEncoding {b0 : Byte} {bs : List Byte} {otherwise : Decoded}
    (h : AnswersEncoding (b0 :: bs) otherwise) : AnswersEncoding (b0 :: bs) (decodeOperate b0 bs otherwise) := by
  unfold decodeOperate
  refine
    .opcodeRow (.modRm ?_ ?_) <| .opcodeRow (.modRm ?_ ?_) <| .opcodeRow (.imm32 ?_) <|
    .opcodeRow (.modRm ?_ ?_) <| .opcodeRow (.modRm ?_ ?_) <| .opcodeRow (.imm32 ?_) <|
    .opcodeRow (.modRm ?_ ?_) <| .opcodeRow (.modRm ?_ ?_) <| .opcodeRow (.imm32 ?_) <|
    .opcodeRow (.modRm ?_ ?_) <| .opcodeRow (.modRm ?_ ?_) <| .opcodeRow (.imm32 ?_) <|
    .opcodeRow (.modRm ?_ ?_) <| .opcodeRow (.modRm ?_ ?_) <| .opcodeRow (.imm32 ?_) <|
    .opcodeRow (.modRm ?_ ?_) <| .opcodeRow (.modRm ?_ ?_) <| .opcodeRow (.imm32 ?_) <|
    .opcodeRow (.modRm ?_ ?_) <| .opcodeRow (.modRm ?_ ?_) <| .opcodeRow (.modRm ?_ ?_) h
  all_goals intros; exact ⟨rfl, rfl⟩

theorem decodeOneByte_answersEncoding (b0 : Byte) (bs : List Byte) :
    AnswersEncoding (b0 :: bs) (decodeOneByte b0 bs) := by
  unfold decodeOneByte
  exact
    .registerRow (fun _ => ⟨rfl, rfl⟩) <| .registerRow (fun _ => ⟨rfl, rfl⟩) <|
    .registerRow (fun _ => ⟨rfl, rfl⟩) <| .registerRow (fun _ => ⟨rfl, rfl⟩) <|
    .ite (fun h => .rel8 fun v => ⟨rfl, congrArg (· :: [v]) (opcodeCond_low h)⟩) <|
    .ite (fun h => .imm32 fun v => ⟨rfl, congrArg (· :: imm32Bytes v) (opcodeReg_rmField h)⟩) <|
    .opcodeRow (.ok rfl rfl) <| .opcodeRow (.ok rfl rfl) <| .opcodeRow (.ok rfl rfl) <| .opcodeRow (.ok rfl rfl) <|
    .opcodeRow (.ok rfl rfl) <| .opcodeRow (.ok rfl rfl) <| .opcodeRow (.ok rfl rfl) <|
    .opcodeRow (.imm32 fun _ => ⟨rfl, rfl⟩) <| .opcodeRow (.imm32 fun _ => ⟨rfl, rfl⟩) <|
    .opcodeRow (.rel8 fun _ => ⟨rfl, rfl⟩) <|
    .opcodeRow (.ok rfl rfl) (.bad _)

/-- Whatever the decoder answers, it has read (R118): the escape bytes first, then the rows of one opcode byte. -/
theorem decode_answersEncoding (bytes : List Byte) : AnswersEncoding bytes (decode bytes) := by
  cases bytes with
  | nil => exact .bad _
  | cons b0 bs =>
    exact .opcodeRow (decodeAfter66_answersEncoding bs) <| .opcodeRow (decodeAfter0F_answersEncoding bs) <|
      .opcodeRow (decodeAfterD9_answersEncoding bs) <| decodeOperate_answersEncoding (decodeOneByte_answersEncoding b0 bs)

/-! ### The statements about the encoding -/

/-- Settles O1: `decode_encode`, by the shape of the encoding. -/
theorem decodeOfEncodeIsTheInstruction : Obligations.DecodeOfEncodeIsTheInstruction := decode_encode

/-- Settles O2, by the parts of the decoder, each of which answers only what it read. -/
theorem decodeAcceptsOnlyEncodings : Obligations.DecodeAcceptsOnlyEncodings := fun bytes rest i =>
  decode_answersEncoding bytes i rest

/-- Settles O3: the words are the encodings of those instructions. -/
theorem sampleWordsDecode : Obligations.SampleWordsDecode :=
  ⟨decode_encode (.addRmReg .eax .ebx) [] rfl, decode_encode (.movRegMem .ecx .ebx) [] rfl,
    decode_encode (.addEaxImm 0x12345678#32) [] rfl, decode_encode (.movRegCr4 .ebx) [] rfl,
    decode_encode (.movCr4Reg .eax) [] rfl, decode_encode (.fxch 1) [] rfl, decode_encode .pushf [] rfl,
    decode_encode (.jccRel8 .nz 0xFE#8) [] rfl⟩

/-- Settles O4: after 66H the decoder tests for 9CH and 9DH alone, and each of the ten other bytes begins no row (R112). -/
theorem otherPrefixesAreRefused : Obligations.OtherPrefixesAreRefused := by
  refine ⟨fun b rest hpushf hpopf => ?_, fun b rest hbyte => ?_⟩
  · show decodeAfter66 (b :: rest) = _
    rw [decodeAfter66, if_neg hpushf, if_neg hpopf]
  · fin_cases hbyte <;> rfl

end Sys2Proof
end

section
/-! SUPPORT. SAHF, LAHF, CPUID, HLT and the time-stamp counter on admitted operands, and the register forms of MOV, OR, AND and
XOR. -/

namespace Sys2Proof.Machine

/-! ### SAHF and LAHF -/

/-- The bits of AH that SAHF loads: SF, ZF, AF, PF and CF (R141). -/
theorem getLsbD_sahfMask (i : Nat) : (0x000000D5#32).getLsbD i = decide (i ∈ [0, 2, 4, 6, 7]) := by
  by_cases hi : i < 32
  · exact (by decide : ∀ i, i < 32 → (0x000000D5#32).getLsbD i = decide (i ∈ [0, 2, 4, 6, 7])) i hi
  · have hne : i ∉ [0, 2, 4, 6, 7] := fun hin => hi ((by decide : ∀ i ∈ [0, 2, 4, 6, 7], i < 32) i hin)
    rw [BitVec.getLsbD_of_ge _ _ (Nat.le_of_not_lt hi), decide_eq_false hne]

/-- The flags SAHF writes (R141). -/
def sahfFlags (s : State) : Word :=
  maskWrite s.eflags (((s.reg .eax).extractLsb' 8 8).zeroExtend 32) 0x000000D5#32

theorem exec_sahf (s : State) : exec .sahf s = .next (complete 1 (s.setEflags (sahfFlags s))) := rfl

theorem sahfFlags_of_mem (s : State) {k : Nat} (hk : k ∈ [0, 2, 4, 6, 7]) :
    (sahfFlags s).getLsbD k = (s.reg .eax).getLsbD (8 + k) := by
  have hk8 : k < 8 := (by decide : ∀ k ∈ [0, 2, 4, 6, 7], k < 8) k hk
  have hk32 : k < 32 := by omega
  rw [sahfFlags, getLsbD_maskWrite, getLsbD_sahfMask, if_pos (decide_eq_true hk), BitVec.getLsbD_setWidth,
    BitVec.getLsbD_extractLsb', decide_eq_true hk8, decide_eq_true hk32, Bool.true_and, Bool.true_and]

theorem sahfFlags_of_not_mem (s : State) (i : Nat) (h : i ∉ [0, 2, 4, 6, 7]) :
    (sahfFlags s).getLsbD i = s.eflags.getLsbD i := by
  rw [sahfFlags, getLsbD_maskWrite, getLsbD_sahfMask, if_neg (by rwa [decide_eq_true_iff])]

/-- Settles O41: SAHF's mask has the five bits, none reserved and none RF. -/
theorem sahfLoadsTheStatusFlags : Obligations.SahfLoadsTheStatusFlags := by
  refine fun s => ⟨rfl, _, exec_sahf s, fun k hk => ?_, rfl, ?_⟩
  · have hrf : k ≠ Flag.rf.pos := (by decide : ∀ k ∈ [0, 2, 4, 6, 7], k ≠ Flag.rf.pos) k hk
    have hflag : k ∈ [0, 2, 4, 6, 7, 8, 9, 10, 11, 12, 13, 14, 18, 19, 20, 21] := List.mem_append_left _ hk
    rw [complete_eflags, getLsbD_hardwireEflags_of_mem _ hflag, getLsbD_setFlag, if_neg hrf, State.setEflags_eflags,
      getLsbD_hardwireEflags_of_mem _ hflag, sahfFlags_of_mem s hk]
  · exact frame_completeAt _ rfl (sahfFlags_of_not_mem s) (sameRegs_of_eq rfl) (sameSystem_refl s) rfl (sameMemory_refl s 0 0)

/-- The bits that are always 0 in the image of EFLAGS (R15). -/
theorem getLsbD_hardwireEflags_of_fixed0 (v : Word) {i : Nat} (h : eflagsFixed0.getLsbD i = true) :
    (hardwireEflags v).getLsbD i = false := by
  have hand := congrArg (BitVec.getLsbD · i) (hardwireEflags_fixed0 v)
  rwa [BitVec.getLsbD_and, h, Bool.and_true, BitVec.getLsbD_zero] at hand

/-- EAX after LAHF: AH is the low byte of the image of EFLAGS (R142). -/
def lahfEax (s : State) : Word := maskWrite (s.reg .eax) (s.flagsImage <<< 8) 0x0000FF00#32

theorem exec_lahf (s : State) : exec .lahf s = .next (complete 1 (s.setReg .eax (lahfEax s))) := rfl

/-- The bits of EAX that LAHF writes: AH (R142). -/
theorem getLsbD_lahfMask (i : Nat) : (0x0000FF00#32).getLsbD i = decide (8 ≤ i ∧ i < 16) := by
  by_cases hi : i < 32
  · exact (by decide : ∀ i, i < 32 → (0x0000FF00#32).getLsbD i = decide (8 ≤ i ∧ i < 16)) i hi
  · rw [BitVec.getLsbD_of_ge _ _ (Nat.le_of_not_lt hi), decide_eq_false (by omega)]

theorem getLsbD_lahfEax_ah (s : State) {k : Nat} (hk : k < 8) :
    (lahfEax s).getLsbD (8 + k) = (hardwireEflags s.eflags).getLsbD k := by
  have hk32 : 8 + k < 32 := by omega
  rw [lahfEax, getLsbD_maskWrite, getLsbD_lahfMask, if_pos (decide_eq_true (by omega)), BitVec.getLsbD_shiftLeft,
    decide_eq_true hk32, decide_eq_false (by omega), Nat.add_sub_cancel_left, State.flagsImage]
  rfl

theorem getLsbD_lahfEax_of_not_ah (s : State) {k : Nat} (hk : k < 8 ∨ 16 ≤ k) :
    (lahfEax s).getLsbD k = (s.reg .eax).getLsbD k := by
  rw [lahfEax, getLsbD_maskWrite, getLsbD_lahfMask, if_neg (by rw [decide_eq_true_iff]; omega)]

/-- Settles O42: AH is the low byte of the image, three of whose bits are fixed. -/
theorem lahfStoresTheLowByte : Obligations.LahfStoresTheLowByte := by
  refine fun s => ⟨rfl, _, exec_lahf s, ?_⟩
  dsimp only
  rw [show (complete 1 (s.setReg .eax (lahfEax s))).reg .eax = lahfEax s from rfl]
  refine ⟨fun k hk => ?_, ?_, ?_, ?_, fun k hk => getLsbD_lahfEax_of_not_ah s hk, rfl, ?_⟩
  · have hk8 : k < 8 := (by decide : ∀ k ∈ [0, 2, 4, 6, 7], k < 8) k hk
    rw [getLsbD_lahfEax_ah s hk8, getLsbD_hardwireEflags_of_mem _ (List.mem_append_left _ hk)]
  · exact (getLsbD_lahfEax_ah s (k := 1) (by decide)).trans (getLsbD_hardwireEflags_one _)
  · exact (getLsbD_lahfEax_ah s (k := 3) (by decide)).trans (getLsbD_hardwireEflags_of_fixed0 _ rfl)
  · exact (getLsbD_lahfEax_ah s (k := 5) (by decide)).trans (getLsbD_hardwireEflags_of_fixed0 _ rfl)
  · exact frame_completeAt_of_eflags_eq _ rfl (sameRegs_of_set .eax _ rfl) (sameSystem_refl s) rfl (sameMemory_refl s 0 0)

/-! ### CPUID, RDTSC and WRMSR -/

/-- Settles O49: the four writes go to four registers. -/
theorem cpuidWritesItsFourRegisters : Obligations.CpuidWritesItsFourRegisters := by
  refine fun s => ⟨_, rfl, rfl, rfl, rfl, rfl, rfl, frame_completeAt_of_eflags_eq _ rfl (fun r hr => ?_)
    ⟨rfl, rfl, rfl, rfl, rfl, rfl, rfl⟩ rfl (sameMemory_refl s 0 0)⟩
  simp only [List.mem_cons, List.not_mem_nil, or_false, not_or] at hr
  simp [hr]

/-- Settles O54: RDTSC delivers the next free value, WRMSR of index 10H only completes. -/
theorem timeStampCounterAccess : Obligations.TimeStampCounterAccess := by
  refine fun s => ⟨fun hadm => ?_, fun hcpl hecx => ?_⟩
  · have hno : ¬(cr4Tsd s.cr4 = true ∧ s.cpl ≠ 0#2) := by
      rintro ⟨htsd, hcpl⟩
      rcases hadm with hclear | hzero
      · exact Bool.false_ne_true (hclear.symm.trans htsd)
      · exact hcpl hzero
    exact ⟨_, exec_rdtsc_of_admitted hno, complete_deliver64 2 s.draw64 s⟩
  · exact ⟨_, (execWrmsr_next_iff s _).2 ⟨hcpl, hecx, rfl⟩, rfl, rfl,
      frame_completeAt_of_eflags_eq _ rfl (sameRegs_of_eq rfl) (sameSystem_refl s) rfl (sameMemory_refl s 0 0)⟩

/-! ### HLT -/

/-- A privileged instruction outside CPL 0 (R222, R246). -/
theorem requireCpl0_of_ne {s : State} (h : s.cpl ≠ 0#2) : requireCpl0 s = raise .generalProtection s := if_neg h

theorem boundaryEvent_of_halted {s : State} (hhalted : s.halted = true)
    (h : s.inputs = { flush := 0, init := false, smi := false, rs := false }) : boundaryEvent s = some (.next s) := by
  simp [boundaryEvent, h, hhalted]

/-- Settles O35: HLT is privileged, completes, and the boundary then takes the halted state. -/
theorem haltEndsTheRunAtLevelZero : Obligations.HaltEndsTheRunAtLevelZero := by
  refine fun s => ⟨fun hcpl => ?_, fun hcpl => ?_⟩
  · obtain ⟨hflags, hrf⟩ := sameFlags_of_completed (s := s) (t := complete 1 s) rfl
    exact ⟨_, (execHlt_next_iff s _).2 ⟨hcpl, rfl⟩, rfl, rfl, sameRegs_of_eq rfl, hflags, hrf,
      ⟨rfl, rfl, rfl, rfl, rfl, rfl, rfl⟩, rfl, sameMemory_refl s 0 0,
      fun hinputs => step_of_boundaryEvent (boundaryEvent_of_halted rfl hinputs)⟩
  · refine ⟨exceptionImage .generalProtection s, ?_⟩
    show execHlt s = raise .generalProtection s
    rw [execHlt, requireCpl0_of_ne hcpl, andThen_raise]

/-! ### Register forms -/

/-- Settles O30: each form is a MOV into a register of what its source reads. -/
theorem moveIntoRegister : Obligations.MoveIntoRegister := fun _ _ _ _ =>
  ⟨registerResult_of_moveForm rfl rfl, registerResult_of_moveForm rfl rfl, registerResult_of_moveForm rfl rfl⟩

/-- Settles O23: each form is the logic operation on what its source reads. -/
theorem logicIntoRegister : Obligations.LogicIntoRegister := by
  intro s d q imm
  simp only [List.forall_mem_cons]
  exact
    ⟨⟨registerResult_logic (op := .or) rfl (by decide) rfl rfl, registerResult_logic (op := .or) rfl (by decide) rfl rfl,
      registerResult_logic (op := .and) rfl (by decide) rfl rfl, registerResult_logic (op := .and) rfl (by decide) rfl rfl,
      registerResult_logic (op := .xor) rfl (by decide) rfl rfl, registerResult_logic (op := .xor) rfl (by decide) rfl rfl,
      List.forall_mem_nil _⟩,
    registerResult_logic (op := .or) rfl (by decide) rfl rfl, registerResult_logic (op := .and) rfl (by decide) rfl rfl,
    registerResult_logic (op := .xor) rfl (by decide) rfl rfl, List.forall_mem_nil _⟩

end Sys2Proof.Machine
end

section
/-! SUPPORT. Where the flag-stack instructions are refused: the admission that the five share, and IRETD's own tests. -/

namespace Sys2Proof.Machine

/-- A refusal of the shared admission is the instruction's (R140). -/
theorem refuses_of_flagStack {i : Instr} {s : State} {reason : RefusalReason} {f : Unit → Res State}
    (hi : exec i s = andThen (flagStackAdmitted s) f) (h : flagStackAdmitted s = refuse reason s) : Refuses i s reason := by
  rw [Refuses, hi, h]
  rfl

/-- What the shared admission refuses, all five refuse (R140). -/
theorem flagStack_refuse {s : State} {reason : RefusalReason} (h : flagStackAdmitted s = refuse reason s) :
    ∀ i ∈ [Instr.pushf, .pushfd, .popf, .popfd, .iretd], Refuses i s reason := by
  simp only [List.forall_mem_cons]
  exact ⟨refuses_of_flagStack rfl h, refuses_of_flagStack rfl h, refuses_of_flagStack rfl h, refuses_of_flagStack rfl h,
    refuses_of_flagStack rfl h, List.forall_mem_nil _⟩

/-- IRETD, once admitted, on a task return (R147). -/
theorem iretd_refuses_of_nt {s : State} (hadm : FlagStackAdmitted s) (hnt : getFlag s.eflags .nt = true) :
    Refuses .iretd s .taskReturnNotAdmitted := by
  show returnFromException s = refuse .taskReturnNotAdmitted s
  rw [returnFromException, flagStackAdmitted_of hadm, andThen_next, if_pos hnt]

/-- IRETD on a frame that would pass the last address (R147). -/
theorem iretd_refuses_of_wrap {s : State} (hadm : FlagStackAdmitted s) (hnt : getFlag s.eflags .nt = false)
    (hwrap : (s.reg .esp).toNat + 12 > Config.addrSpace) : Refuses .iretd s .addressWrap := by
  show returnFromException s = refuse .addressWrap s
  rw [returnFromException, flagStackAdmitted_of hadm, andThen_next, if_neg (by simp [hnt]), if_pos hwrap]

/-- IRETD on a frame that it can read tests the frame's VM bit, then its selector (R147). -/
theorem iretd_refuses_of_frame {s : State} (hadm : FlagStackAdmitted s) (hnt : getFlag s.eflags .nt = false)
    (hfit : (s.reg .esp).toNat + 12 ≤ Config.addrSpace) (h0 : Readable s (s.reg .esp) 4)
    (h4 : Readable s (s.reg .esp + 4#32) 4) (h8 : Readable s (s.reg .esp + 8#32) 4) :
    if getFlag (wordAt s (s.reg .esp + 8#32)) .vm = true ∧ s.cpl = 0#2 then Refuses .iretd s .returnToVirtual8086NotAdmitted
    else (wordAt s (s.reg .esp + 4#32)).extractLsb' 0 16 ≠ s.csSel → Refuses .iretd s .farReturnNotAdmitted := by
  have hclear : ¬getFlag s.eflags .nt = true := by simp [hnt]
  have hexec : exec .iretd s = returnFromException s := rfl
  rw [wordAt_eq, wordAt_eq, Refuses, Refuses, hexec, returnFromException, flagStackAdmitted_of hadm, andThen_next,
    if_neg hclear, if_neg (Nat.not_lt.2 hfit), memRead32_of_readable h0, andThen_next, memRead32_of_readable h4,
    andThen_next, memRead32_of_readable h8, andThen_next]
  by_cases hvm : getFlag (Memory.read32 s.mem (s.reg .esp + 8#32).toNat) .vm = true ∧ s.cpl = 0#2
  · rw [if_pos hvm]
    exact if_pos hvm
  · rw [if_neg hvm]
    exact fun hcs => (if_neg hvm).trans (if_pos hcs)

/-- Settles O46: the shared admission's two tests, then IRETD's own, in their order. -/
theorem flagStackRefusals : Obligations.FlagStackRefusals := by
  refine fun s => ⟨fun hvirtual => flagStack_refuse (if_pos hvirtual), fun hvme hpvi htf => flagStack_refuse ?_,
    iretd_refuses_of_nt, iretd_refuses_of_wrap, iretd_refuses_of_frame⟩
  rw [flagStackAdmitted, if_neg (by simp [hvme, hpvi]), requireNoTrapFlag, if_pos htf]

end Sys2Proof.Machine
end

section
/-! SUPPORT. The system flags IF and IOPL: what an instruction that completes can have written to them, with RF 0 unless it is
IRETD, and from it what code outside privilege level 0 cannot change. -/

namespace Sys2Proof.Machine

/-- The bits of IF and IOPL, which only a pop of EFLAGS writes (R145 to R147). -/
def privilegedBits : List Nat := [9, 12, 13]

/-- The value has IF and IOPL as EFLAGS of `s` has them, but for those that its privilege level may write. -/
def Guarded (s : State) (e : Word) : Prop :=
  ∀ k ∈ privilegedBits, (maskPrivileged s.cpl s.iopl).getLsbD k = false → e.getLsbD k = s.eflags.getLsbD k

/-! ### Values written to EFLAGS -/

theorem guarded_self (s : State) : Guarded s s.eflags := fun _ _ _ => rfl

theorem guarded_of_keeps {s : State} {e : Word} {bits : List Nat} (hbits : ∀ k ∈ privilegedBits, k ∉ bits)
    (h : ∀ i, i ∉ bits → e.getLsbD i = s.eflags.getLsbD i) : Guarded s e := fun k hk _ => h k (hbits k hk)

/-- IF and IOPL are no reserved bits of EFLAGS, nor RF (R14, R15). -/
theorem privilegedBits_spec {k : Nat} (hk : k ∈ privilegedBits) :
    k < 32 ∧ eflagsFixed0.getLsbD k = false ∧ eflagsFixed1.getLsbD k = false ∧ k ≠ Flag.rf.pos :=
  (by decide : ∀ k ∈ privilegedBits,
    k < 32 ∧ eflagsFixed0.getLsbD k = false ∧ eflagsFixed1.getLsbD k = false ∧ k ≠ Flag.rf.pos) k hk

theorem Guarded.hardwire {s : State} {e : Word} (h : Guarded s e) : Guarded s (hardwireEflags e) := by
  intro k hk hmask
  obtain ⟨hk32, hfixed0, hfixed1, -⟩ := privilegedBits_spec hk
  rw [getLsbD_hardwireEflags e k hk32 hfixed0 hfixed1, h k hk hmask]

theorem Guarded.clearRf {s : State} {e : Word} (h : Guarded s e) : Guarded s (setFlag .rf false e) := by
  intro k hk hmask
  obtain ⟨-, -, -, hrf⟩ := privilegedBits_spec hk
  rw [getLsbD_setFlag, if_neg hrf, h k hk hmask]

/-- A masked write whose mask has IF and IOPL only in its privileged part (R145 to R147). -/
theorem guarded_maskWrite {mask : Word} (hmask : ∀ k ∈ privilegedBits, mask.getLsbD k = false) (s : State) (v : Word) :
    Guarded s (maskWrite s.eflags v (mask ||| maskPrivileged s.cpl s.iopl)) := by
  intro k hk hpriv
  rw [getLsbD_maskWrite, BitVec.getLsbD_or, hmask k hk, hpriv]
  rfl

/-! ### Instructions -/

/-- EFLAGS of `t` is such a value with RF cleared: how every instruction but IRETD leaves it (R149). -/
def EndsGuarded (s t : State) : Prop := ∃ e, Guarded s e ∧ t.eflags = hardwireEflags (setFlag .rf false e)

/-- An instruction that has written no flag before it completes. -/
theorem endsGuarded_of_eflags_eq {s s1 : State} (target : Word) (h : s1.eflags = s.eflags) :
    EndsGuarded s (completeAt target s1) := ⟨s.eflags, guarded_self s, by rw [completeAt_eflags, h]⟩

/-- An instruction that has written the flags `e` before it completes. -/
theorem endsGuarded_of_written {s s1 : State} {e : Word} (target : Word) (he : s1.eflags = hardwireEflags e)
    (h : Guarded s e) : EndsGuarded s (completeAt target s1) := ⟨_, h.hardwire, by rw [completeAt_eflags, he]⟩

theorem push32_eflags {s t : State} {v : Word} (h : push32 s v = .next t) : t.eflags = s.eflags := by
  obtain ⟨-, rfl⟩ := (push32_next_iff s t v).1 h
  rfl

theorem push16_eflags {s t : State} {v : Half} (h : push16 s v = .next t) : t.eflags = s.eflags := by
  obtain ⟨-, rfl⟩ := (push16_next_iff s t v).1 h
  rfl

theorem rmWrite_eflags {s t : State} {v : Word} {dst : Rm} (h : rmWrite s v dst = .next t) : t.eflags = s.eflags := by
  cases dst with
  | reg r =>
    cases h
    rfl
  | mem base =>
    obtain ⟨-, rfl⟩ := (memWrite32_next_iff s t _ v).1 h
    rfl

theorem aluStore_eflags {op : AluOp} {dst : Rm} {r : Word} {s t : State} (h : aluStore op dst r s = .next t) :
    t.eflags = s.eflags := by
  unfold aluStore at h
  split at h
  · exact rmWrite_eflags h
  · cases h
    rfl

theorem endsGuarded_execAlu {op : AluOp} {dst : Rm} {src : Src} {n : Nat} {s t : State}
    (h : execAlu op dst src n s = .next t) : EndsGuarded s t := by
  obtain ⟨a, b, s1, -, -, hstore, rfl⟩ := (execAlu_next_iff op dst src n s t).1 h
  obtain ⟨e, he, hbits⟩ := aluFlags_eflags op a b (aluResult op a b) s1
  rw [aluStore_eflags hstore] at hbits
  exact endsGuarded_of_written _ he (guarded_of_keeps (by decide) hbits)

theorem endsGuarded_execMove {dst : Rm} {src : Src} {n : Nat} {s t : State} (h : execMove dst src n s = .next t) :
    EndsGuarded s t := by
  obtain ⟨v, s1, -, hwrite, rfl⟩ := (execMove_next_iff dst src n s t).1 h
  exact endsGuarded_of_eflags_eq _ (rmWrite_eflags hwrite)

theorem guarded_returnFromException {s t : State} (h : returnFromException s = .next t) : Guarded s t.eflags := by
  obtain ⟨-, -, -, -, -, -, -, -, -, -, rfl⟩ := (returnFromException_next_iff s t).1 h
  exact (guarded_maskWrite (by decide) s _).hardwire

/-- Every instruction but IRETD leaves RF 0, and IF and IOPL as its privilege level allows (R145, R146, R149). -/
theorem endsGuarded_exec {i : Instr} {s t : State} (h : exec i s = .next t) (hi : i ≠ .iretd) : EndsGuarded s t := by
  cases i with
  | iretd => exact absurd rfl hi
  | addRmReg | addMemReg | addRegRm | addRegMem | addEaxImm | orRmReg | orMemReg | orRegRm | orRegMem | orEaxImm
  | andRmReg | andMemReg | andRegRm | andRegMem | andEaxImm | subRmReg | subMemReg | subRegRm | subRegMem | subEaxImm
  | xorRmReg | xorMemReg | xorRegRm | xorRegMem | xorEaxImm | cmpRmReg | cmpMemReg | cmpRegRm | cmpRegMem | cmpEaxImm
  | testRmReg | testMemReg => exact endsGuarded_execAlu ((exec_of_aluForm s rfl).symm.trans h)
  | movRmReg | movMemReg | movRegRm | movRegMem | movRegImm =>
    exact endsGuarded_execMove ((exec_of_moveForm s rfl).symm.trans h)
  | movRegCr0 | movRegCr4 =>
    obtain ⟨-, -, h⟩ := (andThen_next_iff _ _ t).1 h
    cases h
    exact endsGuarded_of_written _ rfl (guarded_of_keeps (by decide) (setStatus_of_not_mem _ _ _ _ _ _ _))
  | movCr4Reg r =>
    obtain ⟨-, -, rfl⟩ := (execMovCr4Reg_next_iff r s t).1 h
    have hforced : Guarded s (forceVirtualFlags (s.reg r) s.eflags) :=
      guarded_of_keeps (by decide) (forceVirtualFlags_of_not_mem (s.reg r) s.eflags)
    refine endsGuarded_of_written _ rfl fun k hk hmask => ?_
    have hstatus : k ∉ statusBits := (by decide : ∀ k ∈ privilegedBits, k ∉ statusBits) k hk
    exact (setStatus_of_not_mem _ _ _ _ _ _ _ k hstatus).trans (hforced.hardwire k hk hmask)
  | incReg r =>
    cases h
    have hbits := flagsInc_of_not_mem (s.reg r) (s.reg r + 1#32) s.eflags
    exact endsGuarded_of_written _ rfl (guarded_of_keeps (by decide) hbits)
  | decReg r =>
    cases h
    have hbits := flagsDec_of_not_mem (s.reg r) (s.reg r - 1#32) s.eflags
    exact endsGuarded_of_written _ rfl (guarded_of_keeps (by decide) hbits)
  | popf =>
    obtain ⟨-, -, rfl⟩ := (execPopf_next_iff s t).1 h
    exact endsGuarded_of_written _ rfl (guarded_maskWrite (by decide) s _)
  | popfd =>
    obtain ⟨-, -, rfl⟩ := (execPopfd_next_iff s t).1 h
    exact endsGuarded_of_written _ rfl (guarded_maskWrite (by decide) s _)
  | sahf =>
    cases h
    exact endsGuarded_of_written _ rfl (guarded_of_keeps (by decide) (sahfFlags_of_not_mem s))
  | pushf =>
    obtain ⟨-, s1, hpush, rfl⟩ := (execPushf_next_iff s t).1 h
    exact endsGuarded_of_eflags_eq _ (push16_eflags hpush)
  | pushfd =>
    obtain ⟨-, s1, hpush, rfl⟩ := (execPushfd_next_iff s t).1 h
    exact endsGuarded_of_eflags_eq _ (push32_eflags hpush)
  | pushReg | callRel32 =>
    obtain ⟨s1, hpush, h⟩ := (andThen_next_iff _ _ t).1 h
    cases h
    exact endsGuarded_of_eflags_eq _ (push32_eflags hpush)
  | popReg | ret =>
    obtain ⟨v, -, h⟩ := (andThen_next_iff _ _ t).1 h
    cases h
    exact endsGuarded_of_eflags_eq _ rfl
  | hlt =>
    obtain ⟨-, rfl⟩ := (execHlt_next_iff s t).1 h
    exact ⟨_, guarded_self s, rfl⟩
  | wrmsr =>
    obtain ⟨-, -, rfl⟩ := (execWrmsr_next_iff s t).1 h
    exact endsGuarded_of_eflags_eq _ rfl
  | rdmsr =>
    obtain ⟨-, -, rfl⟩ := (execRdmsr_next_iff s t).1 h
    exact endsGuarded_of_eflags_eq _ rfl
  | rdtsc =>
    obtain ⟨-, rfl⟩ := (execRdtsc_next_iff s t).1 h
    exact endsGuarded_of_eflags_eq _ rfl
  | fxch k =>
    obtain ⟨-, -, -, -, rfl⟩ := (execFxch_next_iff k s t).1 h
    exact endsGuarded_of_eflags_eq _ rfl
  | jccRel8 cc rel =>
    replace h : execJccRel8 cc rel s = .next t := h
    unfold execJccRel8 at h
    split at h <;> cases h <;> exact endsGuarded_of_eflags_eq _ rfl
  | movCr0Reg => cases h
  | cpuid | lahf | jmpRel8 | jmpRel32 | nop =>
    cases h
    exact endsGuarded_of_eflags_eq _ rfl

/-- IF and IOPL after any instruction: IRETD, too, writes them as its privilege level allows (R147). -/
theorem guarded_exec {i : Instr} {s t : State} (h : exec i s = .next t) : Guarded s t.eflags := by
  by_cases hi : i = .iretd
  · subst hi
    exact guarded_returnFromException h
  · obtain ⟨e, he, ht⟩ := endsGuarded_exec h hi
    rw [ht]
    exact he.clearRf.hardwire

/-- Settles O47: an instruction other than IRETD ends by clearing RF. -/
theorem rfIsClearAfterAllButInterruptReturn : Obligations.RfIsClearAfterAllButInterruptReturn := by
  intro i s t h hi
  obtain ⟨e, -, ht⟩ := endsGuarded_exec h hi
  simp [ht]

/-- Settles O58: MOV CR4 and HLT need CPL 0; outside it the mask of a pop has no bit of IOPL, and none of IF above IOPL. -/
theorem unprivilegedCodeCannotChangeSystemState : Obligations.UnprivilegedCodeCannotChangeSystemState := by
  intro i s t hcpl h
  have hguarded := guarded_exec h
  have hiopl : ∀ k, k < 2 → t.eflags.getLsbD (12 + k) = s.eflags.getLsbD (12 + k) := fun k hk => by
    have hmem : 12 + k ∈ privilegedBits := (by decide : ∀ k, k < 2 → 12 + k ∈ privilegedBits) k hk
    refine hguarded _ hmem ?_
    rw [getLsbD_maskPrivileged _ _ _ (by omega)]
    simp only [hcpl, and_false, decide_false, Bool.or_false, decide_eq_false_iff_not]
    omega
  have hif (hlt : s.iopl < s.cpl) : t.eflags.getLsbD 9 = s.eflags.getLsbD 9 := by
    refine hguarded 9 (by decide) ?_
    rw [getLsbD_maskPrivileged _ _ _ (by decide)]
    simp [BitVec.not_le.2 hlt]
  have hfield : ioplOf t.eflags = ioplOf s.eflags := by
    apply BitVec.eq_of_getLsbD_eq
    intro k hk
    rw [ioplOf, ioplOf, BitVec.getLsbD_extractLsb', BitVec.getLsbD_extractLsb', hiopl k hk]
  rcases exec_next_cases h with ⟨hkept, -⟩ | ⟨-, -, hcpl0, -⟩ | ⟨-, hcpl0, -⟩
  · exact ⟨hkept.cr4, hkept.halted, hfield, hif⟩
  · exact absurd hcpl0 hcpl
  · exact absurd hcpl0 hcpl

end Sys2Proof.Machine
end

section
/-! SUPPORT. The privileged instructions outside privilege level 0, and the write to CR0, refused at every level. -/

namespace Sys2Proof.Machine

/-- An instruction that first asks for CPL 0 faults at every other level, whatever it would do next (R222, R246). -/
theorem faults_of_requireCpl0 {i : Instr} {s : State} {f : Unit → Res State} (hi : exec i s = andThen (requireCpl0 s) f)
    (hcpl : s.cpl ≠ 0#2) : Faults i s .generalProtection (some 0#32) := by
  refine ⟨exceptionImage .generalProtection s, ?_⟩
  rw [hi, requireCpl0_of_ne hcpl, andThen_raise]
  rfl

/-- Settles O18: the privilege test is the first thing each of the six does. -/
theorem privilegedInstructionsFaultOutsideLevelZero : Obligations.PrivilegedInstructionsFaultOutsideLevelZero := by
  intro s r hcpl
  simp only [List.forall_mem_cons]
  exact ⟨faults_of_requireCpl0 rfl hcpl, faults_of_requireCpl0 rfl hcpl, faults_of_requireCpl0 rfl hcpl,
    faults_of_requireCpl0 rfl hcpl, faults_of_requireCpl0 rfl hcpl, faults_of_requireCpl0 rfl hcpl,
    List.forall_mem_nil _⟩

/-- The ModRM byte of MOV CR0, r32, mod 11 and control register 0, as a sum (R114, R163). -/
theorem encode_movCr0Reg (r : Reg) :
    encode (.movCr0Reg r) = [0x0F#8, 0x22#8, BitVec.ofNat 8 (0xC0 + r.num.toNat)] := by
  cases r <;> rfl

/-- Settles O57: the bytes are the instruction's encoding, and its meaning is the refusal, with no test before it. -/
theorem writeControlRegisterZeroIsRefused : Obligations.WriteControlRegisterZeroIsRefused := by
  intro s r rest
  constructor
  · rw [← encode_movCr0Reg]
    exact decode_encode (.movCr0Reg r) rest rfl
  · show execMovCr0Reg r s = refuse .cr0WriteNotAdmitted s
    rfl

end Sys2Proof.Machine
end

section
/-! SUPPORT. INC and DEC, NOP and the jumps: a register and flags written together, and EIP as an exact sum. -/

namespace Sys2Proof.Machine

/-! ### INC and DEC -/

/-- Completing after a write of EFLAGS leaves every flag but RF as written (R149). -/
theorem getFlag_complete_setEflags (n : Nat) (s : State) (e : Word) {f : Flag} (hf : f ≠ .rf) :
    getFlag (complete n (s.setEflags e)).eflags f = getFlag e f := by
  rw [complete_eflags, getFlag_hardwireEflags, getFlag_setFlag, if_neg hf, State.setEflags_eflags, getFlag_hardwireEflags]

/-- INC and DEC alike: a register written, OF and AF written as given, SF, ZF and PF as the result has them, CF kept
(R195, R196). -/
theorem registerResult_of_stepFlags {i : Instr} {d : Reg} {s : State} {v e : Word} {vOf vAf : Bool} {pOf pAf : Prop}
    (hexec : exec i s = .next (complete 1 ((s.setReg d v).setEflags e)))
    (he : e = setSZP v (setFlag .af vAf (setFlag .of vOf s.eflags)))
    (hbits : ∀ k, k ∉ [2, 4, 6, 7, 11] → e.getLsbD k = s.eflags.getLsbD k)
    (hof : vOf = true ↔ pOf) (haf : vAf = true ↔ pAf) :
    RegisterResult i 1 s d v [2, 4, 6, 7, 11] fun t =>
      (getFlag t.eflags .of = true ↔ pOf) ∧ (getFlag t.eflags .af = true ↔ pAf) ∧ ResultFlags t v ∧
        getFlag t.eflags .cf = getFlag s.eflags .cf := by
  refine ⟨_, hexec, reg_of_set d v rfl, ⟨?_, ?_, ?_, ?_⟩, rfl,
    frame_completeAt _ rfl hbits (sameRegs_of_set d v rfl) (sameSystem_refl s) rfl (sameMemory_refl s 0 0)⟩
  · rw [getFlag_complete_setEflags _ _ _ (by decide), ← hof]
    simp [he, setSZP]
  · rw [getFlag_complete_setEflags _ _ _ (by decide), ← haf]
    simp [he, setSZP]
  · exact resultFlags_of_eflags rfl (by simp [he, setSZP]) (by simp [he, setSZP]) (by simp [he, setSZP])
  · rw [getFlag_complete_setEflags _ _ _ (by decide)]
    exact hbits _ (by decide)

/-- The low four bits as a remainder. -/
theorem extractLsb'_low_four_eq_iff (a : Word) (b : BitVec 4) : a.extractLsb' 0 4 = b ↔ a.toNat % 16 = b.toNat := by
  rw [← BitVec.toNat_inj, BitVec.extractLsb'_toNat, Nat.shiftRight_zero]

theorem encode_incReg (r : Reg) : encode (.incReg r) = [BitVec.ofNat 8 (0x40 + r.num.toNat)] := by
  cases r <;> rfl

theorem encode_decReg (r : Reg) : encode (.decReg r) = [BitVec.ofNat 8 (0x48 + r.num.toNat)] := by
  cases r <;> rfl

/-- Settles O29: each writes its result and its five flags together, and OF and AF are tests of the operand. -/
theorem incrementAndDecrementRegister : Obligations.IncrementAndDecrementRegister := by
  intro s r
  rw [sumOf_eq, differenceOf_eq]
  refine ⟨encode_incReg r, encode_decReg r,
    registerResult_of_stepFlags rfl rfl (flagsInc_of_not_mem _ _ _) ?_ ?_,
    registerResult_of_stepFlags rfl rfl (flagsDec_of_not_mem _ _ _) ?_ ?_⟩
  · exact decide_eq_true_iff.trans BitVec.toNat_inj.symm
  · exact decide_eq_true_iff.trans (extractLsb'_low_four_eq_iff _ _)
  · exact decide_eq_true_iff.trans BitVec.toNat_inj.symm
  · exact decide_eq_true_iff.trans (extractLsb'_low_four_eq_iff _ _)

/-! ### NOP and the jumps -/

/-- The frame of an instruction that sets EIP and writes nothing else. -/
theorem frame_completeAt_self (target : Word) (s : State) : Frame s (completeAt target s) [] [] 0 0 :=
  frame_completeAt_of_eflags_eq target rfl (sameRegs_of_eq rfl) (sameSystem_refl s) rfl (sameMemory_refl s 0 0)

/-- The target of a relative jump: the next address and the signed displacement, summed exactly and reduced modulo 2^32
(R197 to R199). -/
theorem ofInt_relative_target {w : Nat} (e : Word) (n : Nat) (rel : BitVec w) :
    BitVec.ofInt 32 ((e.toNat : Int) + n + rel.toInt) = e + BitVec.ofNat 32 n + rel.signExtend 32 := by
  rw [BitVec.ofInt_add, BitVec.ofInt_add, BitVec.ofInt_natCast, BitVec.ofInt_natCast, BitVec.ofNat_toNat,
    BitVec.setWidth_eq, BitVec.signExtend]

/-- Settles O34: NOP completes in the state it found. -/
theorem nopOnlyAdvances : Obligations.NopOnlyAdvances := fun s =>
  ⟨rfl, complete 1 s, rfl, rfl, frame_completeAt_self _ s⟩

/-- Settles O37: both forms complete at the same kind of target; sign extension of 32 bits to 32 is the identity. -/
theorem jumpIsRelativeToTheNextAddress : Obligations.JumpIsRelativeToTheNextAddress := by
  refine fun s rel8 rel32 => ⟨rfl, rfl, ⟨_, rfl, ?_, frame_completeAt_self _ s⟩, ⟨_, rfl, ?_, frame_completeAt_self _ s⟩⟩
  · exact (ofInt_relative_target s.eip 2 rel8).symm
  · have htarget := ofInt_relative_target s.eip 5 rel32
    rw [BitVec.signExtend_eq] at htarget
    exact htarget.symm

/-- The opcode byte of a conditional jump as a sum (R111, R197). -/
theorem encode_jccRel8 (cc : Cond) (rel : BitVec 8) :
    encode (.jccRel8 cc rel) = [BitVec.ofNat 8 (0x70 + cc.num.toNat), rel] := by
  cases cc <;> rfl

theorem exec_jccRel8_of_holds {s : State} {cc : Cond} (rel : BitVec 8) (h : CondTable s cc) :
    exec (.jccRel8 cc rel) s = .next (completeAt (s.nextEip 2 + sext8 rel) s) :=
  if_pos ((condHolds_iff s cc).2 h)

theorem exec_jccRel8_of_not_holds {s : State} {cc : Cond} (rel : BitVec 8) (h : ¬CondTable s cc) :
    exec (.jccRel8 cc rel) s = .next (complete 2 s) :=
  if_neg fun hc => h ((condHolds_iff s cc).1 hc)

/-- Settles O38: taken, it is JMP rel8; not taken, it only advances. -/
theorem conditionalJumpFollowsTheTable : Obligations.ConditionalJumpFollowsTheTable := by
  refine fun s cc rel => ⟨encode_jccRel8 cc rel, ?_⟩
  by_cases hcond : CondTable s cc
  · exact ⟨_, exec_jccRel8_of_holds rel hcond, fun _ => (ofInt_relative_target s.eip 2 rel).symm,
      fun hnot => absurd hcond hnot, frame_completeAt_self _ s⟩
  · exact ⟨_, exec_jccRel8_of_not_holds rel hcond, fun hholds => absurd hholds hcond, fun _ => rfl,
      frame_completeAt_self _ s⟩

end Sys2Proof.Machine
end
